-- ==== Sys2Proof/Word.lean ====
section
/-! DEFINITION. The word types of CORE (R11: every value is an unsigned integer of a stated width)
and the type of its key table (R31). -/

namespace Sys2Proof

/-- u8 (R11). -/
abbrev U8 := BitVec 8

/-- u32 (R11). -/
abbrev U32 := BitVec 32

/-- u64 (R11). -/
abbrev U64 := BitVec 64

/-- u128 (R11). -/
abbrev U128 := BitVec 128

/-- KT_WORDS = 1042 words of 32 bits (R9, R31): T[0..17] are the P-words and
T[18 + 256k .. 18 + 256k + 255] is S-box plane k. SEED has the same shape (R32). -/
abbrev Table := Vector U32 1042

end Sys2Proof
end

