-- ==== Sys2Proof/Syntax.lean ====
section
/-! DEFINITION. The commands of CORE: one constructor per row of spec/opcode_table.json (R97), with the
SUB operands of R93 as its arguments. Every other operand is implicit (R94). -/

namespace Sys2Proof

/-- A command (R4). -/
inductive Instr where
  /-- NOP (R123). -/
  | nop
  /-- KS.INIT (R121); `ok` is SUB bit 8. -/
  | ksInit (ok : Bool)
  /-- KT.INIT1 (R146). -/
  | ktInit1
  /-- KT.INIT2 (R147). -/
  | ktInit2
  /-- KT.UPDATE (R148). -/
  | ktUpdate
  /-- KT.ADVANCE (R149). -/
  | ktAdvance
  /-- BLK.ENC (R150). -/
  | blkEnc
  /-- BLK.DEC (R151). -/
  | blkDec
  /-- SA.DETECT (R181). -/
  | saDetect
  /-- SA.DEC (R182). -/
  | saDec
  /-- SA.ENC (R184). -/
  | saEnc
  /-- AES.KEYSEL (R213); `dev` is SUB bit 8. -/
  | aesKeysel (dev : Bool)
  /-- AES.SCRAMBLE (R214). -/
  | aesScramble
  /-- CTR.INIT (R253); `tag` is SUB bits 9:8. -/
  | ctrInit (tag : BitVec 2)
  /-- CTR.STEP (R254). -/
  | ctrStep
  /-- CTR.XFORM (R256). -/
  | ctrXform
  /-- PR.XFORM (R258); `tag` is SUB bits 9:8, `dev` bit 10, `dir` bit 11. -/
  | prXform (tag : BitVec 2) (dev dir : Bool)
  deriving DecidableEq, Repr

end Sys2Proof
end

