-- ==== Sys2Proof/WellFormed.lean ====
section
/-! DEFINITION. Which commands exist: the one operand value R93 reserves is `tag = 3` (R95, R96). -/

namespace Sys2Proof

/-- A command some word encodes (R93, R95). -/
def Instr.wellFormed : Instr → Bool
  | .nop => true
  | .ksInit _ => true
  | .ktInit1 => true
  | .ktInit2 => true
  | .ktUpdate => true
  | .ktAdvance => true
  | .blkEnc => true
  | .blkDec => true
  | .saDetect => true
  | .saDec => true
  | .saEnc => true
  | .aesKeysel _ => true
  | .aesScramble => true
  | .ctrInit tag => tag != 3
  | .ctrStep => true
  | .ctrXform => true
  | .prXform tag _ _ => tag != 3

end Sys2Proof
end

