-- ==== Sys2Proof/Decode.lean ====
section
/-! DEFINITION. Decoding a command word (R90 to R98), by the opcode map, and the encoder. -/

namespace Sys2Proof

/-- One row of the opcode map (R97): a word is the row's when its masked bits are `pattern` and its
constraint holds; `operands` then reads the SUB bits (R93). -/
structure OpcodeRow where
  pattern : U32
  mask : U32
  operands : U32 → Instr

/-- SUB operand bit `n` of a command word (R93). -/
def subBit (n : Nat) (w : U32) : Bool := w.getLsbD n

/-- The `tag` operand, bits 9:8 (R93). -/
def subTag (w : U32) : BitVec 2 := w.extractLsb' 8 2

/-- The opcode map (R97). -/
def opcodeMap : List OpcodeRow :=
  [⟨0x00000000, 0xFFFFFFFF, fun _ => .nop⟩,
   ⟨0x00000001, 0xFFFFFEFF, fun w => .ksInit (subBit 8 w)⟩,
   ⟨0x00000010, 0xFFFFFFFF, fun _ => .ktInit1⟩,
   ⟨0x00000011, 0xFFFFFFFF, fun _ => .ktInit2⟩,
   ⟨0x00000012, 0xFFFFFFFF, fun _ => .ktUpdate⟩,
   ⟨0x00000013, 0xFFFFFFFF, fun _ => .ktAdvance⟩,
   ⟨0x00000014, 0xFFFFFFFF, fun _ => .blkEnc⟩,
   ⟨0x00000015, 0xFFFFFFFF, fun _ => .blkDec⟩,
   ⟨0x00000020, 0xFFFFFFFF, fun _ => .saDetect⟩,
   ⟨0x00000021, 0xFFFFFFFF, fun _ => .saDec⟩,
   ⟨0x00000121, 0xFFFFFFFF, fun _ => .saEnc⟩,
   ⟨0x00000030, 0xFFFFFEFF, fun w => .aesKeysel (subBit 8 w)⟩,
   ⟨0x00000031, 0xFFFFFFFF, fun _ => .aesScramble⟩,
   ⟨0x00000040, 0xFFFFFCFF, fun w => .ctrInit (subTag w)⟩,
   ⟨0x00000041, 0xFFFFFFFF, fun _ => .ctrStep⟩,
   ⟨0x00000042, 0xFFFFFFFF, fun _ => .ctrXform⟩,
   ⟨0x00000043, 0xFFFFF0FF, fun w => .prXform (subTag w) (subBit 10 w) (subBit 11 w)⟩]

/-- `w` is a word of the row (R95); its constraint, `tag != 3` where there is a tag, is the
well-formedness of the command it makes. -/
def OpcodeRow.holds (r : OpcodeRow) (w : U32) : Bool :=
  w &&& r.mask == r.pattern && (r.operands w).wellFormed

/-- Why a word is illegal: the four cases of R96, in its order. -/
inductive Illegal where
  /-- RSV != 0. -/
  | reservedBits
  /-- OPC is not listed in R97. -/
  | unlistedOpcode
  /-- A SUB bit that R93 does not assign to the command is 1. -/
  | unassignedSub
  /-- `tag = 3` in CTR.INIT or PR.XFORM. -/
  | reservedTag
  deriving DecidableEq, Repr

/-- OPC is listed in R97. -/
def opcodeListed (w : U32) : Bool :=
  opcodeMap.any fun r => w &&& 0xFF == r.pattern &&& 0xFF

/-- The name of what makes an illegal word illegal (R96). -/
def illegalReason (w : U32) : Illegal :=
  if w &&& 0xFFFFF000 != 0 then .reservedBits
  else if !opcodeListed w then .unlistedOpcode
  else if opcodeMap.any fun r => w &&& r.mask == r.pattern then .reservedTag
  else .unassignedSub

/-- Decoding (R95): the row the word belongs to, or the reason there is none. -/
def decode (w : U32) : Except Illegal Instr :=
  match opcodeMap.find? (OpcodeRow.holds · w) with
  | some r => .ok (r.operands w)
  | none => .error (illegalReason w)

/-- A SUB operand bit put at its place (R93). -/
def putBit (n : Nat) (b : Bool) : U32 := if b then 1 <<< n else 0

/-- The `tag` operand put at bits 9:8 (R93). -/
def putTag (tag : BitVec 2) : U32 := tag.setWidth 32 <<< 8

/-- The word of a command (R97, R99). -/
def encode : Instr → U32
  | .nop => 0x00000000
  | .ksInit ok => 0x00000001 ||| putBit 8 ok
  | .ktInit1 => 0x00000010
  | .ktInit2 => 0x00000011
  | .ktUpdate => 0x00000012
  | .ktAdvance => 0x00000013
  | .blkEnc => 0x00000014
  | .blkDec => 0x00000015
  | .saDetect => 0x00000020
  | .saDec => 0x00000021
  | .saEnc => 0x00000121
  | .aesKeysel dev => 0x00000030 ||| putBit 8 dev
  | .aesScramble => 0x00000031
  | .ctrInit tag => 0x00000040 ||| putTag tag
  | .ctrStep => 0x00000041
  | .ctrXform => 0x00000042
  | .prXform tag dev dir => 0x00000043 ||| putTag tag ||| putBit 10 dev ||| putBit 11 dir

/-- What the decoder reads from the opcode table's bits `w` (of which `nbits` are given): a command is
one 32-bit word (R92), its bits numbered as the table numbers them. -/
def decodeTableWord (nbits w : Nat) : Option Instr :=
  match decode (BitVec.ofNat 32 (w % 2 ^ nbits)) with
  | .ok i => some i
  | .error _ => none

end Sys2Proof
end

