-- ==== Sys2Proof/Machine/Bytes.lean ====
section
/-! DEFINITION. The byte-sequence helpers of R13 and the rotation of R12. -/

namespace Sys2Proof.Machine

/-- B[i] of a byte sequence (R13). -/
def byteAt (B : List U8) (i : Nat) : U8 := B.getD i 0

/-- LE32(B, o) (R13): B[o] is the least significant byte. -/
def le32 (B : List U8) (o : Nat) : U32 :=
  byteAt B (o + 3) ++ byteAt B (o + 2) ++ byteAt B (o + 1) ++ byteAt B o

/-- bytesLE32(w) (R13): w[7:0] first. -/
def bytesLE32 (w : U32) : List U8 :=
  [w.extractLsb' 0 8, w.extractLsb' 8 8, w.extractLsb' 16 8, w.extractLsb' 24 8]

/-- BE128(B) (R13): B[0] is the most significant byte. -/
def be128 (B : List U8) : U128 :=
  byteAt B 0 ++ byteAt B 1 ++ byteAt B 2 ++ byteAt B 3 ++ byteAt B 4 ++ byteAt B 5 ++ byteAt B 6 ++ byteAt B 7 ++
  byteAt B 8 ++ byteAt B 9 ++ byteAt B 10 ++ byteAt B 11 ++ byteAt B 12 ++ byteAt B 13 ++ byteAt B 14 ++ byteAt B 15

/-- bytesBE128(x) (R13): x[127:120] first. -/
def bytesBE128 (x : U128) : List U8 :=
  (List.range 16).map fun i => x.extractLsb' (120 - 8 * i) 8

/-- rotl128(x, n) (R12). -/
def rotl128 (x : U128) (n : Nat) : U128 := (x <<< n) ||| (x >>> (128 - n))

end Sys2Proof.Machine
end

