-- ==== Sys2Proof/Machine/Aes.lean ====
section
/-! DEFINITION. AES-128 encryption as R240 to R244 restate it. -/

namespace Sys2Proof.Machine

/-- One column of the AES state, a0 in row 0 (R240, R242), or one word of the key schedule (R243). -/
structure AesCol where
  a0 : U8
  a1 : U8
  a2 : U8
  a3 : U8
  deriving DecidableEq, Repr

/-- The AES state by columns, or one round key: four words of the key schedule (R240, R243). -/
structure AesBlock where
  c0 : AesCol
  c1 : AesCol
  c2 : AesCol
  c3 : AesCol
  deriving DecidableEq, Repr

/-- The S-box by rows: the row is the high hex digit (R241). -/
def sboxRows : List (List U8) :=
  [[0x63, 0x7c, 0x77, 0x7b, 0xf2, 0x6b, 0x6f, 0xc5, 0x30, 0x01, 0x67, 0x2b, 0xfe, 0xd7, 0xab, 0x76],
   [0xca, 0x82, 0xc9, 0x7d, 0xfa, 0x59, 0x47, 0xf0, 0xad, 0xd4, 0xa2, 0xaf, 0x9c, 0xa4, 0x72, 0xc0],
   [0xb7, 0xfd, 0x93, 0x26, 0x36, 0x3f, 0xf7, 0xcc, 0x34, 0xa5, 0xe5, 0xf1, 0x71, 0xd8, 0x31, 0x15],
   [0x04, 0xc7, 0x23, 0xc3, 0x18, 0x96, 0x05, 0x9a, 0x07, 0x12, 0x80, 0xe2, 0xeb, 0x27, 0xb2, 0x75],
   [0x09, 0x83, 0x2c, 0x1a, 0x1b, 0x6e, 0x5a, 0xa0, 0x52, 0x3b, 0xd6, 0xb3, 0x29, 0xe3, 0x2f, 0x84],
   [0x53, 0xd1, 0x00, 0xed, 0x20, 0xfc, 0xb1, 0x5b, 0x6a, 0xcb, 0xbe, 0x39, 0x4a, 0x4c, 0x58, 0xcf],
   [0xd0, 0xef, 0xaa, 0xfb, 0x43, 0x4d, 0x33, 0x85, 0x45, 0xf9, 0x02, 0x7f, 0x50, 0x3c, 0x9f, 0xa8],
   [0x51, 0xa3, 0x40, 0x8f, 0x92, 0x9d, 0x38, 0xf5, 0xbc, 0xb6, 0xda, 0x21, 0x10, 0xff, 0xf3, 0xd2],
   [0xcd, 0x0c, 0x13, 0xec, 0x5f, 0x97, 0x44, 0x17, 0xc4, 0xa7, 0x7e, 0x3d, 0x64, 0x5d, 0x19, 0x73],
   [0x60, 0x81, 0x4f, 0xdc, 0x22, 0x2a, 0x90, 0x88, 0x46, 0xee, 0xb8, 0x14, 0xde, 0x5e, 0x0b, 0xdb],
   [0xe0, 0x32, 0x3a, 0x0a, 0x49, 0x06, 0x24, 0x5c, 0xc2, 0xd3, 0xac, 0x62, 0x91, 0x95, 0xe4, 0x79],
   [0xe7, 0xc8, 0x37, 0x6d, 0x8d, 0xd5, 0x4e, 0xa9, 0x6c, 0x56, 0xf4, 0xea, 0x65, 0x7a, 0xae, 0x08],
   [0xba, 0x78, 0x25, 0x2e, 0x1c, 0xa6, 0xb4, 0xc6, 0xe8, 0xdd, 0x74, 0x1f, 0x4b, 0xbd, 0x8b, 0x8a],
   [0x70, 0x3e, 0xb5, 0x66, 0x48, 0x03, 0xf6, 0x0e, 0x61, 0x35, 0x57, 0xb9, 0x86, 0xc1, 0x1d, 0x9e],
   [0xe1, 0xf8, 0x98, 0x11, 0x69, 0xd9, 0x8e, 0x94, 0x9b, 0x1e, 0x87, 0xe9, 0xce, 0x55, 0x28, 0xdf],
   [0x8c, 0xa1, 0x89, 0x0d, 0xbf, 0xe6, 0x42, 0x68, 0x41, 0x99, 0x2d, 0x0f, 0xb0, 0x54, 0xbb, 0x16]]

/-- SBOX[b] (R241). -/
def sbox (b : U8) : U8 := (sboxRows.getD (b.toNat / 16) []).getD (b.toNat % 16) 0

/-- xtime(b) (R240): multiplication by 2 in GF(2^8) mod 0x11B. -/
def xtime (b : U8) : U8 := (b <<< 1) ^^^ (if b.getLsbD 7 then 0x1B else 0)

/-- 3*a (R242). -/
def times3 (a : U8) : U8 := xtime a ^^^ a

/-- Bytewise XOR of two columns or words (R242, R243). -/
def AesCol.xor (x y : AesCol) : AesCol := ⟨x.a0 ^^^ y.a0, x.a1 ^^^ y.a1, x.a2 ^^^ y.a2, x.a3 ^^^ y.a3⟩

/-- SubWord: the S-box on each byte (R241, R243). -/
def AesCol.sub (x : AesCol) : AesCol := ⟨sbox x.a0, sbox x.a1, sbox x.a2, sbox x.a3⟩

/-- MixColumns on one column (R242). -/
def AesCol.mix (x : AesCol) : AesCol :=
  ⟨xtime x.a0 ^^^ times3 x.a1 ^^^ x.a2 ^^^ x.a3,
   x.a0 ^^^ xtime x.a1 ^^^ times3 x.a2 ^^^ x.a3,
   x.a0 ^^^ x.a1 ^^^ xtime x.a2 ^^^ times3 x.a3,
   times3 x.a0 ^^^ x.a1 ^^^ x.a2 ^^^ xtime x.a3⟩

/-- SubBytes (R241). -/
def AesBlock.sub (s : AesBlock) : AesBlock := ⟨s.c0.sub, s.c1.sub, s.c2.sub, s.c3.sub⟩

/-- ShiftRows (R242): s'[r][c] = s[r][(c + r) mod 4]. -/
def AesBlock.shiftRows (s : AesBlock) : AesBlock :=
  ⟨⟨s.c0.a0, s.c1.a1, s.c2.a2, s.c3.a3⟩,
   ⟨s.c1.a0, s.c2.a1, s.c3.a2, s.c0.a3⟩,
   ⟨s.c2.a0, s.c3.a1, s.c0.a2, s.c1.a3⟩,
   ⟨s.c3.a0, s.c0.a1, s.c1.a2, s.c2.a3⟩⟩

/-- MixColumns (R242). -/
def AesBlock.mix (s : AesBlock) : AesBlock := ⟨s.c0.mix, s.c1.mix, s.c2.mix, s.c3.mix⟩

/-- AddRoundKey (R242): w[4n + c] into column c. -/
def AesBlock.addKey (k s : AesBlock) : AesBlock :=
  ⟨s.c0.xor k.c0, s.c1.xor k.c1, s.c2.xor k.c2, s.c3.xor k.c3⟩

/-- RotWord then SubWord, with RCON into byte 0 (R243): what w[i - 1] contributes when i mod 4 = 0. -/
def keyCore (rcon : U8) (t : AesCol) : AesCol :=
  ⟨sbox t.a1 ^^^ rcon, sbox t.a2, sbox t.a3, sbox t.a0⟩

/-- The round key w[4n .. 4n + 3] from w[4n - 4 .. 4n - 1] with RCON[n] (R243). -/
def nextKey (k : AesBlock) (rcon : U8) : AesBlock :=
  let w0 := k.c0.xor (keyCore rcon k.c3)
  let w1 := k.c1.xor w0
  let w2 := k.c2.xor w1
  let w3 := k.c3.xor w2
  ⟨w0, w1, w2, w3⟩

/-- RCON[1..9] (R243), of the rounds that mix columns. -/
def rconMiddle : List U8 := [0x01, 0x02, 0x04, 0x08, 0x10, 0x20, 0x40, 0x80, 0x1B]

/-- RCON[10] (R243), of the last round. -/
def rconLast : U8 := 0x36

/-- One of rounds 1 to 9, on the last round key and the state (R244). -/
def aesRound (x : AesBlock × AesBlock) (rcon : U8) : AesBlock × AesBlock :=
  let k := nextKey x.1 rcon
  (k, k.addKey x.2.sub.shiftRows.mix)

/-- Four bytes of a sequence as a column (R240, R243). -/
def aesCol (B : List U8) (o : Nat) : AesCol := ⟨byteAt B o, byteAt B (o + 1), byteAt B (o + 2), byteAt B (o + 3)⟩

/-- s[r][c] = P[r + 4c] (R240). -/
def aesBlock (B : List U8) : AesBlock := ⟨aesCol B 0, aesCol B 4, aesCol B 8, aesCol B 12⟩

/-- The bytes of a column, row 0 first (R240). -/
def AesCol.bytes (x : AesCol) : List U8 := [x.a0, x.a1, x.a2, x.a3]

/-- O[r + 4c] = s[r][c] (R240). -/
def AesBlock.bytes (s : AesBlock) : List U8 := s.c0.bytes ++ s.c1.bytes ++ s.c2.bytes ++ s.c3.bytes

/-- AES128(K, P) (R244). -/
def aes128 (K P : List U8) : List U8 :=
  let k0 := aesBlock K
  let x := rconMiddle.foldl aesRound (k0, k0.addKey (aesBlock P))
  ((nextKey x.1 rconLast).addKey x.2.sub.shiftRows).bytes

end Sys2Proof.Machine
end

