-- ==== Sys2Proof/Config.lean ====
section
/-! DEFINITION. What an implementation fixes (R9, R10) and the free values.
An opaque constant has no body a proof can see: what is proved holds whatever it is. -/

namespace Sys2Proof

/-- CTR_LAYOUT (R10, R250). -/
inductive CtrLayout where
  | tagHigh
  | idHigh
  deriving DecidableEq, Repr

/-- KEYSLOTS (R9): the four keyslots, in the order KEYSLOT_ID lists them (R35). -/
inductive Keyslot where
  | slot18
  | slot1B
  | slot25
  | slot2C
  deriving DecidableEq, Repr

/-- How the host's port answers one MemRead or MemWrite (R72). -/
inductive PortAnswer where
  /-- The access completes. -/
  | done
  /-- A bus error. `torn` are the draws for the bytes an erroring MemWrite addressed, first byte first;
  a byte `torn` does not reach keeps its old value (one of the values R72 allows). -/
  | error (torn : List U8)
  deriving DecidableEq, Repr, Inhabited

/-- The parameters of R10 that the source does not fix. `methodMap` is METHOD_MAP as pairs of a method
and its keyslot, the first pair of a method counting; a method without a pair is outside its domain (R211). -/
structure Params where
  seed : Table
  tagPlain : U64
  tagExefs : U64
  tagRomfs : U64
  ctrLayout : CtrLayout
  methodMap : List (U8 × Keyslot)
  deriving DecidableEq, Repr

/-- ADDR_BITS (R10): the default, and the width of REG_OFF and REG_LEN (R21). -/
def Config.addrBits : Nat := 64

/-- SEED (R10, R32): OPEN, no default. Nothing is known of it (assumption 6). -/
opaque Config.seed : Table

/-- TAG_PLAIN (R10, R37): OPEN, no default (assumption 6). -/
opaque Config.tagPlain : U64

/-- TAG_EXEFS (R10, R37): OPEN, no default (assumption 6). -/
opaque Config.tagExefs : U64

/-- TAG_ROMFS (R10, R37): OPEN, no default (assumption 6). -/
opaque Config.tagRomfs : U64

/-- The default METHOD_MAP (R10, R211). PRESUMED: the spec marks it general knowledge (assumption 7). -/
def Config.methodMap : List (U8 × Keyslot) :=
  [(0x00, .slot2C), (0x01, .slot25), (0x0A, .slot18), (0x0B, .slot1B)]

/-- The parameters of the machine `State.reset` describes: the open ones open, the others at the
default of R10 (assumptions 6, 7, 8). -/
def Config.params : Params where
  seed := Config.seed
  tagPlain := Config.tagPlain
  tagExefs := Config.tagExefs
  tagRomfs := Config.tagRomfs
  ctrLayout := .tagHigh
  methodMap := Config.methodMap

/-- KEYSLOT_ID (R35): the keyslot number of keyslot index 0, 1, 2, 3. -/
def Config.keyslotId : List U8 := [0x18, 0x1B, 0x25, 0x2C]

/-- The free value behind a port answer that no waiting draw fixes (R72; assumption 4). -/
opaque Config.portAnswer : Nat → PortAnswer

/-- The free value a word of W holds after a late bus error of SA.DEC or SA.ENC (R186; assumption 3). -/
opaque Config.freeWord : Nat → U32

/-- The free value the key table holds after a late bus error of SA.DEC or SA.ENC (R186; assumption 3). -/
opaque Config.freeTable : Nat → Table

end Sys2Proof
end

