-- ==== Sys2Proof/Machine/State.lean ====
section
/-! DEFINITION. The state of CORE (10_state.md), of its parameters, and of the host's side it is driven
from (the image, its port and the host's actions); the machine right after power-on reset; and the
reasons a step can stop. -/

namespace Sys2Proof.Machine

/-- A HIF register of R21: its contents, and the mark that the spec calls them UNDEFINED (R15, R41).
The mark decides nothing that a command does (assumptions 1 and 2). -/
structure Reg (w : Nat) where
  val : BitVec w
  undef : Bool
  deriving DecidableEq, Repr

/-- A register something has written. -/
def Reg.written {w : Nat} (v : BitVec w) : Reg w := ⟨v, false⟩

/-- A register nothing has written since reset: DESIGN CHOICE, it holds 0 (assumption 1). -/
def Reg.atReset (w : Nat) : Reg w := ⟨0, true⟩

/-- The result codes of STATUS.RESULT (R300). -/
inductive Code where
  | ok
  | already
  | ioFail
  | unknownKeyslot
  | keystoreError
  | tableNotInit
  | illegalCmd
  deriving DecidableEq, Repr

/-- STATUS.KSSTATE (R27, R28). -/
inductive KsState where
  | uninit
  | ready
  | failed
  deriving DecidableEq, Repr

/-- The key store (R34): KSC, KSX_RET[0..3] and KSX_DEV[0..3], in the order of KEYSLOT_ID (R35). -/
structure KeyStore where
  ksc : U128
  ret : Vector U128 4
  dev : Vector U128 4
  deriving DecidableEq, Repr

/-- Bytes by address in one canonical form: addresses strictly rising, no byte listed that an unlisted
address reads as. -/
abbrev Memory := List Host.Cell

/-- The host's image (R60): IMG[0 .. len - 1]. -/
structure Image where
  len : Nat
  cells : Memory
  deriving DecidableEq, Repr

/-- The image port (R70 to R72, R313): the image, the host's answers already drawn for the next
accesses, and how many free values have been taken. -/
structure Port where
  image : Image
  answers : List PortAnswer
  draws : Nat
  deriving DecidableEq, Repr

/-- One action of the host, or of the power supply (R100, R61, R340, R341). -/
inductive HostAction where
  /-- `WR n, v`: RegWrite (R23); a write to CMD issues a command (R90). -/
  | regWrite (n : U8) (v : U128)
  /-- `RD n`: RegRead (R24). -/
  | regRead (n : U8)
  /-- `POKE off, bytes` (R100, R61). -/
  | poke (off : Nat) (bytes : List U8)
  /-- `PEEK off, n` (R100, R61). -/
  | peek (off n : Nat)
  /-- The host takes another image, of the given bytes (R61, R314; assumption 13). -/
  | openImage (bytes : List U8)
  /-- Power-on reset between two actions (R340). -/
  | powerOnReset
  /-- Power-on reset while the command of word `w` executes (R341); `torn` are the draws for the bytes
  of its write range, first byte first, a byte it does not reach keeping its old value. -/
  | resetDuring (w : U32) (torn : List U8)
  deriving DecidableEq, Repr

/-- What the host's last read brought back (R24, R100). -/
inductive HostData where
  | value (v : U128)
  | bytes (bs : List U8)
  deriving DecidableEq, Repr

/-- The whole machine. -/
structure State where
  -- HIF registers (R21)
  gamecode : Reg 32
  blkA : Reg 32
  blkB : Reg 32
  w0 : Reg 32
  w1 : Reg 32
  w2 : Reg 32
  regOff : Reg 64
  regLen : Reg 64
  method : Reg 8
  ctrId : Reg 64
  keyX : Reg 128
  keyY : Reg 128
  kn : Reg 128
  ctr : Reg 128
  kstream : Reg 128
  /-- KSTAGE0..8 (R21, R120); which are written is `kstageWr`. -/
  kstage : Vector U128 9
  /-- KSTAGE_WR (R36). -/
  kstageWr : BitVec 9
  -- STATUS (R27)
  result : Code
  ksState : KsState
  ktValid : Bool
  saDec : Bool
  busy : Bool
  -- internal state (R31, R34)
  table : Table
  store : KeyStore
  /-- SEED, TAG, CTR_LAYOUT and METHOD_MAP (R10): never written. -/
  params : Params
  /-- The image and its port (R60, R70 to R72): the host's. -/
  port : Port
  /-- The host's actions still to come (R4, R30). -/
  pending : List HostAction
  /-- The index of the host action (R30). -/
  pc : Nat
  /-- What the host's last read brought back. -/
  returned : Option HostData
  deriving DecidableEq, Repr

/-- Power-on reset (R41, R340), with the host's side of assumptions 9 and 10: no image byte, no answer
drawn, no action pending. -/
def State.reset : State where
  gamecode := .atReset 32
  blkA := .atReset 32
  blkB := .atReset 32
  w0 := .atReset 32
  w1 := .atReset 32
  w2 := .atReset 32
  regOff := .atReset 64
  regLen := .atReset 64
  method := .atReset 8
  ctrId := .atReset 64
  keyX := .atReset 128
  keyY := .atReset 128
  kn := .atReset 128
  ctr := .atReset 128
  kstream := .atReset 128
  kstage := .replicate 9 0
  kstageWr := 0
  result := .ok
  ksState := .uninit
  ktValid := false
  saDec := false
  busy := false
  table := .replicate 1042 0
  store := ⟨0, .replicate 4 0, .replicate 4 0⟩
  params := Config.params
  port := ⟨⟨0, []⟩, [], 0⟩
  pending := []
  pc := 0
  returned := none

/-- Why a step stops with a fault. No command raises one: CORE has no traps (R308). -/
inductive Fault where
  /-- A host PEEK or POKE of bytes outside IMG[0 .. L - 1], which do not exist (R60). Raised by
  `hostAction`. Safe: the spec gives such an access no effect (assumption 12). -/
  | imageAddress
  /-- The host offers an image of more than 2^64 bytes, which R10 does not admit. Raised by
  `hostAction`. Safe (assumption 13). -/
  | imageTooLong
  deriving DecidableEq, Repr

/-- Why a step is refused. -/
inductive Refusal where
  /-- A command with no meaning yet. Raised by an arm of `exec` only; no arm does. Safe. -/
  | notModelled (mnemonic : String)
  deriving DecidableEq, Repr

/-- What a step answers. -/
abbrev Result := Host.Outcome State Fault Refusal

end Sys2Proof.Machine
end

