-- ==== Sys2Proof/Machine/Feistel.lean ====
section
/-! DEFINITION. The Key-Table Unit's functions (41_nds_feistel.md, section 1): F, E, D, UpdateTable,
Init2, Init1 and the step of KT.ADVANCE. -/

namespace Sys2Proof.Machine

/-- T[i] (R31). Every index a rule uses lies in 0..1041 (R140). -/
def tableWord (t : Table) (i : Nat) : U32 := if h : i < 1042 then t[i] else 0

/-- T[i] <- v (R31). -/
def tableSet (t : Table) (i : Nat) (v : U32) : Table := t.setIfInBounds i v

/-- The lookup F(c) (R140). -/
def lookupF (t : Table) (c : U32) : U32 :=
  ((tableWord t (18 + (c.extractLsb' 24 8).toNat) + tableWord t (274 + (c.extractLsb' 16 8).toNat))
    ^^^ tableWord t (530 + (c.extractLsb' 8 8).toNat))
    + tableWord t (786 + (c.extractLsb' 0 8).toNat)

/-- One round of E and D with P-word `i` (R141, R142). -/
def feistelRound (t : Table) (x : U32 × U32) (i : Nat) : U32 × U32 :=
  let c := tableWord t i ^^^ x.1
  (x.2 ^^^ lookupF t c, c)

/-- The rounds with the P-words of a list, in its order. -/
def feistelRounds (t : Table) (is : List Nat) (x : U32 × U32) : U32 × U32 :=
  is.foldl (feistelRound t) x

/-- The P-words of E's rounds: 0 to 15 (R141). -/
def encryptOrder : List Nat := List.range 16

/-- The P-words of D's rounds: 17 down to 2 (R142). -/
def decryptOrder : List Nat := (List.range 16).map (17 - ·)

/-- E(x1, x2) (R141). -/
def blockE (t : Table) (x : U32 × U32) : U32 × U32 :=
  let r := feistelRounds t encryptOrder x
  (r.2 ^^^ tableWord t 17, r.1 ^^^ tableWord t 16)

/-- D(x1, x2) (R142). -/
def blockD (t : Table) (x : U32 × U32) : U32 × U32 :=
  let r := feistelRounds t decryptOrder x
  (r.2 ^^^ tableWord t 0, r.1 ^^^ tableWord t 1)

/-- The 4 bytes of U gathered for P-word j, cyclically modulo 8, the first one most significant
(R144, R67). -/
def gather (U : List U8) (j : Nat) : U32 :=
  byteAt U (4 * j % 8) ++ byteAt U ((4 * j + 1) % 8) ++ byteAt U ((4 * j + 2) % 8) ++ byteAt U ((4 * j + 3) % 8)

/-- UpdateTable's first loop: the XOR into the 18 P-words (R144). -/
def xorPhase (U : List U8) (t : Table) : Table :=
  (List.range 18).foldl (fun t j => tableSet t j (tableWord t j ^^^ gather U j)) t

/-- UpdateTable's second loop after its first `n` calls of E: the table as updated so far and the
accumulator (R144, R345). -/
def updateCalls (t : Table) : Nat → Table × (U32 × U32)
  | 0 => (t, (0, 0))
  | n + 1 =>
    let r := updateCalls t n
    let x := blockE r.1 r.2
    (tableSet (tableSet r.1 (2 * n) x.1) (2 * n + 1) x.2, x)

/-- UpdateTable(U) (R144): 521 calls of E. -/
def updateTable (U : List U8) (t : Table) : Table := (updateCalls (xorPhase U t) 521).1

/-- The key table with the working register (R16, R33). -/
structure Schedule where
  table : Table
  w0 : U32
  w1 : U32
  w2 : U32
  deriving DecidableEq, Repr

/-- The 12-byte table-update input (R66). -/
def serialiseW (w0 w1 w2 : U32) : List U8 := bytesLE32 w0 ++ bytesLE32 w1 ++ bytesLE32 w2

/-- Init2() (R145): the two chained encrypts, the second with the new W1, then the table update. -/
def init2 (k : Schedule) : Schedule :=
  let a := blockE k.table (k.w2, k.w1)
  let b := blockE k.table (a.2, k.w0)
  ⟨updateTable (serialiseW b.2 b.1 a.1) k.table, b.2, b.1, a.1⟩

/-- The schedule before Init1's first Init2 (R146). -/
def seeded (seed : Table) (gc : U32) : Schedule := ⟨seed, gc, gc >>> 1, gc <<< 1⟩

/-- Init1(gc) (R146): the level-2 table. -/
def init1 (seed : Table) (gc : U32) : Schedule := init2 (init2 (seeded seed gc))

/-- The mutation of the working register between the two levels (R149). -/
def advance (k : Schedule) : Schedule := { k with w1 := k.w1 <<< 1, w2 := k.w2 >>> 1 }

/-- The level-3 schedule of a level-2 one (R16, R182). -/
def primed (k : Schedule) : Schedule := init2 (advance k)

end Sys2Proof.Machine
end

