-- ==== Sys2Proof/Machine/Ops.lean ====
section
/-! DEFINITION. The named operations: the image's bytes (R60), MemRead and MemWrite with the port's
answers (R70 to R72), ending a command (R14, R301), and power-on reset (R340). -/

namespace Sys2Proof.Machine

/-! ### Bytes by address -/

/-- What an address below L reads as when it is not listed (assumption 9). -/
def Memory.unlisted : U8 := 0

/-- The byte at address `a`. -/
def Memory.read (a : Nat) : Memory → U8
  | [] => Memory.unlisted
  | (b, v) :: m => if b = a then v else Memory.read a m

/-- A cell in front of the rest, unless it says what an unlisted address reads as. -/
def Memory.cons (a : Nat) (v : U8) (m : Memory) : Memory :=
  if v = Memory.unlisted then m else (a, v) :: m

/-- Byte `v` written at address `a`, in canonical form again. -/
def Memory.write (a : Nat) (v : U8) : Memory → Memory
  | [] => Memory.cons a v []
  | (b, u) :: m =>
    if b < a then (b, u) :: Memory.write a v m
    else if b = a then Memory.cons a v m
    else Memory.cons a v ((b, u) :: m)

/-- The canonical form of a memory whose addresses start at `lo` and end before `len`. -/
def Memory.wfFrom (len : Nat) : Nat → Memory → Bool
  | _, [] => true
  | lo, (a, v) :: m =>
    decide (lo ≤ a) && decide (a < len) && v != Memory.unlisted && Memory.wfFrom len (a + 1) m

/-- The canonical form: addresses strictly rising and below `len`, no cell that says what an unlisted
address reads as. -/
def Memory.wf (len : Nat) (m : Memory) : Bool := Memory.wfFrom len 0 m

/-! ### The image -/

/-- An image of R60: canonical, and at most 2^ADDR_BITS bytes long. -/
def Image.wf (img : Image) : Bool :=
  decide (img.len ≤ 2 ^ Config.addrBits) && Memory.wf img.len img.cells

/-- IMG[a]. -/
def Image.byte (img : Image) (a : Nat) : U8 := Memory.read a img.cells

/-- IMG[a] <- v; an offset outside the image has no byte to write. -/
def Image.write (a : Nat) (v : U8) (img : Image) : Image :=
  if a < img.len then { img with cells := Memory.write a v img.cells } else img

/-- IMG[a .. a + n - 1]. -/
def Image.bytes (img : Image) (a n : Nat) : List U8 :=
  (List.range n).map fun i => img.byte (a + i)

/-- IMG[a + i] <- bs[i] for every byte of `bs`. -/
def Image.writeBytes (a : Nat) : List U8 → Image → Image
  | [], img => img
  | b :: bs, img => Image.writeBytes (a + 1) bs (img.write a b)

/-- The cells of a byte sequence that starts at address `a`. -/
def Memory.ofBytes (a : Nat) : List U8 → Memory
  | [] => []
  | b :: bs => Memory.cons a b (Memory.ofBytes (a + 1) bs)

/-- The image whose bytes are `bs`. -/
def Image.ofBytes (bs : List U8) : Image := ⟨bs.length, Memory.ofBytes 0 bs⟩

/-! ### The port -/

/-- How an access, or a sequence of them, ends: completed, or stopped at a bus error (R72). -/
inductive Access (α : Type) where
  | ok (v : α) (p : Port)
  | error (p : Port)
  deriving DecidableEq, Repr

/-- The port's answer to the next access: a draw (R72), the first one waiting, else a free value. -/
def Port.answer (p : Port) : PortAnswer × Port :=
  match p.answers with
  | a :: rest => (a, { p with answers := rest })
  | [] => (Config.portAnswer p.draws, { p with draws := p.draws + 1 })

/-- MemRead(a, n) (R70, R72). -/
def memRead (a n : Nat) (p : Port) : Access (List U8) :=
  match p.answer with
  | (.done, q) => .ok (q.image.bytes a n) q
  | (.error _, q) => .error q

/-- MemWrite(a, n, bs) with n the length of `bs` (R71); on a bus error each addressed byte holds a
draw (R72). -/
def memWrite (a : Nat) (bs : List U8) (p : Port) : Access Unit :=
  match p.answer with
  | (.done, q) => .ok () { q with image := q.image.writeBytes a bs }
  | (.error torn, q) => .error { q with image := q.image.writeBytes a (torn.take bs.length) }

/-! ### Ending a command -/

/-- STATUS.RESULT <- c and BUSY <- 0 (R301). -/
def State.withResult (c : Code) (s : State) : State := { s with result := c, busy := false }

/-- `raise <Code>` (R14, R301): the one way a command ends with an error. CORE has no trap entry (R308):
nothing is saved, no mode changes, and control goes nowhere. -/
def raise (c : Code) (s : State) : Result := .next (s.withResult c)

/-- `finish` (R14): the command ends with OK. The host's next action follows: there is no trap to
return from (R309). -/
def finish (s : State) : Result := .next (s.withResult .ok)

/-! ### Power-on reset -/

/-- Power-on reset (R340, R41): CORE's own state takes its reset values; the parameters, the image with
its port, and the host's actions stay. -/
def State.powerOn (s : State) : State :=
  { State.reset with
    params := s.params
    port := s.port
    pending := s.pending
    pc := s.pc
    returned := s.returned }

end Sys2Proof.Machine
end

