-- ==== Sys2Proof/Machine/Operands.lean ====
section
/-! DEFINITION. The operands of the commands: the HIF register numbers (R21), the SUB operand `tag`
(R93), the implicit operands read from named state (R94), and the values commands make of them:
Scramble (R210), CounterInit (R250), the keystream (R252), the secure-area block (R63, R64). -/

namespace Sys2Proof.Machine

/-! ### HIF registers -/

/-- The 26 assigned HIF registers (R21, R39). -/
inductive HifReg where
  | cmd
  | status
  | gamecode
  | blkA
  | blkB
  | w0
  | w1
  | w2
  | regOff
  | regLen
  | method
  | ctrId
  | keyX
  | keyY
  | kn
  | ctr
  | kstream
  | kstage (i : Fin 9)
  deriving DecidableEq, Repr

/-- Registers 0x00 to 0x0B, in order (R21). -/
def hifLow : List HifReg :=
  [.cmd, .status, .gamecode, .blkA, .blkB, .w0, .w1, .w2, .regOff, .regLen, .method, .ctrId]

/-- Registers 0x10 to 0x14, in order (R21). -/
def hifMid : List HifReg := [.keyX, .keyY, .kn, .ctr, .kstream]

/-- The register a number names; none for the reserved numbers (R21, R25). -/
def hifReg (n : U8) : Option HifReg :=
  if n.toNat < 0x10 then hifLow[n.toNat]?
  else if n.toNat < 0x18 then hifMid[n.toNat - 0x10]?
  else if h : n.toNat - 0x18 < 9 then some (.kstage ⟨n.toNat - 0x18, h⟩)
  else none

/-! ### Regions, keyslots, keys -/

/-- The sub-regions of an NCCH partition (R16). -/
inductive Region where
  | plain
  | exefs
  | romfs
  deriving DecidableEq, Repr

/-- The region of a `tag` operand; 3 is reserved (R93). -/
def regionOf (tag : BitVec 2) : Option Region :=
  if tag = 0 then some .plain
  else if tag = 1 then some .exefs
  else if tag = 2 then some .romfs
  else none

/-- TAG[tag] (R37). -/
def tagWord (p : Params) : Region → U64
  | .plain => p.tagPlain
  | .exefs => p.tagExefs
  | .romfs => p.tagRomfs

/-- CounterInit(tag) (R250): the high half is the first of the two words of the layout. -/
def counterInit (p : Params) (r : Region) (id : U64) : U128 :=
  match p.ctrLayout with
  | .tagHigh => tagWord p r ++ id
  | .idHigh => id ++ tagWord p r

/-- METHOD_MAP[method], none outside its domain (R211). -/
def methodSlot (map : List (U8 × Keyslot)) (method : U8) : Option Keyslot :=
  (map.find? fun e => e.1 == method).map (·.2)

/-- The keyslot number of a keyslot (R9). -/
def slotNumber : Keyslot → U8
  | .slot18 => 0x18
  | .slot1B => 0x1B
  | .slot25 => 0x25
  | .slot2C => 0x2C

/-- SlotIndex (R212): the index s with KEYSLOT_ID[s] = n. -/
def slotIndex : Keyslot → Fin 4
  | .slot18 => 0
  | .slot1B => 1
  | .slot25 => 2
  | .slot2C => 3

/-- KeyXOf(dev, s) (R122). -/
def keyXOf (st : KeyStore) (dev : Bool) (s : Fin 4) : U128 := if dev then st.dev[s] else st.ret[s]

/-- SelectKeyX for a method's keyslot (R212). -/
def selectKeyX (st : KeyStore) (dev : Bool) (k : Keyslot) : U128 := keyXOf st dev (slotIndex k)

/-- Scramble(X, Y, C) (R210). -/
def scramble (x y c : U128) : U128 := rotl128 ((rotl128 x 2 ^^^ y) + c) 87

/-- The nine staged values as the key store (R120, R121). -/
def stagedStore (k : Vector U128 9) : KeyStore :=
  ⟨k[0], #v[k[1], k[2], k[3], k[4]], #v[k[5], k[6], k[7], k[8]]⟩

/-! ### Counter mode -/

/-- KSB(c) under key KN (R252, R68). -/
def keystream (kn c : U128) : List U8 := aes128 (bytesBE128 kn) (bytesBE128 c)

/-- The counter's advance, a write of CTR (R251). -/
def nextCounter (c : Reg 128) : Reg 128 := .written (c.val + 1)

/-- REG_OFF + REG_LEN <= L, computed without wrap (R256). -/
def regionFits (s : State) : Bool := decide (s.regOff.val.toNat + s.regLen.val.toNat ≤ s.port.image.len)

/-! ### The key schedule held in State -/

/-- T and W as an operand (R145). -/
def State.schedule (s : State) : Schedule := ⟨s.table, s.w0.val, s.w1.val, s.w2.val⟩

/-- T and W written (R31, R22). -/
def State.setSchedule (k : Schedule) (s : State) : State :=
  { s with table := k.table, w0 := .written k.w0, w1 := .written k.w1, w2 := .written k.w2 }

/-- R186 after a late bus error of SA.DEC or SA.ENC: T and W become UNDEFINED, each a free value
(assumption 3), and KT_VALID <- 0. -/
def State.loseSchedule (s : State) : State :=
  { s with
    table := Config.freeTable s.port.draws
    w0 := ⟨Config.freeWord s.port.draws, true⟩
    w1 := ⟨Config.freeWord (s.port.draws + 1), true⟩
    w2 := ⟨Config.freeWord (s.port.draws + 2), true⟩
    ktValid := false
    port := { s.port with draws := s.port.draws + 3 } }

/-! ### The secure area -/

/-- SA_BASE (R9). -/
def saBase : Nat := 0x4000

/-- The offset of secure-area block k (R77). -/
def saBlockAt (k : Nat) : Nat := saBase + 8 * k

/-- A block of 8 bytes as (w0, w1) (R63). -/
def blockWords (B : List U8) : U32 × U32 := (le32 B 0, le32 B 4)

/-- The bytes of a block (w0, w1) (R63). -/
def wordsBlock (w : U32 × U32) : List U8 := bytesLE32 w.1 ++ bytesLE32 w.2

/-- A block-cipher function on a block's words: arg1 = w1 and arg2 = w0, and back (R64). -/
def onWords (f : U32 × U32 → U32 × U32) (w : U32 × U32) : U32 × U32 :=
  let x := f (w.2, w.1)
  (x.2, x.1)

/-- MARKER (R9). -/
def marker : U32 × U32 := (0xE7FFDEFF, 0xE7FFDEFF)

/-- ALT_MARKER (R9). -/
def altMarker : U32 × U32 := (0xD0D48B67, 0x39392F23)

/-- MAGIC (R9). -/
def magic : U32 × U32 := (0x72636E65, 0x6A624F79)

end Sys2Proof.Machine
end

