-- ==== Sys2Proof/Machine/Flags.lean ====
section
/-! DEFINITION. The STATUS word (R27), CORE's only flags (R29), and the verdict behind SA_DEC (R180). -/

namespace Sys2Proof.Machine

/-- The 4-bit result code (R300). -/
def Code.bits : Code → BitVec 4
  | .ok => 0
  | .already => 1
  | .ioFail => 2
  | .unknownKeyslot => 3
  | .keystoreError => 4
  | .tableNotInit => 5
  | .illegalCmd => 6

/-- The 2-bit KSSTATE (R27); 3 is never produced. -/
def KsState.bits : KsState → BitVec 2
  | .uninit => 0
  | .ready => 1
  | .failed => 2

/-- STATUS (R27): bits 31:9 read as 0, then BUSY, SA_DEC, KT_VALID, KSSTATE, RESULT. -/
def State.status (s : State) : U32 :=
  (0 : BitVec 23) ++ BitVec.ofBool s.busy ++ BitVec.ofBool s.saDec ++ BitVec.ofBool s.ktValid ++
    s.ksState.bits ++ s.result.bits

/-- IsDec(w0, w1) (R180). -/
def isDec (w : U32 × U32) : Bool := w == marker || w == altMarker

/-- KSTAGE_WR with every bit set (R121). -/
def allStaged : BitVec 9 := 0x1FF

/-- KSTAGE_WR after a write of KSTAGEi (R26, R36). -/
def markStaged (i : Fin 9) (m : BitVec 9) : BitVec 9 := m ||| (1 <<< i.val)

end Sys2Proof.Machine
end

