-- ==== Sys2Proof/Machine/CounterMode.lean ====
section
/-! DEFINITION. The Counter-mode Unit's commands (44_aes_ctr.md, section 3). -/

namespace Sys2Proof.Machine

/-- Data XOR the first bytes of the keystream block (R69, R255). -/
def xorBytes (B S : List U8) : List U8 := List.zipWith (· ^^^ ·) B S

/-- CtrXform for `n` more blocks of the `len` bytes at `a` (R255): the counter it leaves, and how it
ends. A block that meets a bus error does not advance the counter (R256). -/
def ctrRegion (kn : U128) : Nat → Nat → Nat → Reg 128 → Port → Reg 128 × Access Unit
  | 0, _, _, c, p => (c, .ok () p)
  | n + 1, a, len, c, p =>
    match memRead a (min 16 len) p with
    | .error q => (c, .error q)
    | .ok B q =>
      match memWrite a (xorBytes B (keystream kn c.val)) q with
      | .error q' => (c, .error q')
      | .ok _ q' => ctrRegion kn n (a + 16) (len - 16) (nextCounter c) q'

/-- The number of blocks of a region: ceil(len / 16) (R255). -/
def blockCount (len : Nat) : Nat := (len + 15) / 16

/-- CtrXform over the region of REG_OFF and REG_LEN with the state's KN and CTR, and the command's end
(R255, R256, R258). -/
def ctrTransform (s : State) : Result :=
  match ctrRegion s.kn.val (blockCount s.regLen.val.toNat) s.regOff.val.toNat s.regLen.val.toNat s.ctr s.port with
  | (c, .ok _ q) => finish { s with ctr := c, port := q }
  | (c, .error q) => raise .ioFail { s with ctr := c, port := q }

/-- CTR.INIT plain|exefs|romfs (R253); `tag = 3` is ILLEGAL_CMD. -/
def execCtrInit (tag : BitVec 2) (s : State) : Result :=
  match regionOf tag with
  | none => raise .illegalCmd s
  | some r => finish { s with ctr := .written (counterInit s.params r s.ctrId.val) }

/-- CTR.STEP (R254). -/
def execCtrStep (s : State) : Result :=
  finish { s with kstream := .written (be128 (keystream s.kn.val s.ctr.val)), ctr := nextCounter s.ctr }

/-- CTR.XFORM (R256). -/
def execCtrXform (s : State) : Result :=
  if regionFits s = false then raise .ioFail s else ctrTransform s

/-- PR.XFORM (R258); `dir` changes nothing (R259), and `tag = 3` is ILLEGAL_CMD (R96). -/
def execPrXform (tag : BitVec 2) (dev _dir : Bool) (s : State) : Result :=
  match regionOf tag with
  | none => raise .illegalCmd s
  | some r =>
    if s.ksState ≠ .ready then raise .keystoreError s
    else
      match methodSlot s.params.methodMap s.method.val with
      | none => raise .unknownKeyslot s
      | some k =>
        if regionFits s = false then raise .ioFail s
        else
          let x := selectKeyX s.store dev k
          ctrTransform
            { s with
              keyX := .written x
              kn := .written (scramble x s.keyY.val s.store.ksc)
              ctr := .written (counterInit s.params r s.ctrId.val) }

end Sys2Proof.Machine
end

