-- ==== Sys2Proof/Machine/KeyMaterial.lean ====
section
/-! DEFINITION. The Key Material Store commands (40_key_store.md): NOP, KS.INIT. -/

namespace Sys2Proof.Machine

/-- NOP (R123). -/
def execNop (s : State) : Result := finish s

/-- KS.INIT ok|fail (R121). -/
def execKsInit (ok : Bool) (s : State) : Result :=
  if s.ksState ≠ .uninit then finish s
  else if ok = false ∨ s.kstageWr ≠ allStaged then raise .keystoreError { s with ksState := .failed }
  else finish { s with store := stagedStore s.kstage, ksState := .ready }

end Sys2Proof.Machine
end

