-- ==== Sys2Proof/Machine/KeyScramble.lean ====
section
/-! DEFINITION. The Key-Scrambling Unit's commands (43_aes_key_scramble.md). -/

namespace Sys2Proof.Machine

/-- AES.KEYSEL retail|dev (R213). -/
def execAesKeysel (dev : Bool) (s : State) : Result :=
  if s.ksState ≠ .ready then raise .keystoreError s
  else
    match methodSlot s.params.methodMap s.method.val with
    | none => raise .unknownKeyslot s
    | some k => finish { s with keyX := .written (selectKeyX s.store dev k) }

/-- AES.SCRAMBLE (R214). -/
def execAesScramble (s : State) : Result :=
  if s.ksState ≠ .ready then raise .keystoreError s
  else finish { s with kn := .written (scramble s.keyX.val s.keyY.val s.store.ksc) }

end Sys2Proof.Machine
end

