-- ==== Sys2Proof/Machine/KeyTable.lean ====
section
/-! DEFINITION. The Key-Table Unit's commands (41_nds_feistel.md, section 2). -/

namespace Sys2Proof.Machine

/-- KT.INIT1 (R146). -/
def execKtInit1 (s : State) : Result :=
  finish { s.setSchedule (init1 s.params.seed s.gamecode.val) with ktValid := true }

/-- KT.INIT2 (R147). -/
def execKtInit2 (s : State) : Result :=
  if s.ktValid = false then raise .tableNotInit s
  else finish (s.setSchedule (init2 s.schedule))

/-- KT.UPDATE (R148). -/
def execKtUpdate (s : State) : Result :=
  if s.ktValid = false then raise .tableNotInit s
  else finish { s with table := updateTable (serialiseW s.w0.val s.w1.val s.w2.val) s.table }

/-- KT.ADVANCE (R149): W0 and T are not changed. -/
def execKtAdvance (s : State) : Result :=
  if s.ktValid = false then raise .tableNotInit s
  else finish { s with w1 := .written (s.w1.val <<< 1), w2 := .written (s.w2.val >>> 1) }

/-- A block-cipher function in place on (BLK_A, BLK_B) (R150, R151). -/
def blockCommand (f : Table → U32 × U32 → U32 × U32) (s : State) : Result :=
  if s.ktValid = false then raise .tableNotInit s
  else
    let x := f s.table (s.blkA.val, s.blkB.val)
    finish { s with blkA := .written x.1, blkB := .written x.2 }

/-- BLK.ENC (R150). -/
def execBlkEnc (s : State) : Result := blockCommand blockE s

/-- BLK.DEC (R151). -/
def execBlkDec (s : State) : Result := blockCommand blockD s

end Sys2Proof.Machine
end

