-- ==== Sys2Proof/Machine/SecureArea.lean ====
section
/-! DEFINITION. The Secure-Area Sequencer's commands (42_nds_secure_area.md). -/

namespace Sys2Proof.Machine

/-- One 8-byte block read, transformed and written back in place (R73, R76, R63). -/
def saBlock (f : U32 × U32 → U32 × U32) (k : Nat) (p : Port) : Access Unit :=
  match memRead (saBlockAt k) 8 p with
  | .error q => .error q
  | .ok B q => memWrite (saBlockAt k) (wordsBlock (f (blockWords B))) q

/-- The blocks of a list, in its order, each transformed in place; stopped by the first bus error. -/
def saBlocks (f : U32 × U32 → U32 × U32) : List Nat → Port → Access Unit
  | [], p => .ok () p
  | k :: ks, p =>
    match saBlock f k p with
    | .error q => .error q
    | .ok _ q => saBlocks f ks q

/-- Blocks 1 to 255 (R77). -/
def bulkBlocks : List Nat := List.range' 1 255

/-- Block 0 of SA.DEC (R182): decrypted under level 2, then the result under level 3, MAGIC replaced by
MARKER. -/
def decryptHead (l2 l3 : Table) (w : U32 × U32) : U32 × U32 :=
  let p := onWords (blockD l3) (onWords (blockD l2) w)
  if p = magic then marker else p

/-- Block 0 of SA.ENC (R184): MARKER replaced by MAGIC, encrypted under level 3, then the result under
level 2. -/
def encryptHead (l2 l3 : Table) (w : U32 × U32) : U32 × U32 :=
  onWords (blockE l2) (onWords (blockE l3) (if w = marker then magic else w))

/-- The accesses of SA.DEC after its block-0 peek (R183): block 0 written, then the bulk. -/
def decryptArea (l2 l3 : Table) (w : U32 × U32) (p : Port) : Access Unit :=
  match memWrite saBase (wordsBlock (decryptHead l2 l3 w)) p with
  | .error q => .error q
  | .ok _ q => saBlocks (onWords (blockD l3)) bulkBlocks q

/-- The accesses of SA.ENC after its block-0 peek (R185): the bulk, then block 0 read again and written. -/
def encryptArea (l2 l3 : Table) (p : Port) : Access Unit :=
  match saBlocks (onWords (blockE l3)) bulkBlocks p with
  | .error q => .error q
  | .ok _ q => saBlock (encryptHead l2 l3) 0 q

/-- SA.XFORM up to its verdict, common to both directions (R182, R184, R186): the bounds check, the
block-0 peek, SA_DEC, and the ALREADY exit when the area is in the state asked for. -/
def saEnter (already : Bool) (s : State) (go : U32 × U32 → State → Result) : Result :=
  if s.port.image.len < 0x4800 then raise .ioFail s
  else
    match memRead saBase 8 s.port with
    | .error q => raise .ioFail { s with port := q }
    | .ok B q =>
      let t := { s with port := q, saDec := isDec (blockWords B) }
      if t.saDec = already then raise .already t else go (blockWords B) t

/-- The end of SA.XFORM: done with the schedule left in T and W (R182, R184), or stopped by a late bus
error (R186). -/
def saLeave (k : Schedule) (s : State) : Access Unit → Result
  | .error q => raise .ioFail { s with port := q }.loseSchedule
  | .ok _ q => finish { { s with port := q }.setSchedule k with ktValid := true }

/-- SA.DETECT (R181). -/
def execSaDetect (s : State) : Result :=
  if s.port.image.len < 0x4008 then raise .ioFail s
  else
    match memRead saBase 8 s.port with
    | .error q => raise .ioFail { s with port := q }
    | .ok B q => finish { s with port := q, saDec := isDec (blockWords B) }

/-- SA.DEC (R182): T and W hold level 3 afterwards. -/
def execSaDec (s : State) : Result :=
  saEnter true s fun w t =>
    let k2 := init1 t.params.seed t.gamecode.val
    let k3 := primed k2
    saLeave k3 t (decryptArea k2.table k3.table w t.port)

/-- SA.ENC (R184): T and W hold level 2 afterwards, Init1 being run again for the last encrypt. -/
def execSaEnc (s : State) : Result :=
  saEnter false s fun _ t =>
    let k2 := init1 t.params.seed t.gamecode.val
    let k3 := primed k2
    saLeave k2 t (encryptArea k2.table k3.table t.port)

end Sys2Proof.Machine
end

