-- ==== Sys2Proof/Machine/Dispatch.lean ====
section
/-! DEFINITION. The meaning of every command: one arm per constructor of Instr. -/

namespace Sys2Proof.Machine

/-- The command's own effect, once issued (R95). -/
def exec (i : Instr) (s : State) : Host.Outcome State Fault Refusal :=
  match i with
  | .nop => Sys2Proof.Machine.execNop s
  | .ksInit ok => Sys2Proof.Machine.execKsInit ok s
  | .ktInit1 => Sys2Proof.Machine.execKtInit1 s
  | .ktInit2 => Sys2Proof.Machine.execKtInit2 s
  | .ktUpdate => Sys2Proof.Machine.execKtUpdate s
  | .ktAdvance => Sys2Proof.Machine.execKtAdvance s
  | .blkEnc => Sys2Proof.Machine.execBlkEnc s
  | .blkDec => Sys2Proof.Machine.execBlkDec s
  | .saDetect => Sys2Proof.Machine.execSaDetect s
  | .saDec => Sys2Proof.Machine.execSaDec s
  | .saEnc => Sys2Proof.Machine.execSaEnc s
  | .aesKeysel dev => Sys2Proof.Machine.execAesKeysel dev s
  | .aesScramble => Sys2Proof.Machine.execAesScramble s
  | .ctrInit tag => Sys2Proof.Machine.execCtrInit tag s
  | .ctrStep => Sys2Proof.Machine.execCtrStep s
  | .ctrXform => Sys2Proof.Machine.execCtrXform s
  | .prXform tag dev dir => Sys2Proof.Machine.execPrXform tag dev dir s

end Sys2Proof.Machine
end

