-- ==== Sys2Proof/Machine/Hif.lean ====
section
/-! DEFINITION. The host interface: the register file (R21 to R26), issuing a command (R90, R75), and
the host's and the power supply's other actions (R100, R61, R340, R341). -/

namespace Sys2Proof.Machine

/-! ### Commands -/

/-- A word written to CMD (R90, R95): BUSY is 1 while the command executes (R75); a word no row matches
raises ILLEGAL_CMD (R96). -/
def issue (w : U32) (s : State) : Result :=
  match decode w with
  | .ok i => exec i { s with busy := true }
  | .error _ => raise .illegalCmd { s with busy := true }

/-! ### Registers -/

/-- RegWrite to a register other than CMD, with the value truncated to its width (R23), KSTAGE only
while UNINIT (R26); STATUS and KSTREAM ignore it. -/
def writeReg (r : HifReg) (v : U128) (s : State) : State :=
  match r with
  | .cmd => s
  | .status => s
  | .gamecode => { s with gamecode := .written (v.setWidth 32) }
  | .blkA => { s with blkA := .written (v.setWidth 32) }
  | .blkB => { s with blkB := .written (v.setWidth 32) }
  | .w0 => { s with w0 := .written (v.setWidth 32) }
  | .w1 => { s with w1 := .written (v.setWidth 32) }
  | .w2 => { s with w2 := .written (v.setWidth 32) }
  | .regOff => { s with regOff := .written (v.setWidth 64) }
  | .regLen => { s with regLen := .written (v.setWidth 64) }
  | .method => { s with method := .written (v.setWidth 8) }
  | .ctrId => { s with ctrId := .written (v.setWidth 64) }
  | .keyX => { s with keyX := .written v }
  | .keyY => { s with keyY := .written v }
  | .kn => { s with kn := .written v }
  | .ctr => { s with ctr := .written v }
  | .kstream => s
  | .kstage i =>
    if s.ksState = .uninit then
      { s with kstage := s.kstage.set i v, kstageWr := markStaged i s.kstageWr }
    else s

/-- RegRead (R24): the contents zero-extended; CMD and KSTAGE read 0. -/
def readReg (r : HifReg) (s : State) : U128 :=
  match r with
  | .cmd => 0
  | .status => s.status.setWidth 128
  | .gamecode => s.gamecode.val.setWidth 128
  | .blkA => s.blkA.val.setWidth 128
  | .blkB => s.blkB.val.setWidth 128
  | .w0 => s.w0.val.setWidth 128
  | .w1 => s.w1.val.setWidth 128
  | .w2 => s.w2.val.setWidth 128
  | .regOff => s.regOff.val.setWidth 128
  | .regLen => s.regLen.val.setWidth 128
  | .method => s.method.val.setWidth 128
  | .ctrId => s.ctrId.val.setWidth 128
  | .keyX => s.keyX.val
  | .keyY => s.keyY.val
  | .kn => s.kn.val
  | .ctr => s.ctr.val
  | .kstream => s.kstream.val
  | .kstage _ => 0

/-- A host register write by number (R23, R90); a reserved number has no effect (R25). -/
def hostWrite (n : U8) (v : U128) (s : State) : Result :=
  match hifReg n with
  | none => .next s
  | some .cmd => issue (v.setWidth 32) s
  | some r => .next (writeReg r v s)

/-- What a host register read by number brings back (R24); a reserved number reads 0 (R25). -/
def hostRead (n : U8) (s : State) : U128 :=
  match hifReg n with
  | none => 0
  | some r => readReg r s

/-! ### Image and reset -/

/-- The image bytes a command could have written, as their first offset and how many they are (R341);
none when its bounds check keeps it from the image. -/
def writeRange (i : Instr) (s : State) : Option (Nat × Nat) :=
  match i with
  | .nop => none
  | .ksInit _ => none
  | .ktInit1 => none
  | .ktInit2 => none
  | .ktUpdate => none
  | .ktAdvance => none
  | .blkEnc => none
  | .blkDec => none
  | .saDetect => none
  | .saDec => if s.port.image.len < 0x4800 then none else some (saBase, 0x800)
  | .saEnc => if s.port.image.len < 0x4800 then none else some (saBase, 0x800)
  | .aesKeysel _ => none
  | .aesScramble => none
  | .ctrInit _ => none
  | .ctrStep => none
  | .ctrXform => if regionFits s then some (s.regOff.val.toNat, s.regLen.val.toNat) else none
  | .prXform _ _ _ => if regionFits s then some (s.regOff.val.toNat, s.regLen.val.toNat) else none

/-- The image after a reset in the middle of the command of word `w`: each byte of its write range
holds a draw (R341). -/
def tornImage (w : U32) (torn : List U8) (s : State) : Image :=
  match decode w with
  | .error _ => s.port.image
  | .ok i =>
    match writeRange i s with
    | none => s.port.image
    | some (a, n) => s.port.image.writeBytes a (torn.take n)

/-- One action of the host or of the power supply. -/
def hostAction (a : HostAction) (s : State) : Result :=
  match a with
  | .regWrite n v => hostWrite n v s
  | .regRead n => .next { s with returned := some (.value (hostRead n s)) }
  | .poke off bs =>
    if off + bs.length ≤ s.port.image.len then
      .next { s with port := { s.port with image := s.port.image.writeBytes off bs } }
    else .fault .imageAddress
  | .peek off n =>
    if off + n ≤ s.port.image.len then .next { s with returned := some (.bytes (s.port.image.bytes off n)) }
    else .fault .imageAddress
  | .openImage bs =>
    if bs.length ≤ 2 ^ Config.addrBits then .next { s with port := { s.port with image := Image.ofBytes bs } }
    else .fault .imageTooLong
  | .powerOnReset => .next s.powerOn
  | .resetDuring w torn =>
    .next { s.powerOn with port := { s.port with image := tornImage w torn s } }

/-- The host's next action taken from those pending, its index advanced by one (R30). -/
def State.takeAction (rest : List HostAction) (s : State) : State := { s with pending := rest, pc := s.pc + 1 }

/-- The action that issues the command of word `w` (R90). -/
def issueAction (w : U32) : HostAction := .regWrite 0x00 (w.setWidth 128)

end Sys2Proof.Machine
end

