-- ==== Sys2Proof/Machine/Step.lean ====
section
/-! DEFINITION. One step: the host's next action (R4, R30), or waiting for one (R340). -/

namespace Sys2Proof.Machine

/-- One step of the machine. -/
def step (s : State) : Host.Outcome State Fault Refusal :=
  match s.pending with
  | [] => .next s
  | a :: rest => hostAction a (s.takeAction rest)

/-- `s` with a write to CMD of the command whose bits are `w` as the host's next action (assumption 10). -/
def State.withFetchWord (s : State) (nbits w : Nat) : State :=
  { s with pending := issueAction (BitVec.ofNat 32 (w % 2 ^ nbits)) :: s.pending }

end Sys2Proof.Machine
end

