-- ==== Sys2Proof/Safety.lean ====
section
/-! DEFINITION. What counts as a good state and a safe command, in the terms claims use: the invariant
of every state at a command boundary, the results each command may end with (R304), the reads of
UNDEFINED content that R306 names, and the state with its UNDEFINED content left out (R15). -/

namespace Sys2Proof.Machine

/-! ### The invariant -/

/-- W0, W1 and W2 all hold something (R33). -/
def State.wDefined (s : State) : Bool := !s.w0.undef && !s.w1.undef && !s.w2.undef

/-- Every state at a command boundary: the image is canonical and admitted (R10, R60), BUSY is 0 (R27,
R75), and while KT_VALID = 1 no word of W is UNDEFINED (R33). -/
def State.inv (s : State) : Bool :=
  s.port.image.wf && !s.busy && (!s.ktValid || s.wDefined)

/-! ### Results -/

/-- The results a command may end with, in the order of R304; `ILLEGAL_CMD` is not repeated there. -/
def commandResults : Instr → List Code
  | .nop => [.ok]
  | .ksInit _ => [.keystoreError, .ok]
  | .ktInit1 => [.ok]
  | .ktInit2 => [.tableNotInit, .ok]
  | .ktUpdate => [.tableNotInit, .ok]
  | .ktAdvance => [.tableNotInit, .ok]
  | .blkEnc => [.tableNotInit, .ok]
  | .blkDec => [.tableNotInit, .ok]
  | .saDetect => [.ioFail, .ok]
  | .saDec => [.ioFail, .already, .ok]
  | .saEnc => [.ioFail, .already, .ok]
  | .aesKeysel _ => [.keystoreError, .unknownKeyslot, .ok]
  | .aesScramble => [.keystoreError, .ok]
  | .ctrInit _ => [.ok]
  | .ctrStep => [.ok]
  | .ctrXform => [.ioFail, .ok]
  | .prXform _ _ _ => [.keystoreError, .unknownKeyslot, .ioFail, .ok]

/-! ### Encodings -/

/-- The OPC values of R97. -/
def listedOpcodes : List U8 :=
  [0x00, 0x01, 0x10, 0x11, 0x12, 0x13, 0x14, 0x15, 0x20, 0x21, 0x30, 0x31, 0x40, 0x41, 0x42, 0x43]

/-- The SUB bits R93 assigns to an opcode's commands. -/
def assignedSub (opc : U8) : BitVec 4 :=
  if opc = 0x01 ∨ opc = 0x21 ∨ opc = 0x30 then 0x1
  else if opc = 0x40 then 0x3
  else if opc = 0x43 then 0xF
  else 0

/-! ### Multiplication in GF(2^8) (R240) -/

/-- The product of x and the number the top `n` bits of y make, from bit 7 down; of x and y for n = 8
(R240). -/
def gfMul (x y : U8) : Nat → U8
  | 0 => 0
  | n + 1 => xtime (gfMul x y n) ^^^ (if y.getLsbD (7 - n) then x else 0)

/-! ### UNDEFINED content -/

/-- SA.XFORM gets past its bounds check, its block-0 peek and its ALREADY exit, to Init1 (R182, R184). -/
def saReachesInit (already : Bool) (s : State) : Bool :=
  decide (0x4800 ≤ s.port.image.len) &&
    match memRead saBase 8 s.port with
    | .error _ => false
    | .ok B _ => isDec (blockWords B) != already

/-- The command reads an element that is UNDEFINED (R306). The key table and the key store are never
read while UNDEFINED (R33, R34), nor is a KSTAGE register (R121). W2 is no operand of KT.UPDATE's result
(R148). A region of at least one byte counts KN and CTR as read, whatever its port answers. -/
def readsUndefined (i : Instr) (s : State) : Bool :=
  match i with
  | .nop => false
  | .ksInit _ => false
  | .ktInit1 => s.gamecode.undef
  | .ktInit2 => s.ktValid && !s.wDefined
  | .ktUpdate => s.ktValid && (s.w0.undef || s.w1.undef)
  | .ktAdvance => s.ktValid && (s.w1.undef || s.w2.undef)
  | .blkEnc => s.ktValid && (s.blkA.undef || s.blkB.undef)
  | .blkDec => s.ktValid && (s.blkA.undef || s.blkB.undef)
  | .saDetect => false
  | .saDec => saReachesInit true s && s.gamecode.undef
  | .saEnc => saReachesInit false s && s.gamecode.undef
  | .aesKeysel _ => s.ksState == .ready && s.method.undef
  | .aesScramble => s.ksState == .ready && (s.keyX.undef || s.keyY.undef)
  | .ctrInit tag => (regionOf tag).isSome && s.ctrId.undef
  | .ctrStep => s.kn.undef || s.ctr.undef
  | .ctrXform =>
    s.regOff.undef || s.regLen.undef ||
      (regionFits s && s.regLen.val != 0 && (s.kn.undef || s.ctr.undef))
  | .prXform tag _ _ =>
    (regionOf tag).isSome && s.ksState == .ready &&
      (s.method.undef ||
        ((methodSlot s.params.methodMap s.method.val).isSome &&
          (s.regOff.undef || s.regLen.undef || (regionFits s && (s.keyY.undef || s.ctrId.undef)))))

/-- A register with its content left out where it is UNDEFINED. -/
def Reg.blank {w : Nat} (r : Reg w) : Reg w := if r.undef then .atReset w else r

/-- The staging registers with the unwritten ones left out (R36). -/
def blankStage (wr : BitVec 9) (k : Vector U128 9) : Vector U128 9 :=
  .ofFn fun i => if wr.getLsbD i.val then k[i] else 0

/-- The state with every UNDEFINED content left out: two states with the same one agree on everything
the spec gives a value (R15, R33, R34, R36). -/
def State.blank (s : State) : State :=
  { s with
    gamecode := s.gamecode.blank
    blkA := s.blkA.blank
    blkB := s.blkB.blank
    w0 := s.w0.blank
    w1 := s.w1.blank
    w2 := s.w2.blank
    regOff := s.regOff.blank
    regLen := s.regLen.blank
    method := s.method.blank
    ctrId := s.ctrId.blank
    keyX := s.keyX.blank
    keyY := s.keyY.blank
    kn := s.kn.blank
    ctr := s.ctr.blank
    kstream := s.kstream.blank
    kstage := blankStage s.kstageWr s.kstage
    table := if s.ktValid then s.table else State.reset.table
    store := if s.ksState = .ready then s.store else State.reset.store }

end Sys2Proof.Machine
end

