-- ==== Sys2Proof/Certificates/Slice0/Obligations.lean ====
section
/-! DEFINITION. What is claimed of the model: one definition per statement of OBLIGATIONS.json. -/

open Sys2Proof Sys2Proof.Machine

/-! ### Encoding -/

/-- R95, R97, R98: decoding is exactly the inverse of encoding. A word decodes to a command when, and only
when, it is the word of that command and the command is well-formed (its tag is not 3). -/
def Obligations.DecodeExactlyInvertsEncode : Prop :=
  ∀ (w : U32) (i : Instr), decode w = .ok i ↔ (i.wellFormed = true ∧ encode i = w)

/-- R96: a word is illegal exactly when RSV != 0, or OPC is unlisted, or a SUB bit R93 does not assign is 1,
or the tag of CTR.INIT or PR.XFORM is 3; executing it raises ILLEGAL_CMD and changes nothing else. -/
def Obligations.IllegalWordsAndTheirEffect : Prop :=
  ∀ w : U32,
    ((∃ r, decode w = .error r) ↔
      (w.extractLsb' 12 20 ≠ 0 ∨ w.extractLsb' 0 8 ∉ listedOpcodes ∨
        w.extractLsb' 8 4 &&& ~~~ assignedSub (w.extractLsb' 0 8) ≠ 0 ∨
        ((w.extractLsb' 0 8 = 0x40 ∨ w.extractLsb' 0 8 = 0x43) ∧ w.extractLsb' 8 2 = 3))) ∧
    ∀ (s : State) (rest : List HostAction) (r : Illegal), decode w = .error r →
      s.pending = issueAction w :: rest →
      step s = .next { s with pending := rest, pc := s.pc + 1, result := .illegalCmd, busy := false }

/-- R95: no two rows of the opcode map match the same word. -/
def Obligations.OpcodeRowsAreDisjoint : Prop :=
  opcodeMap.Pairwise fun r q => ∀ w : U32, ¬ (w &&& r.mask = r.pattern ∧ w &&& q.mask = q.pattern)

/-- The 21 rows of the decoding table of 95_test_vectors.md (V-DEC-1), each illegal word with the case of R96
that makes it illegal, and the word 0x00000014 of R97. -/
def Obligations.WordsOfTheDecodingTable : Prop :=
  decode 0x00000000 = .ok .nop ∧ decode 0x00000101 = .ok (.ksInit true) ∧ decode 0x00000001 = .ok (.ksInit false) ∧
  decode 0x00000201 = .error .unassignedSub ∧ decode 0x00000010 = .ok .ktInit1 ∧
  decode 0x00000114 = .error .unassignedSub ∧ decode 0x00000016 = .error .unlistedOpcode ∧
  decode 0x00000021 = .ok .saDec ∧ decode 0x00000121 = .ok .saEnc ∧ decode 0x00000221 = .error .unassignedSub ∧
  decode 0x00000130 = .ok (.aesKeysel true) ∧ decode 0x00000240 = .ok (.ctrInit 2) ∧
  decode 0x00000340 = .error .reservedTag ∧ decode 0x00000440 = .error .unassignedSub ∧
  decode 0x00000243 = .ok (.prXform 2 false false) ∧ decode 0x00000A43 = .ok (.prXform 2 false true) ∧
  decode 0x00000D43 = .ok (.prXform 1 true true) ∧ decode 0x00000743 = .error .reservedTag ∧
  decode 0x00001000 = .error .reservedBits ∧ decode 0x80000010 = .error .reservedBits ∧
  decode 0x000000FF = .error .unlistedOpcode ∧ decode 0x00000014 = .ok .blkEnc

/-! ### The machine -/

/-- R90, R75, R30: when the host's next action writes to CMD a word that decodes to a command, the step is
that command's effect, with BUSY set while it executes, the action taken from the pending ones and the action
index advanced by one. -/
def Obligations.StepRunsTheDecodedCommand : Prop :=
  ∀ (s : State) (v : U128) (rest : List HostAction) (i : Instr),
    s.pending = .regWrite 0x00 v :: rest → decode (v.setWidth 32) = .ok i →
    step s = exec i { s with pending := rest, pc := s.pc + 1, busy := true }

/-- R304 (and R305): every command, in every state, ends with a next state, BUSY 0 and one of the results R304
lists for it. That it does so also where it reads UNDEFINED content, for which R306 asks a model to fault, is
the model's choice (assumption 1). -/
def Obligations.CommandsEndWithAListedResult : Prop :=
  ∀ (i : Instr) (s : State), i.wellFormed = true →
    ∃ t, exec i s = .next t ∧ t.result ∈ commandResults i ∧ t.busy = false

/-- R60, R75, R33: every step keeps the invariant: a canonical image of at most 2^64 bytes, BUSY 0, and no
word of W UNDEFINED while KT_VALID = 1 (the mark of assumption 2); and the invariant holds right after reset
(whose empty image is the choice of assumption 9). -/
def Obligations.StepKeepsInvariant : Prop :=
  (∀ s t : State, s.inv = true → step s = .next t → t.inv = true) ∧ State.reset.inv = true

/-- R32, R37, R340: SEED, the tags, CTR_LAYOUT and METHOD_MAP are never written, not even by a reset. -/
def Obligations.ParametersAreNeverWritten : Prop :=
  ∀ s t : State, step s = .next t → t.params = s.params

/-- R28: only KS.INIT changes KSSTATE; the first KS.INIT makes it READY or FAILED; and once it is READY or FAILED
it keeps that value, and the store its contents, until the next power-on reset. -/
def Obligations.KeyStoreStateMovesOnce : Prop :=
  ∀ (s t : State) (a : HostAction) (rest : List HostAction),
    s.pending = a :: rest → step s = .next t → a ≠ .powerOnReset → (∀ w torn, a ≠ .resetDuring w torn) →
    (s.ksState ≠ .uninit → t.ksState = s.ksState ∧ t.store = s.store) ∧
    (t.ksState ≠ s.ksState → ∃ v ok, a = .regWrite 0x00 v ∧ decode (v.setWidth 32) = .ok (.ksInit ok)) ∧
    ∀ v ok, a = .regWrite 0x00 v → decode (v.setWidth 32) = .ok (.ksInit ok) → s.ksState = .uninit →
      t.ksState = .ready ∨ t.ksState = .failed

/-- R15, R306: a command that reads no UNDEFINED element does the same whatever UNDEFINED elements hold: two
states that agree on everything the spec gives a value are taken to two such states. So nothing such a
command does rests on the values assumption 1 gives the registers at reset. -/
def Obligations.UndefinedContentIsImmaterial : Prop :=
  ∀ (i : Instr) (s t : State), s.blank = t.blank → readsUndefined i s = false →
    ∃ s' t', exec i s = .next s' ∧ exec i t = .next t' ∧ s'.blank = t'.blank

/-- R60, R62: no command changes the image's length. A command that is not SA.DEC, SA.ENC, CTR.XFORM or
PR.XFORM changes no byte; those change none outside 0x4000..0x47FF, and none outside the region of REG_OFF and
REG_LEN; and the commands that do not reach the image leave its port alone. -/
def Obligations.ImageChangesOnlyInTheCommandsRange : Prop :=
  ∀ (i : Instr) (s t : State), exec i s = .next t →
    t.port.image.len = s.port.image.len ∧
    ((i = .saDec ∨ i = .saEnc) → ∀ x, x < 0x4000 ∨ 0x4800 ≤ x → t.port.image.byte x = s.port.image.byte x) ∧
    ((i = .ctrXform ∨ ∃ tag dev dir, i = .prXform tag dev dir) →
      ∀ x, x < s.regOff.val.toNat ∨ s.regOff.val.toNat + s.regLen.val.toNat ≤ x →
        t.port.image.byte x = s.port.image.byte x) ∧
    (i = .saDetect → t.port.image = s.port.image) ∧
    (i ≠ .saDetect → i ≠ .saDec → i ≠ .saEnc → i ≠ .ctrXform → (∀ tag dev dir, i ≠ .prXform tag dev dir) →
      t.port = s.port)

/-- R22: what the commands that reach the image leave unchanged, however they end: everything but the elements
named. -/
def Obligations.ImageCommandsLeaveTheRest : Prop :=
  (∀ s t : State, exec .saDetect s = .next t →
    t = { s with port := t.port, saDec := t.saDec, result := t.result, busy := false }) ∧
  (∀ s t : State, exec .saDec s = .next t ∨ exec .saEnc s = .next t →
    t = { s with
      port := t.port, table := t.table, w0 := t.w0, w1 := t.w1, w2 := t.w2, ktValid := t.ktValid
      saDec := t.saDec, result := t.result, busy := false }) ∧
  (∀ s t : State, exec .ctrXform s = .next t →
    t = { s with port := t.port, ctr := t.ctr, result := t.result, busy := false }) ∧
  (∀ (tag : BitVec 2) (dev dir : Bool) (s t : State), exec (.prXform tag dev dir) s = .next t →
    t = { s with
      port := t.port, keyX := t.keyX, kn := t.kn, ctr := t.ctr, result := t.result, busy := false })

/-- R301: ILLEGAL_CMD, UNKNOWN_KEYSLOT, TABLE_NOT_INIT and (but for KS.INIT, whose failing attempt R121 lets set
KSSTATE, assumption 16) KEYSTORE_ERROR change nothing but RESULT, and so does every command that reaches the
image while its range does not fit in it: the result is then IO_FAIL, unless an earlier check of PR.XFORM fails;
ALREADY changes nothing but RESULT and SA_DEC, the port's answers apart. At `exec` ILLEGAL_CMD comes from a
CTR.INIT or PR.XFORM with tag 3 only, which no word encodes (assumption 15). -/
def Obligations.CheckErrorsChangeOnlyTheResult : Prop :=
  ∀ (i : Instr) (s t : State), exec i s = .next t →
    ((t.result = .illegalCmd ∨ t.result = .unknownKeyslot ∨ t.result = .tableNotInit ∨
        (t.result = .keystoreError ∧ ∀ ok, i ≠ .ksInit ok)) →
      t = { s with result := t.result, busy := false }) ∧
    (((i = .saDetect ∧ s.port.image.len < 0x4008) ∨ ((i = .saDec ∨ i = .saEnc) ∧ s.port.image.len < 0x4800) ∨
        (i = .ctrXform ∧ s.port.image.len < s.regOff.val.toNat + s.regLen.val.toNat)) →
      t = { s with result := .ioFail, busy := false }) ∧
    ((∃ tag dev dir, i = .prXform tag dev dir) → s.port.image.len < s.regOff.val.toNat + s.regLen.val.toNat →
      t = { s with result := t.result, busy := false } ∧
        t.result ∈ [Code.illegalCmd, .keystoreError, .unknownKeyslot, .ioFail]) ∧
    (t.result = .already →
      t.port.image = s.port.image ∧
        t = { s with port := t.port, saDec := t.saDec, result := .already, busy := false })

/-! ### The host interface -/

/-- R340, R41: power-on reset makes STATUS and KSTAGE_WR 0 and marks every other register UNDEFINED (the mark of
assumption 2); the parameters and the image are left alone, the host's position advances. That the port's
answers and counter, the actions to come and what the last read brought back stay too is the model's choice
(assumption 20). -/
def Obligations.PowerOnResetsCore : Prop :=
  ∀ (s : State) (rest : List HostAction), s.pending = .powerOnReset :: rest →
    ∃ t, step s = .next t ∧ t.status = 0 ∧ t.kstageWr = 0 ∧ t.ksState = .uninit ∧ t.ktValid = false ∧
      t.gamecode.undef = true ∧ t.blkA.undef = true ∧ t.blkB.undef = true ∧ t.w0.undef = true ∧
      t.w1.undef = true ∧ t.w2.undef = true ∧ t.regOff.undef = true ∧ t.regLen.undef = true ∧
      t.method.undef = true ∧ t.ctrId.undef = true ∧ t.keyX.undef = true ∧ t.keyY.undef = true ∧
      t.kn.undef = true ∧ t.ctr.undef = true ∧ t.kstream.undef = true ∧
      t.params = s.params ∧ t.port = s.port ∧ t.pending = rest ∧ t.pc = s.pc + 1 ∧ t.returned = s.returned

/-- R341: a power-on reset in the middle of a command leaves CORE as any power-on reset does (with the contents
assumption 1 chooses, and the host's side as assumption 20 leaves it), the image's length as it was, the bytes
outside the command's write range as they were, and in it whatever was drawn: the i-th byte of SA.DEC's or
SA.ENC's range 0x4000..0x47FF, or of the region of CTR.XFORM or PR.XFORM, is the i-th draw. An illegal word has
no such range: the image is as it was. -/
def Obligations.ResetDuringACommand : Prop :=
  (∀ (s : State) (i : Instr) (torn : List U8) (rest : List HostAction), s.port.image.wf = true →
    i.wellFormed = true → s.pending = .resetDuring (encode i) torn :: rest →
    ∃ img, step s = .next { State.reset with
        params := s.params, pending := rest, pc := s.pc + 1, returned := s.returned
        port := { s.port with image := img } } ∧
      img.len = s.port.image.len ∧
      (∀ a n, writeRange i s = some (a, n) →
        (∀ x, x < a ∨ a + n ≤ x → img.byte x = s.port.image.byte x) ∧
        ∀ j, (h : j < torn.length) → j < n → img.byte (a + j) = torn[j]) ∧
      (writeRange i s = none → img = s.port.image) ∧
      ((i = .saDec ∨ i = .saEnc) → 0x4800 ≤ s.port.image.len → writeRange i s = some (0x4000, 0x800)) ∧
      ((i = .ctrXform ∨ ∃ tag dev dir, i = .prXform tag dev dir) →
        s.regOff.val.toNat + s.regLen.val.toNat ≤ s.port.image.len →
        writeRange i s = some (s.regOff.val.toNat, s.regLen.val.toNat))) ∧
  ∀ (s : State) (w : U32) (r : Illegal) (torn : List U8) (rest : List HostAction), decode w = .error r →
    s.pending = .resetDuring w torn :: rest →
    step s = .next { State.reset with
      params := s.params, pending := rest, pc := s.pc + 1, returned := s.returned, port := s.port }

/-- R23, R24, R100: RD puts what a host read of the register returns into `returned` and changes nothing else; WR
is the host write of the register; a WR of a writable and readable register of width N stores the value mod 2^N,
which a host read then returns zero-extended, and changes nothing else: no other register (KN does not follow
KEYX or KEYY, R346), no part of STATUS, no internal state, no image byte. -/
def Obligations.RegisterReadReturnsTheTruncatedWrite : Prop :=
  (∀ (s : State) (n : U8) (rest : List HostAction), s.pending = .regRead n :: rest →
    step s = .next { s with pending := rest, pc := s.pc + 1, returned := some (.value (hostRead n s)) }) ∧
  ∀ (s u : State) (n : U8) (v : U128) (rest : List HostAction), s.pending = .regWrite n v :: rest →
    u = { s with pending := rest, pc := s.pc + 1 } →
    step s = hostWrite n v u ∧
    (∀ width, (n, width) ∈ [((0x02 : U8), 32), (0x03, 32), (0x04, 32), (0x05, 32), (0x06, 32), (0x07, 32), (0x08, 64),
        (0x09, 64), (0x0A, 8), (0x0B, 64), (0x10, 128), (0x11, 128), (0x12, 128), (0x13, 128)] →
      ∃ t, step s = .next t ∧ (hostRead n t).toNat = v.toNat % 2 ^ width) ∧
    (n = 0x02 → step s = .next { u with gamecode := ⟨v.setWidth 32, false⟩ }) ∧
    (n = 0x03 → step s = .next { u with blkA := ⟨v.setWidth 32, false⟩ }) ∧
    (n = 0x04 → step s = .next { u with blkB := ⟨v.setWidth 32, false⟩ }) ∧
    (n = 0x05 → step s = .next { u with w0 := ⟨v.setWidth 32, false⟩ }) ∧
    (n = 0x06 → step s = .next { u with w1 := ⟨v.setWidth 32, false⟩ }) ∧
    (n = 0x07 → step s = .next { u with w2 := ⟨v.setWidth 32, false⟩ }) ∧
    (n = 0x08 → step s = .next { u with regOff := ⟨v.setWidth 64, false⟩ }) ∧
    (n = 0x09 → step s = .next { u with regLen := ⟨v.setWidth 64, false⟩ }) ∧
    (n = 0x0A → step s = .next { u with method := ⟨v.setWidth 8, false⟩ }) ∧
    (n = 0x0B → step s = .next { u with ctrId := ⟨v.setWidth 64, false⟩ }) ∧
    (n = 0x10 → step s = .next { u with keyX := ⟨v, false⟩ }) ∧
    (n = 0x11 → step s = .next { u with keyY := ⟨v, false⟩ }) ∧
    (n = 0x12 → step s = .next { u with kn := ⟨v, false⟩ }) ∧
    (n = 0x13 → step s = .next { u with ctr := ⟨v, false⟩ })

/-- R25: a host read of a reserved register number returns 0, and a host write to one has no effect. -/
def Obligations.ReservedRegisterNumbers : Prop :=
  ∀ (s : State) (n : U8) (v : U128),
    (0x0C ≤ n.toNat ∧ n.toNat ≤ 0x0F) ∨ (0x15 ≤ n.toNat ∧ n.toNat ≤ 0x17) ∨ 0x21 ≤ n.toNat →
    hostRead n s = 0 ∧ hostWrite n v s = .next s

/-- R23, R24: a host write to STATUS or KSTREAM has no effect, and a host read of CMD or of a KSTAGE register
returns 0. -/
def Obligations.ReadOnlyAndWriteOnlyRegisters : Prop :=
  ∀ (s : State) (v : U128),
    hostWrite 0x01 v s = .next s ∧ hostWrite 0x14 v s = .next s ∧ hostRead 0x00 s = 0 ∧
      ∀ n : U8, 0x18 ≤ n.toNat → n.toNat ≤ 0x20 → hostRead n s = 0

/-- R26: a host write to KSTAGEi while KSSTATE = UNINIT stores the value and sets KSTAGE_WR[i]; while KSSTATE is
not UNINIT it has no effect. -/
def Obligations.StagingWritesOnlyWhileUninit : Prop :=
  ∀ (s : State) (v : U128) (i : Fin 9),
    (s.ksState = .uninit → ∃ t, hostWrite (BitVec.ofNat 8 (0x18 + i.val)) v s = .next t ∧
      t.kstage[i] = v ∧ t.kstageWr.getLsbD i = true ∧
      (∀ j : Fin 9, j ≠ i → t.kstage[j] = s.kstage[j] ∧ t.kstageWr.getLsbD j = s.kstageWr.getLsbD j) ∧
      t = { s with kstage := t.kstage, kstageWr := t.kstageWr }) ∧
    (s.ksState ≠ .uninit → hostWrite (BitVec.ofNat 8 (0x18 + i.val)) v s = .next s)

/-- R27, R300: the fields of the STATUS word a host read of register 0x01 returns, and its reserved bits. -/
def Obligations.StatusWordFields : Prop :=
  ∀ s : State,
    (hostRead 0x01 s).toNat =
      (match s.result with
        | .ok => 0 | .already => 1 | .ioFail => 2 | .unknownKeyslot => 3 | .keystoreError => 4
        | .tableNotInit => 5 | .illegalCmd => 6) +
      16 * (match s.ksState with | .uninit => 0 | .ready => 1 | .failed => 2) +
      64 * s.ktValid.toNat + 128 * s.saDec.toNat + 256 * s.busy.toNat

/-- R100, R61: a POKE inside the image, then a PEEK of the same bytes, returns them, and the POKE leaves every other
byte and everything else alone; outside the image both are the model's fault (assumption 12). -/
def Obligations.PokeThenPeek : Prop :=
  ∀ (s : State) (off : Nat) (bs : List U8), s.port.image.wf = true →
    (off + bs.length ≤ s.port.image.len →
      ∃ t u, hostAction (.poke off bs) s = .next t ∧ hostAction (.peek off bs.length) t = .next u ∧
        u.returned = some (.bytes bs) ∧ t = { s with port := { s.port with image := t.port.image } } ∧
        t.port.image.len = s.port.image.len ∧
        ∀ x, x < off ∨ off + bs.length ≤ x → t.port.image.byte x = s.port.image.byte x) ∧
    (s.port.image.len < off + bs.length →
      hostAction (.poke off bs) s = .fault .imageAddress ∧
        hostAction (.peek off bs.length) s = .fault .imageAddress)

/-! ### Key Material Store -/

/-- R123: the word 0x00000000 is NOP, which sets RESULT to OK and changes nothing else. -/
def Obligations.NopOnlyClearsTheResult : Prop :=
  decode 0x00000000 = .ok .nop ∧ ∀ s : State, exec .nop s = .next { s with result := .ok, busy := false }

/-- R121, R120: the first KS.INIT with ok = 1 and all nine registers staged loads KSC from KSTAGE0, KSX_RET[i] from
KSTAGE(1+i), KSX_DEV[i] from KSTAGE(5+i), and makes KSSTATE READY; otherwise the first one makes it FAILED and
raises KEYSTORE_ERROR; a later one changes nothing but RESULT. -/
def Obligations.KsInitLoadsTheStoreOnce : Prop :=
  ∀ (s : State) (ok : Bool),
    (s.ksState ≠ .uninit → exec (.ksInit ok) s = .next { s with result := .ok, busy := false }) ∧
    (s.ksState = .uninit → ok = true → s.kstageWr = 0x1FF →
      ∃ t, exec (.ksInit ok) s = .next t ∧ t.store.ksc = s.kstage[0] ∧
        (∀ i : Fin 4, t.store.ret[i] = s.kstage[1 + i.val] ∧ t.store.dev[i] = s.kstage[5 + i.val]) ∧
        t = { s with store := t.store, ksState := .ready, result := .ok, busy := false }) ∧
    (s.ksState = .uninit → (ok = false ∨ s.kstageWr ≠ 0x1FF) →
      exec (.ksInit ok) s = .next { s with ksState := .failed, result := .keystoreError, busy := false })

/-! ### Key-Table Unit -/

/-- R140: F adds the plane-0 and plane-1 entries, XORs the plane-2 entry and adds the plane-3 entry, addressed by
the bytes of c from the most significant one down; every index lies in 18..1041. -/
def Obligations.LookupCombinesFourPlanes : Prop :=
  ∀ (t : Table) (c : U32),
    lookupF t c =
      ((t[18 + c.toNat / 0x1000000]'(by have := c.isLt; omega) +
          t[274 + c.toNat / 0x10000 % 0x100]'(by omega)) ^^^
        t[530 + c.toNat / 0x100 % 0x100]'(by omega)) +
        t[786 + c.toNat % 0x100]'(by omega)

/-- R141: E runs 16 rounds c = T[i] ^ a, a = b ^ F(c), b = c for i = 0 to 15, and returns (b ^ T[17], a ^ T[16]). -/
def Obligations.EncryptRunsSixteenRounds : Prop :=
  ∀ (t : Table) (x1 x2 : U32) (a b c : Nat → U32), a 0 = x1 → b 0 = x2 →
    (∀ i (h : i < 16), c i = t[i] ^^^ a i ∧ a (i + 1) = b i ^^^ lookupF t (c i) ∧ b (i + 1) = c i) →
    blockE t (x1, x2) = (b 16 ^^^ t[17], a 16 ^^^ t[16])

/-- R142: D runs 16 rounds with T[17] down to T[2], and returns (b ^ T[0], a ^ T[1]). Here round n, counted from 0,
uses T[17 - n]. -/
def Obligations.DecryptRunsSixteenRounds : Prop :=
  ∀ (t : Table) (x1 x2 : U32) (a b c : Nat → U32), a 0 = x1 → b 0 = x2 →
    (∀ n (h : n < 16), c n = t[17 - n] ^^^ a n ∧ a (n + 1) = b n ^^^ lookupF t (c n) ∧ b (n + 1) = c n) →
    blockD t (x1, x2) = (b 16 ^^^ t[0], a 16 ^^^ t[1])

/-- R143: for every table state and every block pair, D(E(x)) = x and E(D(x)) = x. -/
def Obligations.DecryptInvertsEncrypt : Prop :=
  ∀ (t : Table) (x : U32 × U32), blockD t (blockE t x) = x ∧ blockE t (blockD t x) = x

/-- R144, R67, R345: UpdateTable(U) XORs into P-word j the big-endian word of U[0..3] for even j and of U[4..7] for
odd j, then makes 521 calls of E, each on the table the earlier calls left, starting from (0, 0), and writes
the k-th result to T[2k] and T[2k+1]. -/
def Obligations.UpdateTableAsWritten : Prop :=
  ∀ (U : List U8) (t : Table) (T : Nat → Table) (x : Nat → U32 × U32),
    (∀ j (h : j < 1042), (T 0)[j] =
      if 18 ≤ j then t[j]
      else if j % 2 = 0 then t[j] ^^^ (byteAt U 0 ++ byteAt U 1 ++ byteAt U 2 ++ byteAt U 3)
      else t[j] ^^^ (byteAt U 4 ++ byteAt U 5 ++ byteAt U 6 ++ byteAt U 7)) →
    x 0 = (0, 0) →
    (∀ k, (hk : k < 521) → x (k + 1) = blockE (T k) (x k) ∧
      ∀ j (h : j < 1042), (T (k + 1))[j] =
        if j = 2 * k then (x (k + 1)).1 else if j = 2 * k + 1 then (x (k + 1)).2 else (T k)[j]) →
    updateTable U t = T 521

/-- R144, R148: only the first 8 of the 12 bytes of U are read, so writing W2 has no effect on KT.UPDATE's table. -/
def Obligations.UpdateIgnoresTheLastWord : Prop :=
  ∀ (s : State) (v : Reg 32), s.ktValid = true →
    ∃ t u, exec .ktUpdate s = .next t ∧ exec .ktUpdate { s with w2 := v } = .next u ∧ u.table = t.table

/-- R145: Init2 encrypts (W2, W1), then (W1, W0) with the new W1, then updates the table with the new words, each
serialised little-endian, W0 first. -/
def Obligations.InitTwoChainsTheEncrypts : Prop :=
  ∀ (t : Table) (w0 w1 w2 x2 x1 y1 y0 : U32),
    blockE t (w2, w1) = (x2, x1) → blockE t (x1, w0) = (y1, y0) →
    init2 ⟨t, w0, w1, w2⟩ = ⟨updateTable (bytesLE32 y0 ++ bytesLE32 y1 ++ bytesLE32 x2) t, y0, y1, x2⟩

/-- R146: KT.INIT1 copies SEED, sets W from the game code, runs Init2 twice, and sets KT_VALID; it always ends with
OK and changes nothing else. -/
def Obligations.KtInitOneDerivesTheTable : Prop :=
  ∀ (s : State) (k : Schedule),
    k = init2 (init2 ⟨s.params.seed, s.gamecode.val, s.gamecode.val >>> 1, s.gamecode.val <<< 1⟩) →
    exec .ktInit1 s = .next { s with
      table := k.table, w0 := ⟨k.w0, false⟩, w1 := ⟨k.w1, false⟩, w2 := ⟨k.w2, false⟩
      ktValid := true, result := .ok, busy := false }

/-- R147, R148, R149: with KT_VALID = 1, KT.INIT2 runs Init2 on T and W; KT.UPDATE runs UpdateTable on the
serialised W and leaves W alone; KT.ADVANCE doubles W1 and halves W2, unsigned, and leaves W0 and T alone. Each
ends with OK and changes nothing else. -/
def Obligations.KeyTableStepsResult : Prop :=
  ∀ (s : State) (k : Schedule), s.ktValid = true → k = init2 ⟨s.table, s.w0.val, s.w1.val, s.w2.val⟩ →
    exec .ktInit2 s = .next { s with
      table := k.table, w0 := ⟨k.w0, false⟩, w1 := ⟨k.w1, false⟩, w2 := ⟨k.w2, false⟩
      result := .ok, busy := false } ∧
    exec .ktUpdate s = .next { s with
      table := updateTable (bytesLE32 s.w0.val ++ bytesLE32 s.w1.val ++ bytesLE32 s.w2.val) s.table
      result := .ok, busy := false } ∧
    ∃ v1 v2 : U32, v1.toNat = 2 * s.w1.val.toNat % 2 ^ 32 ∧ v2.toNat = s.w2.val.toNat / 2 ∧
      exec .ktAdvance s = .next { s with w1 := ⟨v1, false⟩, w2 := ⟨v2, false⟩, result := .ok, busy := false }

/-- R33, R147 to R151: with KT_VALID = 0, KT.INIT2, KT.UPDATE, KT.ADVANCE, BLK.ENC and BLK.DEC raise TABLE_NOT_INIT
and change nothing else. -/
def Obligations.KeyTableCommandsNeedTheTable : Prop :=
  ∀ (s : State) (i : Instr), s.ktValid = false → i ∈ [.ktInit2, .ktUpdate, .ktAdvance, .blkEnc, .blkDec] →
    exec i s = .next { s with result := .tableNotInit, busy := false }

/-- R150, R151: with KT_VALID = 1, BLK.ENC and BLK.DEC replace (BLK_A, BLK_B) by E and by D of it; T, W and the rest
are not changed. -/
def Obligations.BlockCommandsResult : Prop :=
  ∀ (s : State) (a b : U32), s.ktValid = true →
    (blockE s.table (s.blkA.val, s.blkB.val) = (a, b) →
      exec .blkEnc s = .next { s with blkA := ⟨a, false⟩, blkB := ⟨b, false⟩, result := .ok, busy := false }) ∧
    (blockD s.table (s.blkA.val, s.blkB.val) = (a, b) →
      exec .blkDec s = .next { s with blkA := ⟨a, false⟩, blkB := ⟨b, false⟩, result := .ok, busy := false })

/-- R151: BLK.ENC followed by BLK.DEC restores BLK_A and BLK_B, and so does BLK.DEC followed by BLK.ENC. -/
def Obligations.BlockCommandsRoundTrip : Prop :=
  ∀ s : State, s.ktValid = true →
    (∃ t u, exec .blkEnc s = .next t ∧ exec .blkDec t = .next u ∧
      u.blkA.val = s.blkA.val ∧ u.blkB.val = s.blkB.val) ∧
    (∃ t u, exec .blkDec s = .next t ∧ exec .blkEnc t = .next u ∧
      u.blkA.val = s.blkA.val ∧ u.blkB.val = s.blkB.val)

/-! ### Secure-Area Sequencer -/

/-- R180: the verdict is 1 for MARKER and for ALT_MARKER, and 0 for every other pair. -/
def Obligations.DetectionPredicate : Prop :=
  ∀ w0 w1 : U32, isDec (w0, w1) = true ↔
    (w0 = 0xE7FFDEFF ∧ w1 = 0xE7FFDEFF) ∨ (w0 = 0xD0D48B67 ∧ w1 = 0x39392F23)

/-- R181: SA.DETECT with L >= 0x4008 and its one access completed sets SA_DEC to the verdict on the two
little-endian words at 0x4000, and changes nothing else (but that the port's answer is used up). -/
def Obligations.SaDetectReportsTheVerdict : Prop :=
  ∀ (s : State) (rest : List PortAnswer), 0x4008 ≤ s.port.image.len → s.port.answers = .done :: rest →
    exec .saDetect s = .next { s with
      port := { s.port with answers := rest }
      saDec := isDec (le32 (s.port.image.bytes 0x4000 8) 0, le32 (s.port.image.bytes 0x4000 8) 4)
      result := .ok, busy := false }

/-- R181, R182, R184, R186: an image too short raises IO_FAIL with no access and nothing else changed; a bus error
on the block-0 peek raises IO_FAIL with nothing else changed, SA_DEC included. -/
def Obligations.SecureAreaEarlyFailures : Prop :=
  ∀ (s : State) (i : Instr), i ∈ [.saDetect, .saDec, .saEnc] →
    (s.port.image.len < (if i = .saDetect then 0x4008 else 0x4800) →
      exec i s = .next { s with result := .ioFail, busy := false }) ∧
    ∀ (torn : List U8) (rest : List PortAnswer), (if i = .saDetect then 0x4008 else 0x4800) ≤ s.port.image.len →
      s.port.answers = .error torn :: rest →
      exec i s = .next { s with port := { s.port with answers := rest }, result := .ioFail, busy := false }

/-- R182, R184, R187 item 3: asked for the state the area is already in, SA.DEC and SA.ENC raise ALREADY after the one
access, with SA_DEC the verdict and nothing else changed. -/
def Obligations.SecureAreaAlreadyExit : Prop :=
  ∀ (s : State) (rest : List PortAnswer) (v : Bool), 0x4800 ≤ s.port.image.len → s.port.answers = .done :: rest →
    isDec (le32 (s.port.image.bytes 0x4000 8) 0, le32 (s.port.image.bytes 0x4000 8) 4) = v →
    exec (if v then .saDec else .saEnc) s = .next { s with
      port := { s.port with answers := rest }, saDec := v, result := .already, busy := false }

/-- R182, R183: SA.DEC of an area in the encrypted state, its 512 accesses completed: block 0 is decrypted under the
level-2 table and then, chained, under the level-3 table, MAGIC becoming MARKER; blocks 1 to 255 are decrypted
under level 3; the other bytes are unchanged; T and W hold level 3; KT_VALID = 1; SA_DEC is the verdict before.
A block's words are little-endian, with arg1 the word at +4 and arg2 the word at +0 (R63, R64). -/
def Obligations.SaDecDecryptsTheArea : Prop :=
  ∀ (s : State) (rest : List PortAnswer) (k2 k3 : Schedule) (words : Image → Nat → U32 × U32)
    (dec : Table → U32 × U32 → U32 × U32) (p : U32 × U32),
    (∀ img a, words img a = (le32 (img.bytes a 8) 0, le32 (img.bytes a 8) 4)) →
    (∀ t w, dec t w = ((blockD t (w.2, w.1)).2, (blockD t (w.2, w.1)).1)) →
    k2 = init1 s.params.seed s.gamecode.val → k3 = init2 ⟨k2.table, k2.w0, k2.w1 <<< 1, k2.w2 >>> 1⟩ →
    s.port.image.wf = true → 0x4800 ≤ s.port.image.len →
    s.port.answers = List.replicate 512 .done ++ rest → isDec (words s.port.image 0x4000) = false →
    p = dec k3.table (dec k2.table (words s.port.image 0x4000)) →
    ∃ img : Image,
      exec .saDec s = .next { s with
        port := { s.port with image := img, answers := rest }
        table := k3.table, w0 := ⟨k3.w0, false⟩, w1 := ⟨k3.w1, false⟩, w2 := ⟨k3.w2, false⟩
        ktValid := true, saDec := false, result := .ok, busy := false } ∧
      img.len = s.port.image.len ∧
      words img 0x4000 = (if p = (0x72636E65, 0x6A624F79) then (0xE7FFDEFF, 0xE7FFDEFF) else p) ∧
      (∀ k, 1 ≤ k → k ≤ 255 → words img (0x4000 + 8 * k) = dec k3.table (words s.port.image (0x4000 + 8 * k))) ∧
      ∀ x, x < 0x4000 ∨ 0x4800 ≤ x → img.byte x = s.port.image.byte x

/-- R184, R185: SA.ENC of an area in the decrypted state, its 513 accesses completed: blocks 1 to 255 are encrypted
under the level-3 table; block 0, MARKER becoming MAGIC, is encrypted under level 3 and then under level 2; the
other bytes are unchanged; T and W hold level 2; KT_VALID = 1; SA_DEC is the verdict before. -/
def Obligations.SaEncEncryptsTheArea : Prop :=
  ∀ (s : State) (rest : List PortAnswer) (k2 k3 : Schedule) (words : Image → Nat → U32 × U32)
    (enc : Table → U32 × U32 → U32 × U32) (p : U32 × U32),
    (∀ img a, words img a = (le32 (img.bytes a 8) 0, le32 (img.bytes a 8) 4)) →
    (∀ t w, enc t w = ((blockE t (w.2, w.1)).2, (blockE t (w.2, w.1)).1)) →
    k2 = init1 s.params.seed s.gamecode.val → k3 = init2 ⟨k2.table, k2.w0, k2.w1 <<< 1, k2.w2 >>> 1⟩ →
    s.port.image.wf = true → 0x4800 ≤ s.port.image.len →
    s.port.answers = List.replicate 513 .done ++ rest → isDec (words s.port.image 0x4000) = true →
    p = (if words s.port.image 0x4000 = (0xE7FFDEFF, 0xE7FFDEFF) then (0x72636E65, 0x6A624F79)
      else words s.port.image 0x4000) →
    ∃ img : Image,
      exec .saEnc s = .next { s with
        port := { s.port with image := img, answers := rest }
        table := k2.table, w0 := ⟨k2.w0, false⟩, w1 := ⟨k2.w1, false⟩, w2 := ⟨k2.w2, false⟩
        ktValid := true, saDec := true, result := .ok, busy := false } ∧
      img.len = s.port.image.len ∧
      words img 0x4000 = enc k2.table (enc k3.table p) ∧
      (∀ k, 1 ≤ k → k ≤ 255 → words img (0x4000 + 8 * k) = enc k3.table (words s.port.image (0x4000 + 8 * k))) ∧
      ∀ x, x < 0x4000 ∨ 0x4800 ≤ x → img.byte x = s.port.image.byte x

/-- R186: a bus error of SA.DEC or SA.ENC later than the peek leaves KT_VALID = 0, W UNDEFINED (the mark of
assumption 2) and SA_DEC the verdict of the first access; a following BLK.ENC or BLK.DEC raises TABLE_NOT_INIT. -/
def Obligations.LateBusErrorLosesTheSchedule : Prop :=
  ∀ (s t : State) (i : Instr) (rest : List PortAnswer), i = .saDec ∨ i = .saEnc →
    0x4800 ≤ s.port.image.len → s.port.answers = .done :: rest → exec i s = .next t → t.result = .ioFail →
    t.ktValid = false ∧ t.w0.undef = true ∧ t.w1.undef = true ∧ t.w2.undef = true ∧
      t.saDec = isDec (le32 (s.port.image.bytes 0x4000 8) 0, le32 (s.port.image.bytes 0x4000 8) 4) ∧
      exec .blkEnc t = .next { t with result := .tableNotInit, busy := false } ∧
      exec .blkDec t = .next { t with result := .tableNotInit, busy := false }

/-- R72, R183, R185, R186 (V-SA-7): the image after a bus error that SA.DEC or SA.ENC meets on its access n + 1, the
peek being access 1 and completed. The blocks written before are done; when the erring access is a write (n odd
in SA.DEC, n even in SA.ENC) the i-th byte of its block is the i-th draw; every other byte is as it was. SA.ENC
takes block 0 last: its read is the case n = 511, its write n = 512. -/
def Obligations.LateBusErrorLeavesTheDraws : Prop :=
  ∀ (s : State) (n : Nat) (torn : List U8) (rest : List PortAnswer) (k2 k3 : Schedule)
    (words : Image → Nat → U32 × U32),
    (∀ img k, words img k = (le32 (img.bytes (0x4000 + 8 * k) 8) 0, le32 (img.bytes (0x4000 + 8 * k) 8) 4)) →
    k2 = init1 s.params.seed s.gamecode.val → k3 = primed k2 →
    s.port.image.wf = true → 0x4800 ≤ s.port.image.len → 1 ≤ n →
    s.port.answers = List.replicate n .done ++ .error torn :: rest →
    (isDec (words s.port.image 0) = false → n < 512 →
      ∃ t, exec .saDec s = .next t ∧ t.result = .ioFail ∧ t.port.answers = rest ∧
        t.port.image.len = s.port.image.len ∧
        (2 ≤ n → words t.port.image 0 = decryptHead k2.table k3.table (words s.port.image 0)) ∧
        (∀ k, 1 ≤ k → 2 * k + 1 < n → words t.port.image k = onWords (blockD k3.table) (words s.port.image k)) ∧
        (n % 2 = 1 → ∀ j, (h : j < torn.length) → j < 8 → t.port.image.byte (0x4000 + 8 * (n / 2) + j) = torn[j]) ∧
        ∀ x, x < 0x4000 ∨ 0x4000 + 8 * ((n + 1) / 2) ≤ x → t.port.image.byte x = s.port.image.byte x) ∧
    (isDec (words s.port.image 0) = true → n < 513 →
      ∃ t, exec .saEnc s = .next t ∧ t.result = .ioFail ∧ t.port.answers = rest ∧
        t.port.image.len = s.port.image.len ∧
        (∀ k, 1 ≤ k → k ≤ 255 → 2 * k < n →
          words t.port.image k = onWords (blockE k3.table) (words s.port.image k)) ∧
        (n % 2 = 0 → ∀ j, (h : j < torn.length) → j < 8 →
          t.port.image.byte ((if n = 512 then 0x4000 else 0x4000 + 8 * (n / 2)) + j) = torn[j]) ∧
        ∀ x, x < 0x4000 ∨ (n < 512 ∧ x < 0x4008) ∨ 0x4000 + 8 * min (n / 2 + 1) 256 ≤ x →
          t.port.image.byte x = s.port.image.byte x)

/-- R187 item 2: if SA.DEC meets no bus error and the twice-decrypted block 0 is MAGIC or ALT_MARKER, SA.ENC then
restores the image exactly. -/
def Obligations.EncryptRestoresTheCiphertext : Prop :=
  ∀ (s : State) (rest : List PortAnswer) (k2 k3 : Schedule) (w p : U32 × U32),
    k2 = init1 s.params.seed s.gamecode.val → k3 = primed k2 →
    s.port.image.wf = true → 0x4800 ≤ s.port.image.len →
    s.port.answers = List.replicate 1025 .done ++ rest →
    w = blockWords (s.port.image.bytes 0x4000 8) → isDec w = false →
    p = onWords (blockD k3.table) (onWords (blockD k2.table) w) → p = magic ∨ p = altMarker →
    ∃ t u, exec .saDec s = .next t ∧ t.result = .ok ∧ exec .saEnc t = .next u ∧ u.result = .ok ∧
      u.port.image = s.port.image

/-- R187 item 1: if block 0 is MARKER or ALT_MARKER and no access meets a bus error, SA.ENC followed by SA.DEC
restores the image exactly. The premise that the encrypted block 0 is itself neither marker is needed, for
otherwise SA.DEC would end with ALREADY (R182); the spec does not mention it. -/
def Obligations.DecryptRestoresThePlaintext : Prop :=
  ∀ (s : State) (rest : List PortAnswer) (k2 k3 : Schedule) (w : U32 × U32),
    k2 = init1 s.params.seed s.gamecode.val → k3 = primed k2 →
    s.port.image.wf = true → 0x4800 ≤ s.port.image.len →
    s.port.answers = List.replicate 1025 .done ++ rest →
    w = blockWords (s.port.image.bytes 0x4000 8) → w = marker ∨ w = altMarker →
    isDec (encryptHead k2.table k3.table w) = false →
    ∃ t u, exec .saEnc s = .next t ∧ t.result = .ok ∧ exec .saDec t = .next u ∧ u.result = .ok ∧
      u.port.image = s.port.image

/-- R347, R182: KT.INIT1, BLK.DEC, KT.ADVANCE, KT.INIT2 and BLK.DEC, run one after the other on
(BLK_A, BLK_B) = (word at +4, word at +0) of block 0, leave the level-3 key schedule and block 0 decrypted twice;
and an SA.DEC with its accesses completed leaves the same schedule, that block 0 with MAGIC replaced by MARKER,
and in each of blocks 1 to 255 what a further BLK.DEC of it gives. -/
def Obligations.HostReplaysTheSecureAreaHead : Prop :=
  ∀ (s : State) (k2 k3 : Schedule), k2 = init1 s.params.seed s.gamecode.val → k3 = primed k2 →
    ∃ t1 t2 t3 t4 t5, exec .ktInit1 s = .next t1 ∧ exec .blkDec t1 = .next t2 ∧ exec .ktAdvance t2 = .next t3 ∧
      exec .ktInit2 t3 = .next t4 ∧ exec .blkDec t4 = .next t5 ∧ t5.schedule = k3 ∧
      (t5.blkB.val, t5.blkA.val) =
        onWords (blockD k3.table) (onWords (blockD k2.table) (s.blkB.val, s.blkA.val)) ∧
      ∀ (rest : List PortAnswer) (words : Image → Nat → U32 × U32),
        (∀ img k, words img k = (le32 (img.bytes (0x4000 + 8 * k) 8) 0, le32 (img.bytes (0x4000 + 8 * k) 8) 4)) →
        s.port.image.wf = true → 0x4800 ≤ s.port.image.len →
        s.port.answers = List.replicate 512 .done ++ rest → isDec (words s.port.image 0) = false →
        (s.blkB.val, s.blkA.val) = words s.port.image 0 →
        ∃ u, exec .saDec s = .next u ∧ u.schedule = t5.schedule ∧
          words u.port.image 0 = (if (t5.blkB.val, t5.blkA.val) = (0x72636E65, 0x6A624F79)
            then (0xE7FFDEFF, 0xE7FFDEFF) else (t5.blkB.val, t5.blkA.val)) ∧
          ∀ (k : Nat) (a b : U32), 1 ≤ k → k ≤ 255 → (b, a) = words s.port.image k →
            ∃ v, exec .blkDec { t5 with blkA := ⟨a, false⟩, blkB := ⟨b, false⟩ } = .next v ∧
              words u.port.image k = (v.blkB.val, v.blkA.val)

/-! ### Key-Scrambling Unit -/

/-- R215: Scramble is a bijection in Y for fixed X and C, so a nonzero change of Y changes the result, and a
bijection in X for fixed Y and C; and the rule's six hand vectors. -/
def Obligations.ScrambleIsBijective : Prop :=
  (∀ x c, Function.Bijective fun y => scramble x y c) ∧
  (∀ x y c delta, delta ≠ 0 → scramble x (y ^^^ delta) c ≠ scramble x y c) ∧
  (∀ y c, Function.Bijective fun x => scramble x y c) ∧
  scramble 0 0 1 = 0x00000000008000000000000000000000 ∧
  scramble 1 0 0 = 0x00000000020000000000000000000000 ∧
  scramble (1 <<< 126) 0 0 = 0x00000000008000000000000000000000 ∧
  scramble 0 (BitVec.allOnes 128) 1 = 0 ∧
  scramble (BitVec.allOnes 128) (BitVec.allOnes 128) (BitVec.allOnes 128) = BitVec.allOnes 128 ∧
  scramble 0x000102030405060708090A0B0C0D0E0F 0x00112233445566778899AABBCCDDEEFF
    0x1FF9E9AAC5FE0408024591DC5D52768A = 0x3A2D1E26A6900789F50D1FC139D5818A

/-- R213, R212, R122, R303: AES.KEYSEL puts into KEYX the retail or development KeyX whose index in KEYSLOT_ID is
the method's keyslot; KEYSTORE_ERROR comes first, then UNKNOWN_KEYSLOT, each with KEYX and the rest unchanged. -/
def Obligations.KeyselSelectsTheSlotsKey : Prop :=
  ∀ (s : State) (dev : Bool),
    (s.ksState ≠ .ready → exec (.aesKeysel dev) s = .next { s with result := .keystoreError, busy := false }) ∧
    (s.ksState = .ready → (∀ e ∈ s.params.methodMap, e.1 ≠ s.method.val) →
      exec (.aesKeysel dev) s = .next { s with result := .unknownKeyslot, busy := false }) ∧
    (s.ksState = .ready → ∀ k, methodSlot s.params.methodMap s.method.val = some k →
      ∃ i : Fin 4, Config.keyslotId[i.val]? = some (slotNumber k) ∧
        exec (.aesKeysel dev) s = .next { s with
          keyX := ⟨if dev then s.store.dev[i] else s.store.ret[i], false⟩, result := .ok, busy := false })

/-- R214, R210: AES.SCRAMBLE sets KN to Scramble(KEYX, KEYY, KSC), rotl(rotl(X, 2) ^ Y + C, 87), and changes nothing
else; with KSSTATE not READY it raises KEYSTORE_ERROR and KN is unchanged. -/
def Obligations.ScrambleDerivesTheKey : Prop :=
  ∀ s : State,
    (s.ksState ≠ .ready → exec .aesScramble s = .next { s with result := .keystoreError, busy := false }) ∧
    (s.ksState = .ready → exec .aesScramble s = .next { s with
      kn := ⟨(((s.keyX.val.rotateLeft 2) ^^^ s.keyY.val) + s.store.ksc).rotateLeft 87, false⟩
      result := .ok, busy := false })

/-! ### Counter-mode Unit -/

/-- R240, R242, R243, R244: AES128 by its recurrences. w is the key schedule of R243, 44 words of four bytes; x n
is the state (row, column) after AddRoundKey(n), x 0 from the input by columns; y n is x n through SubBytes and
ShiftRows; `dbl` is the product with 2 modulo 0x11B, and 3a is `dbl a` XOR a. Rounds 1 to 9 mix the columns, round
10 does not. Then the three vectors of R244. (The spec marks all of these rules as general knowledge,
assumption 17.) -/
def Obligations.AesFollowsItsRounds : Prop :=
  (∀ (K P : List U8) (dbl : U8 → U8) (rcon : List U8) (w : Nat → Nat → U8) (x y : Nat → Nat → Nat → U8),
    (∀ b, (dbl b).toNat = if b.toNat < 0x80 then 2 * b.toNat else (2 * b.toNat) ^^^ 0x11B) →
    rcon = [0x01, 0x02, 0x04, 0x08, 0x10, 0x20, 0x40, 0x80, 0x1B, 0x36] →
    (∀ i b, i < 4 → b < 4 → w i b = byteAt K (4 * i + b)) →
    (∀ i b, 4 ≤ i → i < 44 → b < 4 → w i b = w (i - 4) b ^^^
      (if i % 4 = 0 then sbox (w (i - 1) ((b + 1) % 4)) ^^^ (if b = 0 then rcon.getD (i / 4 - 1) 0 else 0)
        else w (i - 1) b)) →
    (∀ r c, r < 4 → c < 4 → x 0 r c = byteAt P (r + 4 * c) ^^^ w c r) →
    (∀ n r c, n < 10 → r < 4 → c < 4 → y n r c = sbox (x n r ((c + r) % 4))) →
    (∀ n r c, n < 9 → r < 4 → c < 4 → x (n + 1) r c =
      dbl (y n r c) ^^^ (dbl (y n ((r + 1) % 4) c) ^^^ y n ((r + 1) % 4) c) ^^^ y n ((r + 2) % 4) c ^^^
        y n ((r + 3) % 4) c ^^^ w (4 * (n + 1) + c) r) →
    (∀ r c, r < 4 → c < 4 → x 10 r c = y 9 r c ^^^ w (40 + c) r) →
    (aes128 K P).length = 16 ∧ ∀ r c, r < 4 → c < 4 → byteAt (aes128 K P) (r + 4 * c) = x 10 r c) ∧
  aes128 (bytesBE128 0x000102030405060708090A0B0C0D0E0F) (bytesBE128 0x00112233445566778899AABBCCDDEEFF) =
    bytesBE128 0x69C4E0D86A7B0430D8CDB78070B4C55A ∧
  aes128 (bytesBE128 0x2B7E151628AED2A6ABF7158809CF4F3C) (bytesBE128 0x3243F6A8885A308D313198A2E0370734) =
    bytesBE128 0x3925841D02DC09FBDC118597196A0B32 ∧
  aes128 (bytesBE128 0) (bytesBE128 0) = bytesBE128 0x66E94BD4EF8A2C3B884CFA59CA342B2E

/-- R241: bit i of SBOX[b] is g[i] ^ g[i+4] ^ g[i+5] ^ g[i+6] ^ g[i+7] ^ 0x63[i], indices mod 8, where g is the
multiplicative inverse of b in GF(2^8), and 0 for b = 0. -/
def Obligations.SboxIsTheAffineInverse : Prop :=
  ∀ b g : U8, (gfMul b g 8 = 1 ∨ (b = 0 ∧ g = 0)) → ∀ i, i < 8 →
    (sbox b).getLsbD i =
      (g.getLsbD i ^^ g.getLsbD ((i + 4) % 8) ^^ g.getLsbD ((i + 5) % 8) ^^ g.getLsbD ((i + 6) % 8) ^^
        g.getLsbD ((i + 7) % 8) ^^ (0x63 : U8).getLsbD i)

/-- R253, R250: CTR.INIT loads the counter from the region's tag and CTR_ID, the tag in the high half under
TAG_HIGH and in the low half under ID_HIGH; it always ends with OK for a tag 0, 1 or 2. -/
def Obligations.CtrInitLoadsTheCounter : Prop :=
  ∀ (s : State) (tag : BitVec 2) (tw : U64),
    (tag = 0 ∧ tw = s.params.tagPlain) ∨ (tag = 1 ∧ tw = s.params.tagExefs) ∨ (tag = 2 ∧ tw = s.params.tagRomfs) →
    ∃ c : U128,
      c.toNat = (match s.params.ctrLayout with
        | .tagHigh => tw.toNat * 2 ^ 64 + s.ctrId.val.toNat
        | .idHigh => s.ctrId.val.toNat * 2 ^ 64 + tw.toNat) ∧
      exec (.ctrInit tag) s = .next { s with ctr := ⟨c, false⟩, result := .ok, busy := false }

/-- R260: for a fixed tag, different CTR_ID give different initial counters under either layout; under TAG_HIGH,
different tags give different ones. -/
def Obligations.InitialCountersAreDistinct : Prop :=
  (∀ (p : Params) (r : Region) (id id' : U64), id ≠ id' → counterInit p r id ≠ counterInit p r id') ∧
  (∀ (p : Params) (r r' : Region) (id id' : U64), p.ctrLayout = .tagHigh → tagWord p r ≠ tagWord p r' →
    counterInit p r id ≠ counterInit p r' id')

/-- R254, R251, R252, R68: CTR.STEP puts AES128 of the counter under KN, both big-endian, into KSTREAM, and adds 1 to
CTR mod 2^128; it always ends with OK and changes nothing else. -/
def Obligations.CtrStepMakesOneKeystreamBlock : Prop :=
  ∀ (s : State) (ks c : U128), bytesBE128 ks = aes128 (bytesBE128 s.kn.val) (bytesBE128 s.ctr.val) →
    c.toNat = (s.ctr.val.toNat + 1) % 2 ^ 128 →
    exec .ctrStep s = .next { s with kstream := ⟨ks, false⟩, ctr := ⟨c, false⟩, result := .ok, busy := false }

/-- R256, R255, R69: CTR.XFORM of a region inside the image, its accesses completed: byte j of the region is XORed
with byte j mod 16 of the keystream block of counter CTR + j / 16; every other byte and everything else is
unchanged; CTR has advanced by ceil(REG_LEN / 16) mod 2^128, and is not written when the region is empty. -/
def Obligations.CtrXformTransformsTheRegion : Prop :=
  ∀ (s : State) (rest : List PortAnswer) (off len : Nat), off = s.regOff.val.toNat → len = s.regLen.val.toNat →
    s.port.image.wf = true → off + len ≤ s.port.image.len →
    s.port.answers = List.replicate (2 * ((len + 15) / 16)) .done ++ rest →
    ∃ (img : Image) (c : Reg 128),
      exec .ctrXform s = .next { s with
        port := { s.port with image := img, answers := rest }, ctr := c, result := .ok, busy := false } ∧
      img.len = s.port.image.len ∧
      (∀ j, j < len → img.byte (off + j) = s.port.image.byte (off + j) ^^^
        (aes128 (bytesBE128 s.kn.val) (bytesBE128 (s.ctr.val + BitVec.ofNat 128 (j / 16)))).getD (j % 16) 0) ∧
      (∀ x, x < off ∨ off + len ≤ x → img.byte x = s.port.image.byte x) ∧
      c.val.toNat = (s.ctr.val.toNat + (len + 15) / 16) % 2 ^ 128 ∧
      (len = 0 → c = s.ctr) ∧ (0 < len → c.undef = false)

/-- R257: a second CTR.XFORM over the same region, with the same KN and started from the same CTR, restores the
image. -/
def Obligations.CtrXformTwiceRestores : Prop :=
  ∀ (s : State) (rest : List PortAnswer),
    s.port.image.wf = true → s.regOff.val.toNat + s.regLen.val.toNat ≤ s.port.image.len →
    s.port.answers = List.replicate (4 * ((s.regLen.val.toNat + 15) / 16)) .done ++ rest →
    ∃ t u, exec .ctrXform s = .next t ∧ t.result = .ok ∧ exec .ctrXform { t with ctr := s.ctr } = .next u ∧
      u.result = .ok ∧ u.port.image = s.port.image

/-- R256, R72, R73: a bus error on the read (n = 2k) or on the write (n = 2k + 1) of block k, the n accesses before
it completed: blocks 0 to k - 1 are done, block k is unchanged for the read and holds the draws for the write, all
else is unchanged, CTR has advanced by k, and the result is IO_FAIL. -/
def Obligations.CtrXformBusError : Prop :=
  ∀ (s : State) (k n : Nat) (torn : List U8) (rest : List PortAnswer) (off len : Nat),
    off = s.regOff.val.toNat → len = s.regLen.val.toNat → s.port.image.wf = true → off + len ≤ s.port.image.len →
    k < (len + 15) / 16 → n = 2 * k ∨ n = 2 * k + 1 → s.port.answers = List.replicate n .done ++ .error torn :: rest →
    ∃ (img : Image) (c : Reg 128),
      exec .ctrXform s = .next { s with
        port := { s.port with image := img, answers := rest }, ctr := c, result := .ioFail, busy := false } ∧
      c.val.toNat = (s.ctr.val.toNat + k) % 2 ^ 128 ∧ (k = 0 → c = s.ctr) ∧ img.len = s.port.image.len ∧
      (∀ j, j < 16 * k → img.byte (off + j) = s.port.image.byte (off + j) ^^^
        (aes128 (bytesBE128 s.kn.val) (bytesBE128 (s.ctr.val + BitVec.ofNat 128 (j / 16)))).getD (j % 16) 0) ∧
      (n = 2 * k → ∀ x, off + 16 * k ≤ x → img.byte x = s.port.image.byte x) ∧
      (n = 2 * k + 1 → ∀ j, (h : j < torn.length) → j < 16 → 16 * k + j < len →
        img.byte (off + 16 * k + j) = torn[j]) ∧
      ∀ x, x < off ∨ off + min (16 * (k + 1)) len ≤ x → img.byte x = s.port.image.byte x

/-- R256, R258, R62, R303: the checks of CTR.XFORM and PR.XFORM, in their order, each with no access and nothing but
RESULT changed. -/
def Obligations.CounterModeChecks : Prop :=
  ∀ (s : State) (tag : BitVec 2) (dev dir : Bool), tag ≠ 3 →
    (s.port.image.len < s.regOff.val.toNat + s.regLen.val.toNat →
      exec .ctrXform s = .next { s with result := .ioFail, busy := false }) ∧
    (s.ksState ≠ .ready → exec (.prXform tag dev dir) s = .next { s with result := .keystoreError, busy := false }) ∧
    (s.ksState = .ready → methodSlot s.params.methodMap s.method.val = none →
      exec (.prXform tag dev dir) s = .next { s with result := .unknownKeyslot, busy := false }) ∧
    (s.ksState = .ready → methodSlot s.params.methodMap s.method.val ≠ none →
      s.port.image.len < s.regOff.val.toNat + s.regLen.val.toNat →
      exec (.prXform tag dev dir) s = .next { s with result := .ioFail, busy := false })

/-- R258, R259: PR.XFORM of a region inside the image, with the store READY, the method known and the accesses
completed: KEYX, KN and CTR are derived afresh, whatever they held, and the region is transformed from the
initial counter; `dir` plays no part. -/
def Obligations.PrXformTransformsTheRegion : Prop :=
  ∀ (s : State) (rest : List PortAnswer) (tag : BitVec 2) (r : Region) (dev dir : Bool) (k : Keyslot)
    (off len : Nat) (x kn c0 : U128),
    regionOf tag = some r → s.ksState = .ready → methodSlot s.params.methodMap s.method.val = some k →
    off = s.regOff.val.toNat → len = s.regLen.val.toNat →
    x = selectKeyX s.store dev k → kn = scramble x s.keyY.val s.store.ksc →
    c0 = counterInit s.params r s.ctrId.val →
    s.port.image.wf = true → off + len ≤ s.port.image.len →
    s.port.answers = List.replicate (2 * ((len + 15) / 16)) .done ++ rest →
    ∃ (img : Image) (c : U128),
      exec (.prXform tag dev dir) s = .next { s with
        keyX := ⟨x, false⟩, kn := ⟨kn, false⟩, ctr := ⟨c, false⟩
        port := { s.port with image := img, answers := rest }, result := .ok, busy := false } ∧
      c.toNat = (c0.toNat + (len + 15) / 16) % 2 ^ 128 ∧ img.len = s.port.image.len ∧
      (∀ j, j < len → img.byte (off + j) = s.port.image.byte (off + j) ^^^
        (aes128 (bytesBE128 kn) (bytesBE128 (c0 + BitVec.ofNat 128 (j / 16)))).getD (j % 16) 0) ∧
      ∀ y, y < off ∨ off + len ≤ y → img.byte y = s.port.image.byte y

/-- R258, R343 step 4: where PR.XFORM passes its checks, it does what AES.KEYSEL, AES.SCRAMBLE, CTR.INIT and
CTR.XFORM do one after the other, whatever the port answers. -/
def Obligations.PrXformIsFourCommands : Prop :=
  ∀ (s : State) (tag : BitVec 2) (dev dir : Bool), tag ≠ 3 → s.ksState = .ready →
    methodSlot s.params.methodMap s.method.val ≠ none →
    s.regOff.val.toNat + s.regLen.val.toNat ≤ s.port.image.len →
    ∃ t1 t2 t3 t4, exec (.aesKeysel dev) s = .next t1 ∧ exec .aesScramble t1 = .next t2 ∧
      exec (.ctrInit tag) t2 = .next t3 ∧ exec .ctrXform t3 = .next t4 ∧
      exec (.prXform tag dev dir) s = .next t4
end

