-- ==== Sys2Proof/Laws/Bytes.lean ====
section
/-! SUPPORT. The byte-sequence helpers undo each other (R13), and the bytes of a secure-area block are
its words (R63). -/

namespace Sys2Proof.Machine

@[simp] theorem length_bytesLE32 (w : U32) : (bytesLE32 w).length = 4 := rfl

@[simp] theorem length_bytesBE128 (x : U128) : (bytesBE128 x).length = 16 := rfl

@[simp] theorem length_wordsBlock (w : U32 × U32) : (wordsBlock w).length = 8 := rfl

@[simp] theorem length_serialiseW (a b c : U32) : (serialiseW a b c).length = 12 := rfl

theorem le32_four (b0 b1 b2 b3 : U8) (l : List U8) :
    le32 (b0 :: b1 :: b2 :: b3 :: l) 0 = b3 ++ b2 ++ b1 ++ b0 := rfl

@[simp] theorem le32_bytesLE32 (w : U32) : le32 (bytesLE32 w) 0 = w := by
  rw [bytesLE32, le32_four]
  apply BitVec.eq_of_getLsbD_eq
  intro i hi
  simp only [BitVec.getLsbD_append, BitVec.getLsbD_extractLsb']
  split_ifs <;> (rw [decide_eq_true (by omega), Bool.true_and]; congr 1; omega)

theorem bytesLE32_le32 (b0 b1 b2 b3 : U8) (l : List U8) :
    bytesLE32 (le32 (b0 :: b1 :: b2 :: b3 :: l) 0) = [b0, b1, b2, b3] := by
  rw [le32_four, bytesLE32]
  simp only [List.cons.injEq, and_true]
  refine ⟨?_, ?_, ?_, ?_⟩ <;>
  · apply BitVec.eq_of_getLsbD_eq
    intro i hi
    simp only [BitVec.getLsbD_append, BitVec.getLsbD_extractLsb', hi, decide_true, Bool.true_and]
    split_ifs <;> first | omega | (congr 1; omega)

theorem blockWords_wordsBlock (w : U32 × U32) : blockWords (wordsBlock w) = w := by
  obtain ⟨a, b⟩ := w
  have ha : blockWords (wordsBlock (a, b)) = (le32 (bytesLE32 a) 0, le32 (bytesLE32 b) 0) := rfl
  rw [ha, le32_bytesLE32, le32_bytesLE32]

theorem wordsBlock_blockWords (B : List U8) (h : B.length = 8) : wordsBlock (blockWords B) = B := by
  match B, h with
  | [a, b, c, d, e, f, g, i], _ =>
    have h1 : le32 [a, b, c, d, e, f, g, i] 4 = le32 [e, f, g, i] 0 := rfl
    rw [blockWords, wordsBlock, h1, bytesLE32_le32, bytesLE32_le32]
    rfl

/-- E and D on words: swapping the halves twice is nothing (R64). -/
theorem onWords_onWords (f g : U32 × U32 → U32 × U32) (w : U32 × U32) :
    onWords f (onWords g w) = onWords (f ∘ g) w := rfl

end Sys2Proof.Machine
end

