-- ==== Sys2Proof/Laws/Image.lean ====
section
/-! SUPPORT. Reading after writing, and that every memory operation keeps the canonical form. -/

namespace Sys2Proof.Machine

/-! ### Memory -/

theorem Memory.wfFrom_cons {len lo a : Nat} {v : U8} {m : Memory} :
    Memory.wfFrom len lo ((a, v) :: m) = true ↔
      lo ≤ a ∧ a < len ∧ v ≠ Memory.unlisted ∧ Memory.wfFrom len (a + 1) m = true := by
  simp [Memory.wfFrom, and_assoc]

theorem Memory.wfFrom_mono {len lo lo' : Nat} (h : lo' ≤ lo) {m : Memory}
    (hm : Memory.wfFrom len lo m = true) : Memory.wfFrom len lo' m = true := by
  cases m with
  | nil => rfl
  | cons c m =>
    obtain ⟨a, v⟩ := c
    rw [Memory.wfFrom_cons] at hm ⊢
    exact ⟨h.trans hm.1, hm.2⟩

/-- Nothing is listed before the lowest address allowed. -/
theorem Memory.read_below {len lo x : Nat} (hx : x < lo) :
    {m : Memory} → Memory.wfFrom len lo m = true → Memory.read x m = Memory.unlisted
  | [], _ => rfl
  | (a, v) :: m, h => by
    rw [Memory.wfFrom_cons] at h
    rw [Memory.read, if_neg (by omega)]
    exact Memory.read_below (by omega) h.2.2.2

/-- Nothing is listed at or above the length. -/
theorem Memory.read_above {len x : Nat} (hx : len ≤ x) :
    {lo : Nat} → {m : Memory} → Memory.wfFrom len lo m = true → Memory.read x m = Memory.unlisted
  | _, [], _ => rfl
  | _, (a, v) :: m, h => by
    rw [Memory.wfFrom_cons] at h
    rw [Memory.read, if_neg (by omega)]
    exact Memory.read_above hx h.2.2.2

theorem Memory.read_cons_other {a x : Nat} (v : U8) (m : Memory) (h : x ≠ a) :
    Memory.read x (Memory.cons a v m) = Memory.read x m := by
  unfold Memory.cons
  split_ifs
  · rfl
  · rw [Memory.read, if_neg (Ne.symm h)]

theorem Memory.read_cons_self {a : Nat} {v : U8} {m : Memory} (h : Memory.read a m = Memory.unlisted) :
    Memory.read a (Memory.cons a v m) = v := by
  unfold Memory.cons
  split_ifs with hv
  · rw [h, hv]
  · rw [Memory.read, if_pos rfl]

theorem Memory.wfFrom_cons_of {len lo a : Nat} {v : U8} {m : Memory} (h1 : lo ≤ a) (h2 : a < len)
    (hm : Memory.wfFrom len (a + 1) m = true) : Memory.wfFrom len lo (Memory.cons a v m) = true := by
  unfold Memory.cons
  split_ifs with hv
  · exact Memory.wfFrom_mono (by omega) hm
  · exact Memory.wfFrom_cons.2 ⟨h1, h2, hv, hm⟩

/-- A write leaves every other address alone. -/
theorem Memory.read_write_other {a x : Nat} (v : U8) (h : x ≠ a) :
    (m : Memory) → Memory.read x (Memory.write a v m) = Memory.read x m
  | [] => Memory.read_cons_other v [] h
  | (b, u) :: m => by
    unfold Memory.write
    split_ifs with h1 h2
    · simp only [Memory.read, Memory.read_write_other v h m]
    · rw [Memory.read_cons_other v m h, Memory.read, if_neg (by omega)]
    · exact Memory.read_cons_other v _ h

/-- A read after a write to the same address gives the byte written. -/
theorem Memory.read_write_self {len : Nat} (a : Nat) (v : U8) :
    {lo : Nat} → {m : Memory} → Memory.wfFrom len lo m = true → Memory.read a (Memory.write a v m) = v
  | _, [], _ => Memory.read_cons_self rfl
  | _, (b, u) :: m, h => by
    have h' := Memory.wfFrom_cons.1 h
    unfold Memory.write
    split_ifs with h1 h2
    · rw [Memory.read, if_neg (by omega)]
      exact Memory.read_write_self a v h'.2.2.2
    · subst h2
      exact Memory.read_cons_self (Memory.read_below (Nat.lt_succ_self _) h'.2.2.2)
    · refine Memory.read_cons_self ?_
      rw [Memory.read, if_neg h2]
      exact Memory.read_below (by omega) h'.2.2.2

/-- A write keeps the canonical form. -/
theorem Memory.wfFrom_write {len a : Nat} (v : U8) (ha : a < len) :
    {lo : Nat} → {m : Memory} → lo ≤ a → Memory.wfFrom len lo m = true →
      Memory.wfFrom len lo (Memory.write a v m) = true
  | _, [], hlo, _ => Memory.wfFrom_cons_of hlo ha rfl
  | lo, (b, u) :: m, hlo, h => by
    have h' := Memory.wfFrom_cons.1 h
    unfold Memory.write
    split_ifs with h1 h2
    · exact Memory.wfFrom_cons.2 ⟨h'.1, h'.2.1, h'.2.2.1, Memory.wfFrom_write v ha h1 h'.2.2.2⟩
    · subst h2
      exact Memory.wfFrom_cons_of h'.1 ha h'.2.2.2
    · exact Memory.wfFrom_cons_of hlo ha
        (Memory.wfFrom_cons.2 ⟨by omega, h'.2.1, h'.2.2.1, h'.2.2.2⟩)

theorem Memory.wf_ofBytes {len : Nat} :
    (a : Nat) → (bs : List U8) → a + bs.length ≤ len → Memory.wfFrom len a (Memory.ofBytes a bs) = true
  | _, [], _ => rfl
  | a, b :: bs, h => by
    rw [List.length_cons] at h
    exact Memory.wfFrom_cons_of (Nat.le_refl a) (by omega) (Memory.wf_ofBytes (a + 1) bs (by omega))

/-- Equal bytes are equal data: the canonical form has one memory for each content. -/
theorem Memory.ext_of_read {len : Nat} :
    {lo : Nat} → {m m' : Memory} → Memory.wfFrom len lo m = true → Memory.wfFrom len lo m' = true →
      (∀ x, Memory.read x m = Memory.read x m') → m = m'
  | _, [], [], _, _, _ => rfl
  | _, [], (a, v) :: m, _, h', he => by
    rw [Memory.wfFrom_cons] at h'
    have := he a
    rw [Memory.read, Memory.read, if_pos rfl] at this
    exact absurd this.symm h'.2.2.1
  | _, (a, v) :: m, [], h, _, he => by
    rw [Memory.wfFrom_cons] at h
    have := he a
    rw [Memory.read, Memory.read, if_pos rfl] at this
    exact absurd this h.2.2.1
  | _, (a, v) :: m, (b, u) :: m', h, h', he => by
    rw [Memory.wfFrom_cons] at h h'
    have hab : a = b := by
      rcases Nat.lt_trichotomy a b with hlt | heq | hgt
      · have := he a
        rw [Memory.read, if_pos rfl, Memory.read, if_neg (by omega),
          Memory.read_below (by omega) h'.2.2.2] at this
        exact absurd this h.2.2.1
      · exact heq
      · have := he b
        rw [Memory.read, if_neg (by omega), Memory.read_below (by omega) h.2.2.2, Memory.read,
          if_pos rfl] at this
        exact absurd this.symm h'.2.2.1
    subst hab
    have hv : v = u := by simpa [Memory.read] using he a
    subst hv
    have hm : m = m' := Memory.ext_of_read h.2.2.2 h'.2.2.2 fun x => by
      by_cases hx : a = x
      · subst hx
        rw [Memory.read_below (Nat.lt_succ_self _) h.2.2.2, Memory.read_below (Nat.lt_succ_self _) h'.2.2.2]
      · simpa [Memory.read, hx] using he x
    rw [hm]

/-! ### Image -/

theorem Image.wf_iff {img : Image} :
    img.wf = true ↔ img.len ≤ 2 ^ Config.addrBits ∧ Memory.wfFrom img.len 0 img.cells = true := by
  simp [Image.wf, Memory.wf]

@[simp] theorem Image.len_write (a : Nat) (v : U8) (img : Image) : (img.write a v).len = img.len := by
  unfold Image.write
  split_ifs <;> rfl

@[simp] theorem Image.len_writeBytes :
    (a : Nat) → (bs : List U8) → (img : Image) → (img.writeBytes a bs).len = img.len
  | _, [], _ => rfl
  | a, b :: bs, img => by rw [Image.writeBytes, Image.len_writeBytes, Image.len_write]

theorem Image.wf_write {img : Image} (h : img.wf = true) (a : Nat) (v : U8) : (img.write a v).wf = true := by
  rw [Image.wf_iff] at h ⊢
  rw [Image.len_write]
  refine ⟨h.1, ?_⟩
  unfold Image.write
  split_ifs with ha
  · exact Memory.wfFrom_write v ha (Nat.zero_le a) h.2
  · exact h.2

theorem Image.wf_writeBytes :
    (a : Nat) → (bs : List U8) → {img : Image} → img.wf = true → (img.writeBytes a bs).wf = true
  | _, [], _, h => h
  | a, b :: bs, _, h => Image.wf_writeBytes (a + 1) bs (Image.wf_write h a b)

theorem Image.wf_ofBytes {bs : List U8} (h : bs.length ≤ 2 ^ Config.addrBits) : (Image.ofBytes bs).wf = true :=
  Image.wf_iff.2 ⟨h, Memory.wf_ofBytes 0 bs (by simp [Image.ofBytes])⟩

theorem Image.byte_write_other {a x : Nat} (v : U8) (img : Image) (h : x ≠ a) :
    (img.write a v).byte x = img.byte x := by
  unfold Image.write
  split_ifs
  · exact Memory.read_write_other v h img.cells
  · rfl

theorem Image.byte_write_self {a : Nat} {img : Image} (hw : img.wf = true) (v : U8) (h : a < img.len) :
    (img.write a v).byte a = v := by
  unfold Image.write
  rw [if_pos h]
  exact Memory.read_write_self a v (Image.wf_iff.1 hw).2

/-- Writing bytes leaves every other offset alone. -/
theorem Image.byte_writeBytes_other {x : Nat} :
    (a : Nat) → (bs : List U8) → (img : Image) → x < a ∨ a + bs.length ≤ x →
      (img.writeBytes a bs).byte x = img.byte x
  | _, [], _, _ => rfl
  | a, b :: bs, img, h => by
    rw [List.length_cons] at h
    rw [Image.writeBytes, Image.byte_writeBytes_other (a + 1) bs _ (by omega),
      Image.byte_write_other b img (by omega)]

/-- Byte `i` of the bytes written, read back. -/
theorem Image.byte_writeBytes_self :
    (a : Nat) → (bs : List U8) → {img : Image} → img.wf = true → (i : Nat) → (hi : i < bs.length) →
      a + i < img.len → (img.writeBytes a bs).byte (a + i) = bs[i]
  | a, b :: bs, img, hw, 0, _, hl => by
    rw [Image.writeBytes, Image.byte_writeBytes_other (a + 1) bs _ (by omega)]
    exact Image.byte_write_self hw b hl
  | a, b :: bs, img, hw, i + 1, hi, hl => by
    have hi' : i < bs.length := by simpa using hi
    have he : a + (i + 1) = a + 1 + i := by omega
    rw [Image.writeBytes, he, Image.byte_writeBytes_self (a + 1) bs (Image.wf_write hw a b) i hi'
      (by rw [Image.len_write]; omega)]
    rfl

/-- An offset at or past the end reads as unlisted. -/
theorem Image.byte_above {img : Image} (hw : img.wf = true) {x : Nat} (h : img.len ≤ x) :
    img.byte x = Memory.unlisted :=
  Memory.read_above h (Image.wf_iff.1 hw).2

/-- Two canonical images of one length with equal bytes are equal. -/
theorem Image.ext_of_byte {img img' : Image} (h : img.wf = true) (h' : img'.wf = true)
    (hl : img.len = img'.len) (hb : ∀ x, img.byte x = img'.byte x) : img = img' := by
  obtain ⟨n, m⟩ := img
  obtain ⟨n', m'⟩ := img'
  subst hl
  exact congrArg (Image.mk n) (Memory.ext_of_read (Image.wf_iff.1 h).2 (Image.wf_iff.1 h').2 hb)

@[simp] theorem Image.length_bytes (img : Image) (a n : Nat) : (img.bytes a n).length = n := by
  simp [Image.bytes]

@[simp] theorem Image.getElem_bytes (img : Image) (a n i : Nat) (h : i < (img.bytes a n).length) :
    (img.bytes a n)[i] = img.byte (a + i) := by
  simp [Image.bytes]

/-- Equal bytes, equal reads. -/
theorem Image.bytes_congr {img img' : Image} {a n : Nat}
    (h : ∀ x, a ≤ x → x < a + n → img.byte x = img'.byte x) : img.bytes a n = img'.bytes a n := by
  apply List.map_congr_left
  intro i hi
  rw [List.mem_range] at hi
  exact h _ (by omega) (by omega)

/-- The bytes just written, read back. -/
theorem Image.bytes_writeBytes {a : Nat} {bs : List U8} {img : Image} (hw : img.wf = true)
    (hl : a + bs.length ≤ img.len) : (img.writeBytes a bs).bytes a bs.length = bs := by
  apply List.ext_getElem
  · simp
  · intro i h1 h2
    rw [Image.getElem_bytes, Image.byte_writeBytes_self a bs hw i h2 (by omega)]

end Sys2Proof.Machine
end

