-- ==== Sys2Proof/Laws/Port.lean ====
section
/-! SUPPORT. What an access can do (R70 to R72), said once for each of the two, and what it does when
the port's next answer is known. -/

namespace Sys2Proof.Machine

/-- The port an access, or a sequence of them, leaves. -/
def Access.port {α : Type} : Access α → Port
  | .ok _ p => p
  | .error p => p

@[simp] theorem Access.port_ok {α : Type} (v : α) (p : Port) : (Access.ok v p).port = p := rfl
@[simp] theorem Access.port_error {α : Type} (p : Port) : (Access.error p : Access α).port = p := rfl

@[simp] theorem Port.answer_image (p : Port) : p.answer.2.image = p.image := by
  unfold Port.answer
  split <;> rfl

/-- A MemRead leaves the image alone, whatever it answers. -/
theorem memRead_image (a n : Nat) (p : Port) : (memRead a n p).port.image = p.image := by
  have h := Port.answer_image p
  unfold memRead
  split <;> simp_all

/-- What a completed MemRead returns. -/
theorem memRead_ok {a n : Nat} {p q : Port} {B : List U8} (h : memRead a n p = .ok B q) :
    q.image = p.image ∧ B = p.image.bytes a n := by
  have hi := Port.answer_image p
  unfold memRead at h
  split at h
  · injection h with h1 h2
    subst h1 h2
    simp_all
  · cases h

theorem memRead_error {a n : Nat} {p q : Port} (h : memRead a n p = .error q) : q.image = p.image := by
  have := memRead_image a n p
  rwa [h] at this

/-- What a MemWrite does to the image, whatever it answers: some bytes from `a` on, no more than the
bytes given. -/
theorem memWrite_image (a : Nat) (bs : List U8) (p : Port) :
    ∃ cs : List U8, cs.length ≤ bs.length ∧ (memWrite a bs p).port.image = p.image.writeBytes a cs := by
  have h := Port.answer_image p
  unfold memWrite
  split
  · next q hq => exact ⟨bs, Nat.le_refl _, by rw [hq] at h; simp only at h; simp [h]⟩
  · next torn q hq =>
    exact ⟨torn.take bs.length, by simp, by rw [hq] at h; simp only at h; simp [h]⟩

theorem memRead_done {a n : Nat} {p : Port} {rest : List PortAnswer} (h : p.answers = .done :: rest) :
    memRead a n p = .ok (p.image.bytes a n) { p with answers := rest } := by
  simp [memRead, Port.answer, h]

theorem memWrite_done {a : Nat} {bs : List U8} {p : Port} {rest : List PortAnswer}
    (h : p.answers = .done :: rest) :
    memWrite a bs p = .ok () { p with image := p.image.writeBytes a bs, answers := rest } := by
  simp [memWrite, Port.answer, h]

theorem memRead_torn {a n : Nat} {p : Port} {torn : List U8} {rest : List PortAnswer}
    (h : p.answers = .error torn :: rest) : memRead a n p = .error { p with answers := rest } := by
  simp [memRead, Port.answer, h]

theorem memWrite_torn {a : Nat} {bs torn : List U8} {p : Port} {rest : List PortAnswer}
    (h : p.answers = .error torn :: rest) :
    memWrite a bs p = .error { p with image := p.image.writeBytes a (torn.take bs.length), answers := rest } := by
  simp [memWrite, Port.answer, h]

/-! ### What a sequence of accesses may do to the image -/

/-- `q` came from `p` by writes inside [a, a + n): the length and the canonical form are kept, and every
offset outside reads as before. -/
structure Port.Within (a n : Nat) (p q : Port) : Prop where
  len : q.image.len = p.image.len
  wf : p.image.wf = true → q.image.wf = true
  byte : ∀ x, x < a ∨ a + n ≤ x → q.image.byte x = p.image.byte x

theorem Port.Within.of_image_eq {a n : Nat} {p q : Port} (h : q.image = p.image) : Port.Within a n p q :=
  ⟨by rw [h], by rw [h]; exact id, by intros; rw [h]⟩

theorem Port.Within.trans {a n : Nat} {p q r : Port} (h : Port.Within a n p q) (h' : Port.Within a n q r) :
    Port.Within a n p r :=
  ⟨h'.len.trans h.len, h'.wf ∘ h.wf, fun x hx => (h'.byte x hx).trans (h.byte x hx)⟩

theorem Port.Within.mono {a n b m : Nat} {p q : Port} (h : Port.Within a n p q) (h1 : b ≤ a)
    (h2 : a + n ≤ b + m) : Port.Within b m p q :=
  ⟨h.len, h.wf, fun x hx => h.byte x (by omega)⟩

theorem memRead_within (a n b m : Nat) (p : Port) : Port.Within b m p (memRead a n p).port :=
  .of_image_eq (memRead_image a n p)

theorem memWrite_within (a : Nat) (bs : List U8) (p : Port) :
    Port.Within a bs.length p (memWrite a bs p).port := by
  obtain ⟨cs, hl, he⟩ := memWrite_image a bs p
  refine ⟨by rw [he, Image.len_writeBytes], fun h => by rw [he]; exact Image.wf_writeBytes a cs h, ?_⟩
  intro x hx
  rw [he, Image.byte_writeBytes_other a cs _ (by omega)]

end Sys2Proof.Machine
end

