-- ==== Sys2Proof/Laws/CounterMode.lean ====
section
/-! SUPPORT. What CtrXform does to the image (R255): inside the region only, and, when every access
completes, each byte XORed with its keystream byte once. -/

namespace Sys2Proof.Machine

@[simp] theorem length_keystream (kn c : U128) : (keystream kn c).length = 16 := rfl

theorem length_xorBytes (B S : List U8) : (xorBytes B S).length = min B.length S.length := by
  simp [xorBytes]

theorem getElem_xorBytes {B S : List U8} {i : Nat} (h : i < (xorBytes B S).length) :
    (xorBytes B S)[i] =
      B[i]'(by rw [length_xorBytes] at h; omega) ^^^ S[i]'(by rw [length_xorBytes] at h; omega) := by
  simp [xorBytes]

/-- One more block when bytes are left. -/
theorem blockCount_succ {len : Nat} (h : 0 < len) : blockCount len = blockCount (len - 16) + 1 := by
  simp only [blockCount]
  omega

theorem blockCount_zero : blockCount 0 = 0 := rfl

theorem nextCounter_val (c : Reg 128) : (nextCounter c).val = c.val + 1 := rfl

/-- CtrXform stays inside its region. -/
theorem ctrRegion_within (kn : U128) :
    (n a len : Nat) → (c : Reg 128) → (p : Port) → Port.Within a len p (ctrRegion kn n a len c p).2.port
  | 0, _, _, _, _ => .of_image_eq rfl
  | n + 1, a, len, c, p => by
    have hr := memRead_within a (min 16 len) a len p
    unfold ctrRegion
    split
    · next q hq => rw [hq] at hr; exact hr
    · next B q hq =>
      rw [hq] at hr
      have hB : B.length = min 16 len := by rw [(memRead_ok hq).2, Image.length_bytes]
      have hw : Port.Within a len q (memWrite a (xorBytes B (keystream kn c.val)) q).port :=
        (memWrite_within a _ q).mono (Nat.le_refl _) (by rw [length_xorBytes, hB, length_keystream]; omega)
      split
      · next q' hq' => rw [hq'] at hw; exact hr.trans hw
      · next q' hq' =>
        rw [hq'] at hw
        refine (hr.trans hw).trans ?_
        by_cases hl : 16 ≤ len
        · exact (ctrRegion_within kn n (a + 16) (len - 16) (nextCounter c) q').mono (by omega) (by omega)
        · have h0 := ctrRegion_within kn n (a + 16) (len - 16) (nextCounter c) q'
          have hz : len - 16 = 0 := by omega
          rw [hz] at h0 ⊢
          refine ⟨h0.len, h0.wf, fun x _ => h0.byte x (by omega)⟩

/-- The counter of block `n` after `c`: a write, unless no block was done. -/
def counterAfter (c : Reg 128) : Nat → Reg 128
  | 0 => c
  | n + 1 => .written (c.val + BitVec.ofNat 128 (n + 1))

@[simp] theorem counterAfter_val (c : Reg 128) (n : Nat) : (counterAfter c n).val = c.val + BitVec.ofNat 128 n := by
  cases n with
  | zero => simp [counterAfter]
  | succ n => rfl

theorem counterAfter_next (c : Reg 128) (n : Nat) : counterAfter (nextCounter c) n = counterAfter c (n + 1) := by
  cases n with
  | zero => simp [counterAfter, nextCounter]
  | succ n =>
    simp only [counterAfter, nextCounter_val]
    congr 1
    rw [BitVec.add_assoc, show (1 : U128) = BitVec.ofNat 128 1 from rfl, ← BitVec.ofNat_add]
    congr 2
    omega

/-- CtrXform over a whole region, every access completed: byte j of the region is XORed with byte
j mod 16 of the keystream of counter c + j / 16, nothing else changes, and the counter has advanced by
the number of blocks. -/
theorem ctrRegion_done (kn : U128) :
    (n : Nat) → {a len : Nat} → {c : Reg 128} → {p : Port} → {rest : List PortAnswer} → n = blockCount len →
      a + len ≤ p.image.len → p.image.wf = true → p.answers = List.replicate (2 * n) .done ++ rest →
      ∃ img : Image, ctrRegion kn n a len c p = (counterAfter c n, .ok () { p with image := img, answers := rest }) ∧
        img.len = p.image.len ∧ img.wf = true ∧
        (∀ j, j < len → img.byte (a + j) =
          p.image.byte (a + j) ^^^ (keystream kn (c.val + BitVec.ofNat 128 (j / 16))).getD (j % 16) 0) ∧
        ∀ x, x < a ∨ a + len ≤ x → img.byte x = p.image.byte x
  | 0, a, len, c, p, rest, hn, _, hw, ha => by
    refine ⟨p.image, ?_, rfl, hw, ?_, fun _ _ => rfl⟩
    · simp at ha
      obtain ⟨i, an, d⟩ := p
      simp only at ha
      subst ha
      rfl
    · intro j hj
      simp only [blockCount] at hn
      omega
  | n + 1, a, len, c, p, rest, hn, hl, hw, ha => by
    have hlen : 0 < len := by
      rcases Nat.eq_zero_or_pos len with h | h
      · subst h; simp [blockCount] at hn
      · exact h
    have hn' : n = blockCount (len - 16) := by
      have := blockCount_succ hlen
      omega
    have h2 : 2 * (n + 1) = (2 * n + 1) + 1 := by omega
    rw [h2, List.replicate_succ, List.replicate_succ, List.cons_append, List.cons_append] at ha
    have hB : (p.image.bytes a (min 16 len)).length = min 16 len := Image.length_bytes _ _ _
    have hX : (xorBytes (p.image.bytes a (min 16 len)) (keystream kn c.val)).length = min 16 len := by
      rw [length_xorBytes, hB, length_keystream]; omega
    -- the first block, written
    let img1 := p.image.writeBytes a (xorBytes (p.image.bytes a (min 16 len)) (keystream kn c.val))
    have hw1 : img1.wf = true := Image.wf_writeBytes _ _ hw
    have hl1 : img1.len = p.image.len := Image.len_writeBytes _ _ _
    have hin : ∀ j, j < min 16 len → img1.byte (a + j) =
        p.image.byte (a + j) ^^^ (keystream kn c.val).getD j 0 := by
      intro j hj
      have h := Image.byte_writeBytes_self a (xorBytes (p.image.bytes a (min 16 len)) (keystream kn c.val)) hw j
        (by omega) (by omega)
      rw [show img1.byte (a + j) = _ from h, getElem_xorBytes, Image.getElem_bytes,
        List.getD_eq_getElem _ _ (by rw [length_keystream]; omega)]
    have hout : ∀ x, x < a ∨ a + min 16 len ≤ x → img1.byte x = p.image.byte x := by
      intro x hx
      exact Image.byte_writeBytes_other a _ _ (by omega)
    have hstep : ctrRegion kn (n + 1) a len c p =
        ctrRegion kn n (a + 16) (len - 16) (nextCounter c)
          { p with image := img1, answers := List.replicate (2 * n) .done ++ rest } := by
      conv_lhs => unfold ctrRegion
      rw [memRead_done ha]
      simp only
      rw [memWrite_done rfl]
    by_cases h16 : 16 ≤ len
    · obtain ⟨img, e1, e2, e3, e4, e5⟩ := ctrRegion_done kn n (a := a + 16) (len := len - 16)
        (c := nextCounter c) (p := { p with image := img1, answers := List.replicate (2 * n) .done ++ rest })
        (rest := rest) hn' (by simp only [hl1]; omega) hw1 rfl
      refine ⟨img, ?_, e2.trans hl1, e3, ?_, ?_⟩
      · rw [hstep, e1, counterAfter_next]
      · intro j hj
        by_cases hj16 : j < 16
        · rw [e5 _ (by omega), hin j (by omega), Nat.div_eq_of_lt hj16, Nat.mod_eq_of_lt hj16]
          simp
        · have h := e4 (j - 16) (by omega)
          have ea : a + 16 + (j - 16) = a + j := by omega
          rw [ea] at h
          rw [h, hout _ (by omega)]
          have em : (j - 16) % 16 = j % 16 := by omega
          have ec : c.val + BitVec.ofNat 128 1 + BitVec.ofNat 128 ((j - 16) / 16) =
              c.val + BitVec.ofNat 128 (j / 16) := by
            rw [BitVec.add_assoc, ← BitVec.ofNat_add]
            congr 2
            omega
          rw [em, nextCounter_val, ← ec]
          rfl
      · intro x hx
        rw [e5 x (by omega), hout x (by omega)]
    · have hz : len - 16 = 0 := by omega
      have hn0 : n = 0 := by rw [hn', hz]; rfl
      subst hn0
      refine ⟨img1, ?_, hl1, hw1, ?_, ?_⟩
      · rw [hstep, ← counterAfter_next]
        rfl
      · intro j hj
        rw [hin j (by omega), Nat.div_eq_of_lt (by omega), Nat.mod_eq_of_lt (by omega)]
        simp
      · intro x hx
        exact hout x (by omega)

/-! ### Stopped by a bus error -/

/-- CtrXform over `k` whole blocks and then over the rest. -/
theorem ctrRegion_add (kn : U128) (n : Nat) :
    (k a len : Nat) → (c : Reg 128) → (p : Port) → 16 * k ≤ len →
      ctrRegion kn (k + n) a len c p =
        match ctrRegion kn k a (16 * k) c p with
        | (c', .error q) => (c', .error q)
        | (c', .ok _ q) => ctrRegion kn n (a + 16 * k) (len - 16 * k) c' q
  | 0, a, len, c, p, _ => by simp [ctrRegion]
  | k + 1, a, len, c, p, h => by
    rw [show k + 1 + n = (k + n) + 1 by omega, ctrRegion, ctrRegion, show min 16 len = 16 by omega,
      show min 16 (16 * (k + 1)) = 16 by omega]
    split
    · rfl
    · split
      · rfl
      · rw [ctrRegion_add kn n k (a + 16) (len - 16) _ _ (by omega),
          show 16 * (k + 1) - 16 = 16 * k by omega, show a + 16 + 16 * k = a + 16 * (k + 1) by omega,
          show len - 16 - 16 * k = len - 16 * (k + 1) by omega]

/-- The bus error meets the read (`n = 2k`) or the write (`n = 2k + 1`) of block k: the blocks before it are
done, nothing is written to it, or the draws are, and the counter has advanced by k. -/
theorem ctrRegion_torn (kn : U128) {n a len : Nat} {c : Reg 128} {p : Port} {torn : List U8} {rest : List PortAnswer}
    (hk : n / 2 < blockCount len) (hl : a + len ≤ p.image.len) (hw : p.image.wf = true)
    (ha : p.answers = List.replicate n .done ++ .error torn :: rest) :
    ∃ img : Image, ctrRegion kn (blockCount len) a len c p = (counterAfter c (n / 2), .error { p with
        image := img.writeBytes (a + 16 * (n / 2)) (if n % 2 = 0 then [] else torn.take (min 16 (len - 16 * (n / 2))))
        answers := rest }) ∧
      img.len = p.image.len ∧ img.wf = true ∧
      (∀ j, j < 16 * (n / 2) → img.byte (a + j) =
        p.image.byte (a + j) ^^^ (keystream kn (c.val + BitVec.ofNat 128 (j / 16))).getD (j % 16) 0) ∧
      ∀ x, x < a ∨ a + 16 * (n / 2) ≤ x → img.byte x = p.image.byte x := by
  generalize hk' : n / 2 = k at *
  have h16 : 16 * k < len := by simp only [blockCount] at hk; omega
  obtain ⟨m, hm⟩ : ∃ m, blockCount len = k + (m + 1) := ⟨blockCount len - k - 1, by omega⟩
  have ha' : p.answers = List.replicate (2 * k) .done ++ (List.replicate (n % 2) .done ++ .error torn :: rest) := by
    rw [ha, ← List.append_assoc, List.replicate_append_replicate, show 2 * k + n % 2 = n by omega]
  obtain ⟨img, e1, e⟩ := ctrRegion_done kn k (a := a) (len := 16 * k) (c := c)
    (by simp only [blockCount]; omega) (by omega) hw ha'
  refine ⟨img, ?_, e⟩
  rw [hm, ctrRegion_add kn _ k a len c p (by omega), e1]
  simp only
  rw [ctrRegion]
  rcases Nat.mod_two_eq_zero_or_one n with h | h
  · rw [h, memRead_torn rfl]
    rfl
  · rw [h, memRead_done rfl]
    simp only
    rw [memWrite_torn rfl, length_xorBytes, Image.length_bytes, length_keystream,
      show min (min 16 (len - 16 * k)) 16 = min 16 (len - 16 * k) by omega]
    rfl

end Sys2Proof.Machine
end

