-- ==== Sys2Proof/Laws/SecureArea.lean ====
section
/-! SUPPORT. What the secure-area sequences do to the image: inside 0x4000..0x47FF only (R182, R184),
and, when every access completes, each block transformed once. -/

namespace Sys2Proof.Machine

theorem length_xform (f : U32 × U32 → U32 × U32) (B : List U8) : (wordsBlock (f (blockWords B))).length = 8 := rfl

theorem saBlock_within (f : U32 × U32 → U32 × U32) (k : Nat) (p : Port) :
    Port.Within (saBlockAt k) 8 p (saBlock f k p).port := by
  have hr := memRead_within (saBlockAt k) 8 (saBlockAt k) 8 p
  unfold saBlock
  split
  · next q hq => rw [hq] at hr; exact hr
  · next B q hq =>
    rw [hq] at hr
    exact hr.trans (memWrite_within (saBlockAt k) (wordsBlock (f (blockWords B))) q)

theorem saBlocks_within (f : U32 × U32 → U32 × U32) :
    (ks : List Nat) → (p : Port) → (∀ k ∈ ks, k < 256) → Port.Within saBase 0x800 p (saBlocks f ks p).port
  | [], p, _ => .of_image_eq rfl
  | k :: ks, p, h => by
    have hk : k < 256 := h k (by simp)
    have h1 : Port.Within saBase 0x800 p (saBlock f k p).port :=
      (saBlock_within f k p).mono (by simp [saBlockAt]) (by simp only [saBlockAt]; omega)
    unfold saBlocks
    split
    · next q hq => rw [hq] at h1; exact h1
    · next q hq =>
      rw [hq] at h1
      exact h1.trans (saBlocks_within f ks q fun j hj => h j (by simp [hj]))

theorem mem_bulkBlocks {k : Nat} : k ∈ bulkBlocks ↔ 1 ≤ k ∧ k < 256 := by
  simp [bulkBlocks, List.mem_range'_1]

theorem length_bulkBlocks : bulkBlocks.length = 255 := List.length_range'

theorem nodup_bulkBlocks : bulkBlocks.Nodup := List.nodup_range'

theorem decryptArea_within (l2 l3 : Table) (w : U32 × U32) (p : Port) :
    Port.Within saBase 0x800 p (decryptArea l2 l3 w p).port := by
  have h1 : Port.Within saBase 0x800 p (memWrite saBase (wordsBlock (decryptHead l2 l3 w)) p).port :=
    (memWrite_within saBase (wordsBlock (decryptHead l2 l3 w)) p).mono (Nat.le_refl _) (by simp)
  unfold decryptArea
  split
  · next q hq => rw [hq] at h1; exact h1
  · next q hq =>
    rw [hq] at h1
    exact h1.trans (saBlocks_within _ _ _ fun k hk => (mem_bulkBlocks.1 hk).2)

theorem encryptArea_within (l2 l3 : Table) (p : Port) :
    Port.Within saBase 0x800 p (encryptArea l2 l3 p).port := by
  have h1 := saBlocks_within (onWords (blockE l3)) bulkBlocks p fun k hk => (mem_bulkBlocks.1 hk).2
  unfold encryptArea
  split
  · next q hq => rw [hq] at h1; exact h1
  · next q hq =>
    rw [hq] at h1
    exact h1.trans ((saBlock_within _ 0 q).mono (by simp [saBlockAt]) (by simp only [saBlockAt]; omega))

/-! ### Every access completed -/

/-- Block k of an image, as words (R63, R77). -/
def Image.block (img : Image) (k : Nat) : U32 × U32 := blockWords (img.bytes (saBlockAt k) 8)

theorem Image.block_congr {img img' : Image} {k : Nat}
    (h : ∀ x, saBlockAt k ≤ x → x < saBlockAt k + 8 → img.byte x = img'.byte x) : img.block k = img'.block k := by
  rw [Image.block, Image.block, Image.bytes_congr h]

theorem Image.block_writeBytes_self {img : Image} {k : Nat} (hw : img.wf = true)
    (hl : saBlockAt k + 8 ≤ img.len) (w : U32 × U32) :
    (img.writeBytes (saBlockAt k) (wordsBlock w)).block k = w := by
  have h := Image.bytes_writeBytes (a := saBlockAt k) (bs := wordsBlock w) hw hl
  rw [length_wordsBlock] at h
  rw [Image.block, h, blockWords_wordsBlock]

theorem Image.block_writeBytes_other {img : Image} {j k : Nat} (h : j ≠ k) (w : U32 × U32) :
    (img.writeBytes (saBlockAt k) (wordsBlock w)).block j = img.block j := by
  apply Image.block_congr
  intro x h1 h2
  rw [Image.byte_writeBytes_other]
  simp only [length_wordsBlock, saBlockAt] at *
  omega

/-- Blocks with equal words hold equal bytes. -/
theorem Image.byte_of_block {img img' : Image} {k : Nat} (h : img.block k = img'.block k) {x : Nat}
    (h1 : saBlockAt k ≤ x) (h2 : x < saBlockAt k + 8) : img.byte x = img'.byte x := by
  have e := congrArg wordsBlock h
  rw [Image.block, Image.block, wordsBlock_blockWords _ (by simp), wordsBlock_blockWords _ (by simp)] at e
  have hx : x - saBlockAt k < 8 := by omega
  have e' : (img.bytes (saBlockAt k) 8)[x - saBlockAt k]'(by simpa using hx) =
      (img'.bytes (saBlockAt k) 8)[x - saBlockAt k]'(by simpa using hx) := by simp only [e]
  rw [Image.getElem_bytes, Image.getElem_bytes] at e'
  rwa [Nat.add_sub_cancel' h1] at e'

theorem saBlock_done {f : U32 × U32 → U32 × U32} {k : Nat} {p : Port} {rest : List PortAnswer}
    (h : p.answers = .done :: .done :: rest) :
    saBlock f k p =
      .ok () { p with
        image := p.image.writeBytes (saBlockAt k) (wordsBlock (f (p.image.block k))), answers := rest } := by
  unfold saBlock
  rw [memRead_done h]
  simp only
  rw [memWrite_done rfl]
  rfl

/-- The blocks of a list without repeats, every access completed: each block is transformed once, and
nothing else changes. -/
theorem saBlocks_done {f : U32 × U32 → U32 × U32} (ks : List Nat) {p : Port} {rest : List PortAnswer}
    (hn : ks.Nodup) (hl : ∀ k ∈ ks, saBlockAt k + 8 ≤ p.image.len) (hw : p.image.wf = true)
    (ha : p.answers = List.replicate (2 * ks.length) .done ++ rest) :
    ∃ img : Image, saBlocks f ks p = .ok () { p with image := img, answers := rest } ∧
      img.len = p.image.len ∧ img.wf = true ∧
      (∀ k ∈ ks, img.block k = f (p.image.block k)) ∧
      ∀ x, (∀ k ∈ ks, x < saBlockAt k ∨ saBlockAt k + 8 ≤ x) → img.byte x = p.image.byte x := by
  induction ks generalizing p with
  | nil =>
    refine ⟨p.image, ?_, rfl, hw, by simp, by simp⟩
    simp only [List.length_nil, Nat.mul_zero, List.replicate_zero, List.nil_append] at ha
    rw [← ha]
    rfl
  | cons k ks ih =>
    rw [List.nodup_cons] at hn
    have h2 : 2 * (k :: ks).length = (2 * ks.length + 1) + 1 := by rw [List.length_cons]; omega
    rw [h2, List.replicate_succ, List.replicate_succ, List.cons_append, List.cons_append] at ha
    have hk : saBlockAt k + 8 ≤ p.image.len := hl k (by simp)
    have hne : ∀ j ∈ ks, j ≠ k := by
      rintro j hj rfl
      exact hn.1 hj
    generalize hi : p.image.writeBytes (saBlockAt k) (wordsBlock (f (p.image.block k))) = img1
    have hlen : img1.len = p.image.len := by rw [← hi, Image.len_writeBytes]
    have hl' : ∀ j ∈ ks, saBlockAt j + 8 ≤ img1.len := fun j hj => hlen.symm ▸ hl j (List.mem_cons_of_mem k hj)
    have hw' : img1.wf = true := hi ▸ Image.wf_writeBytes _ _ hw
    obtain ⟨img, h1, h2, h3, h4, h5⟩ := ih
      (p := { p with image := img1, answers := List.replicate (2 * ks.length) .done ++ rest })
      hn.2 hl' hw' rfl
    refine ⟨img, ?_, h2.trans hlen, h3, ?_, ?_⟩
    · unfold saBlocks
      rw [saBlock_done ha, hi]
      exact h1
    · intro j hj
      rcases List.mem_cons.1 hj with rfl | hj
      · rw [← Image.block_writeBytes_self hw hk (f (p.image.block j)), hi]
        apply Image.block_congr
        intro x hx1 hx2
        apply h5
        intro i hi
        have := hne i hi
        simp only [saBlockAt] at *
        omega
      · rw [h4 j hj, ← hi, Image.block_writeBytes_other (hne j hj)]
    · intro x hx
      have hxk := hx k List.mem_cons_self
      rw [h5 x fun j hj => hx j (List.mem_cons_of_mem k hj), ← hi, Image.byte_writeBytes_other]
      rw [length_wordsBlock]
      exact hxk

/-! ### Stopped by a bus error -/

theorem saBlocks_append (f : U32 × U32 → U32 × U32) (js : List Nat) :
    (ks : List Nat) → (p : Port) → saBlocks f (ks ++ js) p =
      match saBlocks f ks p with
      | .error q => .error q
      | .ok _ q => saBlocks f js q
  | [], _ => rfl
  | k :: ks, p => by
    rw [List.cons_append, saBlocks, saBlocks]
    split
    · rfl
    · exact saBlocks_append f js ks _

/-- A block whose read (`n = 0`) or whose write (`n = 1`) meets the bus error: nothing is written, or the
draws are. -/
theorem saBlock_torn {f : U32 × U32 → U32 × U32} {k n : Nat} {p : Port} {torn : List U8} {rest : List PortAnswer}
    (hn : n = 0 ∨ n = 1) (h : p.answers = List.replicate n .done ++ .error torn :: rest) :
    saBlock f k p = .error { p with
      image := p.image.writeBytes (saBlockAt k) (if n = 0 then [] else torn.take 8), answers := rest } := by
  rcases hn with rfl | rfl
  · rw [saBlock, memRead_torn h]
    rfl
  · rw [saBlock, memRead_done h]
    exact memWrite_torn rfl

/-- The bus error meets the read (`n` even) or the write (`n` odd) of the block after those of `ks`: they are
done, and `saBlock_torn` says the rest. -/
theorem saBlocks_torn {f : U32 × U32 → U32 × U32} (ks js : List Nat) {k n : Nat} {p : Port} {torn : List U8}
    {rest : List PortAnswer} (hn : ks.Nodup) (hl : ∀ j ∈ ks, saBlockAt j + 8 ≤ p.image.len) (hw : p.image.wf = true)
    (hk : n / 2 = ks.length) (ha : p.answers = List.replicate n .done ++ .error torn :: rest) :
    ∃ img : Image, saBlocks f (ks ++ k :: js) p = .error { p with
        image := img.writeBytes (saBlockAt k) (if n % 2 = 0 then [] else torn.take 8), answers := rest } ∧
      img.len = p.image.len ∧ img.wf = true ∧
      (∀ j ∈ ks, img.block j = f (p.image.block j)) ∧
      ∀ x, (∀ j ∈ ks, x < saBlockAt j ∨ saBlockAt j + 8 ≤ x) → img.byte x = p.image.byte x := by
  have h2 : n = 2 * ks.length + n % 2 := by omega
  have ha' : p.answers = List.replicate (2 * ks.length) .done ++ (List.replicate (n % 2) .done ++ .error torn :: rest) := by
    rw [ha, ← List.append_assoc, List.replicate_append_replicate, ← h2]
  obtain ⟨img, e1, e⟩ := saBlocks_done (f := f) ks hn hl hw ha'
  refine ⟨img, ?_, e⟩
  rw [saBlocks_append, e1]
  simp only
  rw [saBlocks, saBlock_torn (n := n % 2) (by omega) rfl]

end Sys2Proof.Machine
end

