-- ==== Sys2Proof/Laws/State.lean ====
section
/-! SUPPORT. One lemma per field per update of State, each true by rfl, so that no proof unfolds a
record update. -/

namespace Sys2Proof.Machine

/-! ### withResult -/

@[simp] theorem State.withResult_gamecode (c : Code) (s : State) : (s.withResult c).gamecode = s.gamecode := rfl
@[simp] theorem State.withResult_blkA (c : Code) (s : State) : (s.withResult c).blkA = s.blkA := rfl
@[simp] theorem State.withResult_blkB (c : Code) (s : State) : (s.withResult c).blkB = s.blkB := rfl
@[simp] theorem State.withResult_w0 (c : Code) (s : State) : (s.withResult c).w0 = s.w0 := rfl
@[simp] theorem State.withResult_w1 (c : Code) (s : State) : (s.withResult c).w1 = s.w1 := rfl
@[simp] theorem State.withResult_w2 (c : Code) (s : State) : (s.withResult c).w2 = s.w2 := rfl
@[simp] theorem State.withResult_regOff (c : Code) (s : State) : (s.withResult c).regOff = s.regOff := rfl
@[simp] theorem State.withResult_regLen (c : Code) (s : State) : (s.withResult c).regLen = s.regLen := rfl
@[simp] theorem State.withResult_method (c : Code) (s : State) : (s.withResult c).method = s.method := rfl
@[simp] theorem State.withResult_ctrId (c : Code) (s : State) : (s.withResult c).ctrId = s.ctrId := rfl
@[simp] theorem State.withResult_keyX (c : Code) (s : State) : (s.withResult c).keyX = s.keyX := rfl
@[simp] theorem State.withResult_keyY (c : Code) (s : State) : (s.withResult c).keyY = s.keyY := rfl
@[simp] theorem State.withResult_kn (c : Code) (s : State) : (s.withResult c).kn = s.kn := rfl
@[simp] theorem State.withResult_ctr (c : Code) (s : State) : (s.withResult c).ctr = s.ctr := rfl
@[simp] theorem State.withResult_kstream (c : Code) (s : State) : (s.withResult c).kstream = s.kstream := rfl
@[simp] theorem State.withResult_kstage (c : Code) (s : State) : (s.withResult c).kstage = s.kstage := rfl
@[simp] theorem State.withResult_kstageWr (c : Code) (s : State) : (s.withResult c).kstageWr = s.kstageWr := rfl
@[simp] theorem State.withResult_result (c : Code) (s : State) : (s.withResult c).result = c := rfl
@[simp] theorem State.withResult_ksState (c : Code) (s : State) : (s.withResult c).ksState = s.ksState := rfl
@[simp] theorem State.withResult_ktValid (c : Code) (s : State) : (s.withResult c).ktValid = s.ktValid := rfl
@[simp] theorem State.withResult_saDec (c : Code) (s : State) : (s.withResult c).saDec = s.saDec := rfl
@[simp] theorem State.withResult_busy (c : Code) (s : State) : (s.withResult c).busy = false := rfl
@[simp] theorem State.withResult_table (c : Code) (s : State) : (s.withResult c).table = s.table := rfl
@[simp] theorem State.withResult_store (c : Code) (s : State) : (s.withResult c).store = s.store := rfl
@[simp] theorem State.withResult_params (c : Code) (s : State) : (s.withResult c).params = s.params := rfl
@[simp] theorem State.withResult_port (c : Code) (s : State) : (s.withResult c).port = s.port := rfl
@[simp] theorem State.withResult_pending (c : Code) (s : State) : (s.withResult c).pending = s.pending := rfl
@[simp] theorem State.withResult_pc (c : Code) (s : State) : (s.withResult c).pc = s.pc := rfl
@[simp] theorem State.withResult_returned (c : Code) (s : State) : (s.withResult c).returned = s.returned := rfl

/-! ### setSchedule -/

@[simp] theorem State.setSchedule_gamecode (k : Schedule) (s : State) : (s.setSchedule k).gamecode = s.gamecode := rfl
@[simp] theorem State.setSchedule_blkA (k : Schedule) (s : State) : (s.setSchedule k).blkA = s.blkA := rfl
@[simp] theorem State.setSchedule_blkB (k : Schedule) (s : State) : (s.setSchedule k).blkB = s.blkB := rfl
@[simp] theorem State.setSchedule_w0 (k : Schedule) (s : State) : (s.setSchedule k).w0 = .written k.w0 := rfl
@[simp] theorem State.setSchedule_w1 (k : Schedule) (s : State) : (s.setSchedule k).w1 = .written k.w1 := rfl
@[simp] theorem State.setSchedule_w2 (k : Schedule) (s : State) : (s.setSchedule k).w2 = .written k.w2 := rfl
@[simp] theorem State.setSchedule_regOff (k : Schedule) (s : State) : (s.setSchedule k).regOff = s.regOff := rfl
@[simp] theorem State.setSchedule_regLen (k : Schedule) (s : State) : (s.setSchedule k).regLen = s.regLen := rfl
@[simp] theorem State.setSchedule_method (k : Schedule) (s : State) : (s.setSchedule k).method = s.method := rfl
@[simp] theorem State.setSchedule_ctrId (k : Schedule) (s : State) : (s.setSchedule k).ctrId = s.ctrId := rfl
@[simp] theorem State.setSchedule_keyX (k : Schedule) (s : State) : (s.setSchedule k).keyX = s.keyX := rfl
@[simp] theorem State.setSchedule_keyY (k : Schedule) (s : State) : (s.setSchedule k).keyY = s.keyY := rfl
@[simp] theorem State.setSchedule_kn (k : Schedule) (s : State) : (s.setSchedule k).kn = s.kn := rfl
@[simp] theorem State.setSchedule_ctr (k : Schedule) (s : State) : (s.setSchedule k).ctr = s.ctr := rfl
@[simp] theorem State.setSchedule_kstream (k : Schedule) (s : State) : (s.setSchedule k).kstream = s.kstream := rfl
@[simp] theorem State.setSchedule_kstage (k : Schedule) (s : State) : (s.setSchedule k).kstage = s.kstage := rfl
@[simp] theorem State.setSchedule_kstageWr (k : Schedule) (s : State) : (s.setSchedule k).kstageWr = s.kstageWr := rfl
@[simp] theorem State.setSchedule_result (k : Schedule) (s : State) : (s.setSchedule k).result = s.result := rfl
@[simp] theorem State.setSchedule_ksState (k : Schedule) (s : State) : (s.setSchedule k).ksState = s.ksState := rfl
@[simp] theorem State.setSchedule_ktValid (k : Schedule) (s : State) : (s.setSchedule k).ktValid = s.ktValid := rfl
@[simp] theorem State.setSchedule_saDec (k : Schedule) (s : State) : (s.setSchedule k).saDec = s.saDec := rfl
@[simp] theorem State.setSchedule_busy (k : Schedule) (s : State) : (s.setSchedule k).busy = s.busy := rfl
@[simp] theorem State.setSchedule_table (k : Schedule) (s : State) : (s.setSchedule k).table = k.table := rfl
@[simp] theorem State.setSchedule_store (k : Schedule) (s : State) : (s.setSchedule k).store = s.store := rfl
@[simp] theorem State.setSchedule_params (k : Schedule) (s : State) : (s.setSchedule k).params = s.params := rfl
@[simp] theorem State.setSchedule_port (k : Schedule) (s : State) : (s.setSchedule k).port = s.port := rfl
@[simp] theorem State.setSchedule_pending (k : Schedule) (s : State) : (s.setSchedule k).pending = s.pending := rfl
@[simp] theorem State.setSchedule_pc (k : Schedule) (s : State) : (s.setSchedule k).pc = s.pc := rfl
@[simp] theorem State.setSchedule_returned (k : Schedule) (s : State) : (s.setSchedule k).returned = s.returned := rfl

/-! ### loseSchedule -/

@[simp] theorem State.loseSchedule_gamecode (s : State) : (s.loseSchedule).gamecode = s.gamecode := rfl
@[simp] theorem State.loseSchedule_blkA (s : State) : (s.loseSchedule).blkA = s.blkA := rfl
@[simp] theorem State.loseSchedule_blkB (s : State) : (s.loseSchedule).blkB = s.blkB := rfl
@[simp] theorem State.loseSchedule_w0 (s : State) : (s.loseSchedule).w0 = ⟨Config.freeWord s.port.draws, true⟩ := rfl
@[simp] theorem State.loseSchedule_w1 (s : State) : (s.loseSchedule).w1 = ⟨Config.freeWord (s.port.draws + 1), true⟩ := rfl
@[simp] theorem State.loseSchedule_w2 (s : State) : (s.loseSchedule).w2 = ⟨Config.freeWord (s.port.draws + 2), true⟩ := rfl
@[simp] theorem State.loseSchedule_regOff (s : State) : (s.loseSchedule).regOff = s.regOff := rfl
@[simp] theorem State.loseSchedule_regLen (s : State) : (s.loseSchedule).regLen = s.regLen := rfl
@[simp] theorem State.loseSchedule_method (s : State) : (s.loseSchedule).method = s.method := rfl
@[simp] theorem State.loseSchedule_ctrId (s : State) : (s.loseSchedule).ctrId = s.ctrId := rfl
@[simp] theorem State.loseSchedule_keyX (s : State) : (s.loseSchedule).keyX = s.keyX := rfl
@[simp] theorem State.loseSchedule_keyY (s : State) : (s.loseSchedule).keyY = s.keyY := rfl
@[simp] theorem State.loseSchedule_kn (s : State) : (s.loseSchedule).kn = s.kn := rfl
@[simp] theorem State.loseSchedule_ctr (s : State) : (s.loseSchedule).ctr = s.ctr := rfl
@[simp] theorem State.loseSchedule_kstream (s : State) : (s.loseSchedule).kstream = s.kstream := rfl
@[simp] theorem State.loseSchedule_kstage (s : State) : (s.loseSchedule).kstage = s.kstage := rfl
@[simp] theorem State.loseSchedule_kstageWr (s : State) : (s.loseSchedule).kstageWr = s.kstageWr := rfl
@[simp] theorem State.loseSchedule_result (s : State) : (s.loseSchedule).result = s.result := rfl
@[simp] theorem State.loseSchedule_ksState (s : State) : (s.loseSchedule).ksState = s.ksState := rfl
@[simp] theorem State.loseSchedule_ktValid (s : State) : (s.loseSchedule).ktValid = false := rfl
@[simp] theorem State.loseSchedule_saDec (s : State) : (s.loseSchedule).saDec = s.saDec := rfl
@[simp] theorem State.loseSchedule_busy (s : State) : (s.loseSchedule).busy = s.busy := rfl
@[simp] theorem State.loseSchedule_table (s : State) : (s.loseSchedule).table = Config.freeTable s.port.draws := rfl
@[simp] theorem State.loseSchedule_store (s : State) : (s.loseSchedule).store = s.store := rfl
@[simp] theorem State.loseSchedule_params (s : State) : (s.loseSchedule).params = s.params := rfl
@[simp] theorem State.loseSchedule_port (s : State) : (s.loseSchedule).port = { s.port with draws := s.port.draws + 3 } := rfl
@[simp] theorem State.loseSchedule_pending (s : State) : (s.loseSchedule).pending = s.pending := rfl
@[simp] theorem State.loseSchedule_pc (s : State) : (s.loseSchedule).pc = s.pc := rfl
@[simp] theorem State.loseSchedule_returned (s : State) : (s.loseSchedule).returned = s.returned := rfl

/-! ### powerOn -/

@[simp] theorem State.powerOn_gamecode (s : State) : (s.powerOn).gamecode = State.reset.gamecode := rfl
@[simp] theorem State.powerOn_blkA (s : State) : (s.powerOn).blkA = State.reset.blkA := rfl
@[simp] theorem State.powerOn_blkB (s : State) : (s.powerOn).blkB = State.reset.blkB := rfl
@[simp] theorem State.powerOn_w0 (s : State) : (s.powerOn).w0 = State.reset.w0 := rfl
@[simp] theorem State.powerOn_w1 (s : State) : (s.powerOn).w1 = State.reset.w1 := rfl
@[simp] theorem State.powerOn_w2 (s : State) : (s.powerOn).w2 = State.reset.w2 := rfl
@[simp] theorem State.powerOn_regOff (s : State) : (s.powerOn).regOff = State.reset.regOff := rfl
@[simp] theorem State.powerOn_regLen (s : State) : (s.powerOn).regLen = State.reset.regLen := rfl
@[simp] theorem State.powerOn_method (s : State) : (s.powerOn).method = State.reset.method := rfl
@[simp] theorem State.powerOn_ctrId (s : State) : (s.powerOn).ctrId = State.reset.ctrId := rfl
@[simp] theorem State.powerOn_keyX (s : State) : (s.powerOn).keyX = State.reset.keyX := rfl
@[simp] theorem State.powerOn_keyY (s : State) : (s.powerOn).keyY = State.reset.keyY := rfl
@[simp] theorem State.powerOn_kn (s : State) : (s.powerOn).kn = State.reset.kn := rfl
@[simp] theorem State.powerOn_ctr (s : State) : (s.powerOn).ctr = State.reset.ctr := rfl
@[simp] theorem State.powerOn_kstream (s : State) : (s.powerOn).kstream = State.reset.kstream := rfl
@[simp] theorem State.powerOn_kstage (s : State) : (s.powerOn).kstage = State.reset.kstage := rfl
@[simp] theorem State.powerOn_kstageWr (s : State) : (s.powerOn).kstageWr = State.reset.kstageWr := rfl
@[simp] theorem State.powerOn_result (s : State) : (s.powerOn).result = State.reset.result := rfl
@[simp] theorem State.powerOn_ksState (s : State) : (s.powerOn).ksState = State.reset.ksState := rfl
@[simp] theorem State.powerOn_ktValid (s : State) : (s.powerOn).ktValid = State.reset.ktValid := rfl
@[simp] theorem State.powerOn_saDec (s : State) : (s.powerOn).saDec = State.reset.saDec := rfl
@[simp] theorem State.powerOn_busy (s : State) : (s.powerOn).busy = State.reset.busy := rfl
@[simp] theorem State.powerOn_table (s : State) : (s.powerOn).table = State.reset.table := rfl
@[simp] theorem State.powerOn_store (s : State) : (s.powerOn).store = State.reset.store := rfl
@[simp] theorem State.powerOn_params (s : State) : (s.powerOn).params = s.params := rfl
@[simp] theorem State.powerOn_port (s : State) : (s.powerOn).port = s.port := rfl
@[simp] theorem State.powerOn_pending (s : State) : (s.powerOn).pending = s.pending := rfl
@[simp] theorem State.powerOn_pc (s : State) : (s.powerOn).pc = s.pc := rfl
@[simp] theorem State.powerOn_returned (s : State) : (s.powerOn).returned = s.returned := rfl

/-! ### takeAction -/

@[simp] theorem State.takeAction_gamecode (rest : List HostAction) (s : State) : (s.takeAction rest).gamecode = s.gamecode := rfl
@[simp] theorem State.takeAction_blkA (rest : List HostAction) (s : State) : (s.takeAction rest).blkA = s.blkA := rfl
@[simp] theorem State.takeAction_blkB (rest : List HostAction) (s : State) : (s.takeAction rest).blkB = s.blkB := rfl
@[simp] theorem State.takeAction_w0 (rest : List HostAction) (s : State) : (s.takeAction rest).w0 = s.w0 := rfl
@[simp] theorem State.takeAction_w1 (rest : List HostAction) (s : State) : (s.takeAction rest).w1 = s.w1 := rfl
@[simp] theorem State.takeAction_w2 (rest : List HostAction) (s : State) : (s.takeAction rest).w2 = s.w2 := rfl
@[simp] theorem State.takeAction_regOff (rest : List HostAction) (s : State) : (s.takeAction rest).regOff = s.regOff := rfl
@[simp] theorem State.takeAction_regLen (rest : List HostAction) (s : State) : (s.takeAction rest).regLen = s.regLen := rfl
@[simp] theorem State.takeAction_method (rest : List HostAction) (s : State) : (s.takeAction rest).method = s.method := rfl
@[simp] theorem State.takeAction_ctrId (rest : List HostAction) (s : State) : (s.takeAction rest).ctrId = s.ctrId := rfl
@[simp] theorem State.takeAction_keyX (rest : List HostAction) (s : State) : (s.takeAction rest).keyX = s.keyX := rfl
@[simp] theorem State.takeAction_keyY (rest : List HostAction) (s : State) : (s.takeAction rest).keyY = s.keyY := rfl
@[simp] theorem State.takeAction_kn (rest : List HostAction) (s : State) : (s.takeAction rest).kn = s.kn := rfl
@[simp] theorem State.takeAction_ctr (rest : List HostAction) (s : State) : (s.takeAction rest).ctr = s.ctr := rfl
@[simp] theorem State.takeAction_kstream (rest : List HostAction) (s : State) : (s.takeAction rest).kstream = s.kstream := rfl
@[simp] theorem State.takeAction_kstage (rest : List HostAction) (s : State) : (s.takeAction rest).kstage = s.kstage := rfl
@[simp] theorem State.takeAction_kstageWr (rest : List HostAction) (s : State) : (s.takeAction rest).kstageWr = s.kstageWr := rfl
@[simp] theorem State.takeAction_result (rest : List HostAction) (s : State) : (s.takeAction rest).result = s.result := rfl
@[simp] theorem State.takeAction_ksState (rest : List HostAction) (s : State) : (s.takeAction rest).ksState = s.ksState := rfl
@[simp] theorem State.takeAction_ktValid (rest : List HostAction) (s : State) : (s.takeAction rest).ktValid = s.ktValid := rfl
@[simp] theorem State.takeAction_saDec (rest : List HostAction) (s : State) : (s.takeAction rest).saDec = s.saDec := rfl
@[simp] theorem State.takeAction_busy (rest : List HostAction) (s : State) : (s.takeAction rest).busy = s.busy := rfl
@[simp] theorem State.takeAction_table (rest : List HostAction) (s : State) : (s.takeAction rest).table = s.table := rfl
@[simp] theorem State.takeAction_store (rest : List HostAction) (s : State) : (s.takeAction rest).store = s.store := rfl
@[simp] theorem State.takeAction_params (rest : List HostAction) (s : State) : (s.takeAction rest).params = s.params := rfl
@[simp] theorem State.takeAction_port (rest : List HostAction) (s : State) : (s.takeAction rest).port = s.port := rfl
@[simp] theorem State.takeAction_pending (rest : List HostAction) (s : State) : (s.takeAction rest).pending = rest := rfl
@[simp] theorem State.takeAction_pc (rest : List HostAction) (s : State) : (s.takeAction rest).pc = s.pc + 1 := rfl
@[simp] theorem State.takeAction_returned (rest : List HostAction) (s : State) : (s.takeAction rest).returned = s.returned := rfl

/-! ### The parts of a schedule and of a register -/

@[simp] theorem State.schedule_table (s : State) : s.schedule.table = s.table := rfl
@[simp] theorem State.schedule_w0 (s : State) : s.schedule.w0 = s.w0.val := rfl
@[simp] theorem State.schedule_w1 (s : State) : s.schedule.w1 = s.w1.val := rfl
@[simp] theorem State.schedule_w2 (s : State) : s.schedule.w2 = s.w2.val := rfl
@[simp] theorem State.schedule_setSchedule (k : Schedule) (s : State) : (s.setSchedule k).schedule = k := rfl
@[simp] theorem Reg.written_val {w : Nat} (v : BitVec w) : (Reg.written v).val = v := rfl
@[simp] theorem Reg.written_undef {w : Nat} (v : BitVec w) : (Reg.written v).undef = false := rfl
@[simp] theorem Reg.atReset_val (w : Nat) : (Reg.atReset w).val = 0 := rfl
@[simp] theorem Reg.atReset_undef (w : Nat) : (Reg.atReset w).undef = true := rfl
@[simp] theorem advance_table (k : Schedule) : (advance k).table = k.table := rfl
@[simp] theorem advance_w0 (k : Schedule) : (advance k).w0 = k.w0 := rfl
@[simp] theorem advance_w1 (k : Schedule) : (advance k).w1 = k.w1 <<< 1 := rfl
@[simp] theorem advance_w2 (k : Schedule) : (advance k).w2 = k.w2 >>> 1 := rfl

end Sys2Proof.Machine
end

