-- ==== Sys2Proof/Laws/Exec.lean ====
section
/-! SUPPORT. Everything each command with more than one exit can do, said once: which exit, under which
condition. -/

namespace Sys2Proof.Machine

theorem raise_eq (c : Code) (s : State) : raise c s = .next (s.withResult c) := rfl

theorem finish_eq (s : State) : finish s = .next (s.withResult .ok) := rfl

/-- The three words R93 lets a tag be. -/
theorem regionOf_eq_none {tag : BitVec 2} : regionOf tag = none ↔ tag = 3 := by
  revert tag
  decide

/-- SA.DETECT: too short, a bus error, or a verdict (R181). -/
theorem execSaDetect_cases (s : State) :
    (s.port.image.len < 0x4008 ∧ execSaDetect s = .next (s.withResult .ioFail)) ∨
    (∃ q, 0x4008 ≤ s.port.image.len ∧ memRead saBase 8 s.port = .error q ∧
      execSaDetect s = .next (State.withResult .ioFail { s with port := q })) ∨
    ∃ B q, 0x4008 ≤ s.port.image.len ∧ memRead saBase 8 s.port = .ok B q ∧
      execSaDetect s = .next (State.withResult .ok { s with port := q, saDec := isDec (blockWords B) }) := by
  unfold execSaDetect
  by_cases h : s.port.image.len < 0x4008
  · exact .inl ⟨h, by rw [if_pos h]; rfl⟩
  · rw [if_neg h]
    rcases hr : memRead saBase 8 s.port with ⟨B, q⟩ | ⟨q⟩
    · exact .inr (.inr ⟨B, q, by omega, rfl, rfl⟩)
    · exact .inr (.inl ⟨q, by omega, rfl, rfl⟩)

/-- SA.XFORM's entry: too short, a bus error on the peek, ALREADY, or on to the transform (R182, R184). -/
theorem saEnter_cases (already : Bool) (s : State) (go : U32 × U32 → State → Result) :
    (s.port.image.len < 0x4800 ∧ saEnter already s go = .next (s.withResult .ioFail)) ∨
    (∃ q, 0x4800 ≤ s.port.image.len ∧ memRead saBase 8 s.port = .error q ∧
      saEnter already s go = .next (State.withResult .ioFail { s with port := q })) ∨
    (∃ B q, 0x4800 ≤ s.port.image.len ∧ memRead saBase 8 s.port = .ok B q ∧ isDec (blockWords B) = already ∧
      saEnter already s go = .next (State.withResult .already { s with port := q, saDec := already })) ∨
    ∃ B q, 0x4800 ≤ s.port.image.len ∧ memRead saBase 8 s.port = .ok B q ∧ isDec (blockWords B) = !already ∧
      saEnter already s go = go (blockWords B) { s with port := q, saDec := !already } := by
  unfold saEnter
  by_cases h : s.port.image.len < 0x4800
  · exact .inl ⟨h, by rw [if_pos h]; rfl⟩
  · rw [if_neg h]
    have hl : 0x4800 ≤ s.port.image.len := by omega
    rcases hr : memRead saBase 8 s.port with ⟨B, q⟩ | ⟨q⟩
    · by_cases hv : isDec (blockWords B) = already
      · exact .inr (.inr (.inl ⟨B, q, hl, rfl, hv, by simp only [hv, if_true]; rfl⟩))
      · have hv' : isDec (blockWords B) = !already := Bool.eq_not.2 hv
        refine .inr (.inr (.inr ⟨B, q, hl, rfl, hv', ?_⟩))
        simp only [hv']
        rw [if_neg (by simp)]
    · exact .inr (.inl ⟨q, hl, rfl, rfl⟩)

/-- SA.XFORM's end: OK with the schedule left, or IO_FAIL with it lost (R186). -/
theorem saLeave_cases (k : Schedule) (s : State) (a : Access Unit) :
    (∃ q, a = .ok () q ∧
      saLeave k s a = .next (State.withResult .ok { { s with port := q }.setSchedule k with ktValid := true })) ∨
    ∃ q, a = .error q ∧ saLeave k s a = .next (State.withResult .ioFail { s with port := q }.loseSchedule) := by
  rcases a with ⟨⟨⟩, q⟩ | ⟨q⟩
  · exact .inl ⟨q, rfl, rfl⟩
  · exact .inr ⟨q, rfl, rfl⟩

/-! The schedules and tables stand as variables here, so that no proof compares or unfolds the 521 encrypts
behind them. -/

/-- KT.INIT1, its schedule named (R146). -/
theorem execKtInit1_cases (s : State) : ∃ k : Schedule, k = init1 s.params.seed s.gamecode.val ∧
    execKtInit1 s = .next (State.withResult .ok { s.setSchedule k with ktValid := true }) := ⟨_, rfl, rfl⟩

/-- KT.INIT2, its schedule named (R147). -/
theorem execKtInit2_cases (s : State) : ∃ k : Schedule, k = init2 s.schedule ∧
    ((s.ktValid = false ∧ execKtInit2 s = .next (s.withResult .tableNotInit)) ∨
      (s.ktValid = true ∧ execKtInit2 s = .next ((s.setSchedule k).withResult .ok))) := by
  refine ⟨_, rfl, ?_⟩
  unfold execKtInit2
  rcases s.ktValid with _ | _
  · exact .inl ⟨rfl, rfl⟩
  · exact .inr ⟨rfl, rfl⟩

/-- KT.UPDATE, its table named (R148). -/
theorem execKtUpdate_cases (s : State) : ∃ T : Table, T = updateTable (serialiseW s.w0.val s.w1.val s.w2.val) s.table ∧
    ((s.ktValid = false ∧ execKtUpdate s = .next (s.withResult .tableNotInit)) ∨
      (s.ktValid = true ∧ execKtUpdate s = .next (State.withResult .ok { s with table := T }))) := by
  refine ⟨_, rfl, ?_⟩
  unfold execKtUpdate
  rcases s.ktValid with _ | _
  · exact .inl ⟨rfl, rfl⟩
  · exact .inr ⟨rfl, rfl⟩

/-- SA.DEC, its level-2 and level-3 schedules named: too short, a bus error on the peek, ALREADY, done, or a
late bus error (R182, R186). -/
theorem execSaDec_cases (s : State) : ∃ k2 k3 : Schedule, k2 = init1 s.params.seed s.gamecode.val ∧ k3 = primed k2 ∧
    ((s.port.image.len < 0x4800 ∧ execSaDec s = .next (s.withResult .ioFail)) ∨
    (∃ q, 0x4800 ≤ s.port.image.len ∧ memRead saBase 8 s.port = .error q ∧
      execSaDec s = .next (State.withResult .ioFail { s with port := q })) ∨
    (∃ B q, 0x4800 ≤ s.port.image.len ∧ memRead saBase 8 s.port = .ok B q ∧ isDec (blockWords B) = true ∧
      execSaDec s = .next (State.withResult .already { s with port := q, saDec := true })) ∨
    (∃ B q q', 0x4800 ≤ s.port.image.len ∧ memRead saBase 8 s.port = .ok B q ∧ isDec (blockWords B) = false ∧
      decryptArea k2.table k3.table (blockWords B) q = .ok () q' ∧
      execSaDec s = .next (State.withResult .ok
        { State.setSchedule k3 { s with port := q', saDec := false } with ktValid := true })) ∨
    ∃ B q q', 0x4800 ≤ s.port.image.len ∧ memRead saBase 8 s.port = .ok B q ∧ isDec (blockWords B) = false ∧
      decryptArea k2.table k3.table (blockWords B) q = .error q' ∧
      execSaDec s = .next (State.withResult .ioFail (State.loseSchedule { s with port := q', saDec := false }))) := by
  refine ⟨_, _, rfl, rfl, ?_⟩
  unfold execSaDec
  obtain h | h | h | ⟨B, q, hl, hr, hv, h⟩ := saEnter_cases true s _
  · exact .inl h
  · exact .inr (.inl h)
  · exact .inr (.inr (.inl h))
  · obtain ⟨q', e, h'⟩ | ⟨q', e, h'⟩ := saLeave_cases _ _ _
    · exact .inr (.inr (.inr (.inl ⟨B, q, q', hl, hr, hv, e, h.trans h'⟩)))
    · exact .inr (.inr (.inr (.inr ⟨B, q, q', hl, hr, hv, e, h.trans h'⟩)))

/-- SA.ENC likewise; it leaves level 2 (R184, R186). -/
theorem execSaEnc_cases (s : State) : ∃ k2 k3 : Schedule, k2 = init1 s.params.seed s.gamecode.val ∧ k3 = primed k2 ∧
    ((s.port.image.len < 0x4800 ∧ execSaEnc s = .next (s.withResult .ioFail)) ∨
    (∃ q, 0x4800 ≤ s.port.image.len ∧ memRead saBase 8 s.port = .error q ∧
      execSaEnc s = .next (State.withResult .ioFail { s with port := q })) ∨
    (∃ B q, 0x4800 ≤ s.port.image.len ∧ memRead saBase 8 s.port = .ok B q ∧ isDec (blockWords B) = false ∧
      execSaEnc s = .next (State.withResult .already { s with port := q, saDec := false })) ∨
    (∃ B q q', 0x4800 ≤ s.port.image.len ∧ memRead saBase 8 s.port = .ok B q ∧ isDec (blockWords B) = true ∧
      encryptArea k2.table k3.table q = .ok () q' ∧
      execSaEnc s = .next (State.withResult .ok
        { State.setSchedule k2 { s with port := q', saDec := true } with ktValid := true })) ∨
    ∃ B q q', 0x4800 ≤ s.port.image.len ∧ memRead saBase 8 s.port = .ok B q ∧ isDec (blockWords B) = true ∧
      encryptArea k2.table k3.table q = .error q' ∧
      execSaEnc s = .next (State.withResult .ioFail (State.loseSchedule { s with port := q', saDec := true }))) := by
  refine ⟨_, _, rfl, rfl, ?_⟩
  unfold execSaEnc
  obtain h | h | h | ⟨B, q, hl, hr, hv, h⟩ := saEnter_cases false s _
  · exact .inl h
  · exact .inr (.inl h)
  · exact .inr (.inr (.inl h))
  · obtain ⟨q', e, h'⟩ | ⟨q', e, h'⟩ := saLeave_cases _ _ _
    · exact .inr (.inr (.inr (.inl ⟨B, q, q', hl, hr, hv, e, h.trans h'⟩)))
    · exact .inr (.inr (.inr (.inr ⟨B, q, q', hl, hr, hv, e, h.trans h'⟩)))

/-- AES.KEYSEL: the store not READY, the method unknown, or a key (R213). -/
theorem execAesKeysel_cases (dev : Bool) (s : State) :
    (s.ksState ≠ .ready ∧ execAesKeysel dev s = .next (s.withResult .keystoreError)) ∨
    (s.ksState = .ready ∧ methodSlot s.params.methodMap s.method.val = none ∧
      execAesKeysel dev s = .next (s.withResult .unknownKeyslot)) ∨
    ∃ k, s.ksState = .ready ∧ methodSlot s.params.methodMap s.method.val = some k ∧
      execAesKeysel dev s =
        .next (State.withResult .ok { s with keyX := .written (selectKeyX s.store dev k) }) := by
  unfold execAesKeysel
  by_cases h : s.ksState = .ready
  · rw [if_neg (by simp [h])]
    rcases hm : methodSlot s.params.methodMap s.method.val with _ | k
    · exact .inr (.inl ⟨h, rfl, rfl⟩)
    · exact .inr (.inr ⟨k, h, rfl, rfl⟩)
  · exact .inl ⟨h, by rw [if_pos h]; rfl⟩

/-- CtrXform as a command ends it: OK, or IO_FAIL at a bus error (R256). -/
theorem ctrTransform_cases (s : State) :
    (∃ c q, ctrRegion s.kn.val (blockCount s.regLen.val.toNat) s.regOff.val.toNat s.regLen.val.toNat s.ctr s.port =
        (c, .ok () q) ∧
      ctrTransform s = .next (State.withResult .ok { s with ctr := c, port := q })) ∨
    ∃ c q, ctrRegion s.kn.val (blockCount s.regLen.val.toNat) s.regOff.val.toNat s.regLen.val.toNat s.ctr s.port =
        (c, .error q) ∧
      ctrTransform s = .next (State.withResult .ioFail { s with ctr := c, port := q }) := by
  unfold ctrTransform
  rcases hr : ctrRegion s.kn.val (blockCount s.regLen.val.toNat) s.regOff.val.toNat s.regLen.val.toNat s.ctr s.port
    with ⟨c, ⟨⟨⟩, q⟩ | ⟨q⟩⟩
  · exact .inl ⟨c, q, rfl, rfl⟩
  · exact .inr ⟨c, q, rfl, rfl⟩

theorem regionFits_iff {s : State} :
    regionFits s = true ↔ s.regOff.val.toNat + s.regLen.val.toNat ≤ s.port.image.len := by
  simp [regionFits]

/-- CTR.XFORM: out of bounds, or the transform (R256). -/
theorem execCtrXform_cases (s : State) :
    (regionFits s = false ∧ execCtrXform s = .next (s.withResult .ioFail)) ∨
    (regionFits s = true ∧ execCtrXform s = ctrTransform s) := by
  unfold execCtrXform
  rcases h : regionFits s with _ | _
  · exact .inl ⟨rfl, rfl⟩
  · exact .inr ⟨rfl, rfl⟩

/-- The state PR.XFORM transforms its region from (R258). -/
def prPrepared (s : State) (dev : Bool) (r : Region) (k : Keyslot) : State :=
  { s with
    keyX := .written (selectKeyX s.store dev k)
    kn := .written (scramble (selectKeyX s.store dev k) s.keyY.val s.store.ksc)
    ctr := .written (counterInit s.params r s.ctrId.val) }

/-- PR.XFORM: the reserved tag, the three checks in their order, or the transform (R258, R303). -/
theorem execPrXform_cases (tag : BitVec 2) (dev dir : Bool) (s : State) :
    (tag = 3 ∧ execPrXform tag dev dir s = .next (s.withResult .illegalCmd)) ∨
    ∃ r, regionOf tag = some r ∧
      ((s.ksState ≠ .ready ∧ execPrXform tag dev dir s = .next (s.withResult .keystoreError)) ∨
       (s.ksState = .ready ∧ methodSlot s.params.methodMap s.method.val = none ∧
        execPrXform tag dev dir s = .next (s.withResult .unknownKeyslot)) ∨
       ∃ k, s.ksState = .ready ∧ methodSlot s.params.methodMap s.method.val = some k ∧
        ((regionFits s = false ∧ execPrXform tag dev dir s = .next (s.withResult .ioFail)) ∨
         (regionFits s = true ∧ execPrXform tag dev dir s = ctrTransform (prPrepared s dev r k)))) := by
  unfold execPrXform
  rcases hr : regionOf tag with _ | r
  · exact .inl ⟨regionOf_eq_none.1 hr, rfl⟩
  · refine .inr ⟨r, rfl, ?_⟩
    simp only
    by_cases h : s.ksState = .ready
    · rw [if_neg (by simp [h])]
      rcases hm : methodSlot s.params.methodMap s.method.val with _ | k
      · exact .inr (.inl ⟨h, rfl, rfl⟩)
      · refine .inr (.inr ⟨k, h, rfl, ?_⟩)
        rcases hf : regionFits s with _ | _
        · exact .inl ⟨rfl, rfl⟩
        · exact .inr ⟨rfl, rfl⟩
    · exact .inl ⟨h, by rw [if_pos h]; rfl⟩

/-! ### The secure-area sequences, every access completed -/

theorem decryptArea_done {l2 l3 : Table} {w : U32 × U32} {p : Port} {rest : List PortAnswer}
    (hw : p.image.wf = true) (hl : 0x4800 ≤ p.image.len) (ha : p.answers = List.replicate 511 .done ++ rest) :
    ∃ img : Image, decryptArea l2 l3 w p = .ok () { p with image := img, answers := rest } ∧
      img.len = p.image.len ∧ img.wf = true ∧ img.block 0 = decryptHead l2 l3 w ∧
      (∀ k, 1 ≤ k → k < 256 → img.block k = onWords (blockD l3) (p.image.block k)) ∧
      ∀ x, x < 0x4000 ∨ 0x4800 ≤ x → img.byte x = p.image.byte x := by
  have h511 : List.replicate 511 PortAnswer.done =
      .done :: List.replicate (2 * bulkBlocks.length) .done := by
    rw [length_bulkBlocks, ← List.replicate_succ]
  rw [h511, List.cons_append] at ha
  generalize hi : p.image.writeBytes (saBlockAt 0) (wordsBlock (decryptHead l2 l3 w)) = img1
  have hl1 : img1.len = p.image.len := hi ▸ Image.len_writeBytes _ _ _
  have hw1 : img1.wf = true := hi ▸ Image.wf_writeBytes _ _ hw
  have hfit : ∀ k ∈ bulkBlocks, saBlockAt k + 8 ≤ img1.len := by
    intro k hk
    have := (mem_bulkBlocks.1 hk).2
    rw [hl1]
    simp only [saBlockAt, saBase]
    omega
  obtain ⟨img, e1, e2, e3, e4, e5⟩ := saBlocks_done (f := onWords (blockD l3)) bulkBlocks
    (p := { p with image := img1, answers := List.replicate (2 * bulkBlocks.length) .done ++ rest })
    (rest := rest) nodup_bulkBlocks hfit hw1 rfl
  have hblock0 : img.block 0 = img1.block 0 := by
    apply Image.block_congr
    intro x h1 h2
    apply e5
    intro k hk
    have := (mem_bulkBlocks.1 hk).1
    simp only [saBlockAt] at *
    omega
  refine ⟨img, ?_, e2.trans hl1, e3, ?_, ?_, ?_⟩
  · unfold decryptArea
    rw [show saBase = saBlockAt 0 from rfl, memWrite_done ha, hi]
    exact e1
  · rw [hblock0, ← hi, Image.block_writeBytes_self hw]
    simp only [saBlockAt, saBase]
    omega
  · intro k h1 h2
    rw [e4 k (mem_bulkBlocks.2 ⟨h1, h2⟩), ← hi, Image.block_writeBytes_other (by omega)]
  · intro x hx
    rw [e5 x, ← hi, Image.byte_writeBytes_other]
    · rw [length_wordsBlock]
      simp only [saBlockAt, saBase]
      omega
    · intro k hk
      have := mem_bulkBlocks.1 hk
      simp only [saBlockAt, saBase]
      omega

theorem encryptArea_done {l2 l3 : Table} {p : Port} {rest : List PortAnswer}
    (hw : p.image.wf = true) (hl : 0x4800 ≤ p.image.len) (ha : p.answers = List.replicate 512 .done ++ rest) :
    ∃ img : Image, encryptArea l2 l3 p = .ok () { p with image := img, answers := rest } ∧
      img.len = p.image.len ∧ img.wf = true ∧ img.block 0 = encryptHead l2 l3 (p.image.block 0) ∧
      (∀ k, 1 ≤ k → k < 256 → img.block k = onWords (blockE l3) (p.image.block k)) ∧
      ∀ x, x < 0x4000 ∨ 0x4800 ≤ x → img.byte x = p.image.byte x := by
  have h512 : List.replicate 512 PortAnswer.done ++ rest =
      List.replicate (2 * bulkBlocks.length) .done ++ (.done :: .done :: rest) := by
    have h : List.replicate 512 PortAnswer.done =
        List.replicate (2 * bulkBlocks.length) .done ++ [.done, .done] := by
      rw [show [PortAnswer.done, .done] = List.replicate 2 .done from rfl, List.replicate_append_replicate,
        length_bulkBlocks]
    rw [h, List.append_assoc]
    rfl
  rw [h512] at ha
  have hfit : ∀ k ∈ bulkBlocks, saBlockAt k + 8 ≤ p.image.len := by
    intro k hk
    have := (mem_bulkBlocks.1 hk).2
    simp only [saBlockAt, saBase]
    omega
  obtain ⟨img1, e1, e2, e3, e4, e5⟩ := saBlocks_done (f := onWords (blockE l3)) bulkBlocks
    nodup_bulkBlocks hfit hw ha
  have hblock0 : img1.block 0 = p.image.block 0 := by
    apply Image.block_congr
    intro x h1 h2
    apply e5
    intro k hk
    have := (mem_bulkBlocks.1 hk).1
    simp only [saBlockAt] at *
    omega
  generalize hi : img1.writeBytes (saBlockAt 0) (wordsBlock (encryptHead l2 l3 (p.image.block 0))) = img
  refine ⟨img, ?_, ?_, ?_, ?_, ?_, ?_⟩
  · unfold encryptArea
    rw [e1]
    simp only
    rw [saBlock_done rfl]
    simp only [hblock0, hi]
  · rw [← hi, Image.len_writeBytes, e2]
  · rw [← hi]
    exact Image.wf_writeBytes _ _ e3
  · rw [← hi, Image.block_writeBytes_self e3]
    rw [e2]
    simp only [saBlockAt, saBase]
    omega
  · intro k h1 h2
    rw [← hi, Image.block_writeBytes_other (by omega), e4 k (mem_bulkBlocks.2 ⟨h1, h2⟩)]
  · intro x hx
    rw [← hi, Image.byte_writeBytes_other, e5 x]
    · intro k hk
      have := mem_bulkBlocks.1 hk
      simp only [saBlockAt, saBase]
      omega
    · rw [length_wordsBlock]
      simp only [saBlockAt, saBase]
      omega

/-! ### The secure-area sequences, stopped by a bus error -/

theorem bulkBlocks_split {m : Nat} (h : m < 255) :
    ∃ js, bulkBlocks = List.range' 1 m ++ (m + 1) :: js :=
  ⟨List.range' (m + 2) (254 - m), by
    rw [bulkBlocks, show 255 = m + (254 - m + 1) by omega, ← List.range'_append_1, List.range'_succ,
      Nat.add_comm 1 m]⟩

/-- The bulk stopped after `n` accesses, in the read (`n` even) or the write (`n` odd) of block n / 2 + 1. -/
theorem bulk_torn {f : U32 × U32 → U32 × U32} {n : Nat} {p : Port} {torn : List U8} {rest : List PortAnswer}
    (hn : n < 510) (hl : 0x4800 ≤ p.image.len) (hw : p.image.wf = true)
    (ha : p.answers = List.replicate n .done ++ .error torn :: rest) :
    ∃ img : Image, saBlocks f bulkBlocks p = .error { p with image := img, answers := rest } ∧
      img.len = p.image.len ∧ img.wf = true ∧
      (∀ k, 1 ≤ k → k ≤ n / 2 → img.block k = f (p.image.block k)) ∧
      (n % 2 = 1 → ∀ j, (h : j < torn.length) → j < 8 → img.byte (saBlockAt (n / 2 + 1) + j) = torn[j]) ∧
      ∀ x, x < 0x4008 ∨ 0x4000 + 8 * ((n + 1) / 2 + 1) ≤ x → img.byte x = p.image.byte x := by
  obtain ⟨js, hjs⟩ := bulkBlocks_split (m := n / 2) (by omega)
  have hfit : ∀ j ∈ List.range' 1 (n / 2), saBlockAt j + 8 ≤ p.image.len := by
    intro j hj
    rw [List.mem_range'_1] at hj
    simp only [saBlockAt, saBase]
    omega
  obtain ⟨img, e1, e2, e3, e4, e5⟩ := saBlocks_torn (f := f) (List.range' 1 (n / 2)) js (k := n / 2 + 1)
    List.nodup_range' hfit hw List.length_range'.symm ha
  generalize hcs : (if n % 2 = 0 then [] else torn.take 8) = cs at e1
  have hlen : cs.length ≤ 8 * (n % 2) := by
    rw [← hcs]
    split_ifs with h
    · simp
    · simp; omega
  refine ⟨_, by rw [hjs, e1], (Image.len_writeBytes _ _ _).trans e2, Image.wf_writeBytes _ _ e3, ?_, ?_, ?_⟩
  · intro k h1 h2
    rw [← e4 k (List.mem_range'_1.2 (by omega))]
    apply Image.block_congr
    intro x h3 h4
    apply Image.byte_writeBytes_other
    simp only [saBlockAt] at *
    omega
  · intro h j hj h8
    subst hcs
    have hx : saBlockAt (n / 2 + 1) + j < img.len := by
      rw [e2]
      simp only [saBlockAt, saBase]
      omega
    have h' := Image.byte_writeBytes_self (saBlockAt (n / 2 + 1)) (torn.take 8) e3 j (by simp; omega) hx
    rw [if_neg (by omega), h', List.getElem_take]
  · intro x hx
    rw [Image.byte_writeBytes_other]
    · apply e5
      intro j hj
      rw [List.mem_range'_1] at hj
      simp only [saBlockAt, saBase]
      omega
    · simp only [saBlockAt, saBase]
      omega

/-- SA.DEC's accesses after the peek, stopped after `n` of them: in the write of block n / 2 (`n` even) or in
the read of block (n + 1) / 2 (`n` odd). -/
theorem decryptArea_torn {l2 l3 : Table} {w : U32 × U32} {n : Nat} {p : Port} {torn : List U8} {rest : List PortAnswer}
    (hn : n < 511) (hl : 0x4800 ≤ p.image.len) (hw : p.image.wf = true)
    (ha : p.answers = List.replicate n .done ++ .error torn :: rest) :
    ∃ img : Image, decryptArea l2 l3 w p = .error { p with image := img, answers := rest } ∧
      img.len = p.image.len ∧ (1 ≤ n → img.block 0 = decryptHead l2 l3 w) ∧
      (∀ k, 1 ≤ k → 2 * k < n → img.block k = onWords (blockD l3) (p.image.block k)) ∧
      (n % 2 = 0 → ∀ j, (h : j < torn.length) → j < 8 → img.byte (saBlockAt (n / 2) + j) = torn[j]) ∧
      ∀ x, x < 0x4000 ∨ 0x4000 + 8 * (n / 2 + 1) ≤ x → img.byte x = p.image.byte x := by
  rcases n with _ | n
  · refine ⟨p.image.writeBytes (saBlockAt 0) (torn.take 8), ?_, Image.len_writeBytes _ _ _, by omega, by omega, ?_, ?_⟩
    · rw [decryptArea, memWrite_torn ha]
      rfl
    · intro _ j hj h8
      have h' := Image.byte_writeBytes_self (saBlockAt 0) (torn.take 8) hw j (by simp; omega)
        (by simp only [saBlockAt, saBase]; omega)
      rw [show 0 / 2 = 0 from rfl, h', List.getElem_take]
    · intro x hx
      apply Image.byte_writeBytes_other
      simp only [saBlockAt, saBase, List.length_take]
      omega
  · rw [List.replicate_succ, List.cons_append] at ha
    generalize hi : p.image.writeBytes (saBlockAt 0) (wordsBlock (decryptHead l2 l3 w)) = img1
    have hl1 : img1.len = p.image.len := hi ▸ Image.len_writeBytes _ _ _
    have hw1 : img1.wf = true := hi ▸ Image.wf_writeBytes _ _ hw
    obtain ⟨img, e1, e2, _, e4, e5, e6⟩ := bulk_torn (f := onWords (blockD l3)) (n := n)
      (p := { p with image := img1, answers := List.replicate n .done ++ .error torn :: rest })
      (by omega) (hl1.symm ▸ hl) hw1 rfl
    refine ⟨img, ?_, e2.trans hl1, ?_, ?_, ?_, ?_⟩
    · rw [decryptArea, show saBase = saBlockAt 0 from rfl, memWrite_done ha, hi]
      exact e1
    · intro _
      have h0 : saBlockAt 0 + 8 ≤ p.image.len := by
        simp only [saBlockAt, saBase]
        omega
      have hb : img.block 0 = img1.block 0 := by
        apply Image.block_congr
        intro x _ h
        apply e6
        simp only [saBlockAt, saBase] at h
        omega
      rw [hb, ← hi]
      exact Image.block_writeBytes_self hw h0 _
    · intro k h1 h2
      rw [e4 k h1 (by omega), ← hi, Image.block_writeBytes_other (by omega)]
    · intro h j hj h8
      rw [show (n + 1) / 2 = n / 2 + 1 by omega]
      exact e5 (by omega) j hj h8
    · intro x hx
      rw [e6 x (by omega), ← hi, Image.byte_writeBytes_other]
      simp only [saBlockAt, saBase, length_wordsBlock]
      omega

/-- SA.ENC's accesses after the peek, stopped after `n` of them: in the read (`n` even) or the write (`n` odd)
of block n / 2 + 1, or, for `n` 510 and 511, of block 0. -/
theorem encryptArea_torn {l2 l3 : Table} {n : Nat} {p : Port} {torn : List U8} {rest : List PortAnswer}
    (hn : n < 512) (hl : 0x4800 ≤ p.image.len) (hw : p.image.wf = true)
    (ha : p.answers = List.replicate n .done ++ .error torn :: rest) :
    ∃ img : Image, encryptArea l2 l3 p = .error { p with image := img, answers := rest } ∧
      img.len = p.image.len ∧
      (∀ k, 1 ≤ k → k ≤ 255 → 2 * k ≤ n → img.block k = onWords (blockE l3) (p.image.block k)) ∧
      (n % 2 = 1 → ∀ j, (h : j < torn.length) → j < 8 →
        img.byte (saBlockAt (if n = 511 then 0 else n / 2 + 1) + j) = torn[j]) ∧
      ∀ x, x < 0x4000 ∨ (n < 511 ∧ x < 0x4008) ∨ 0x4000 + 8 * min ((n + 1) / 2 + 1) 256 ≤ x →
        img.byte x = p.image.byte x := by
  by_cases h510 : n < 510
  · obtain ⟨img, e1, e2, _, e4, e5, e6⟩ := bulk_torn (f := onWords (blockE l3)) h510 hl hw ha
    refine ⟨img, by rw [encryptArea, e1], e2, fun k h1 _ h2 => e4 k h1 (by omega), ?_, fun x hx => e6 x (by omega)⟩
    intro h j hj h8
    rw [if_neg (by omega)]
    exact e5 h j hj h8
  · obtain ⟨m, hnm, hm⟩ : ∃ m, n = 510 + m ∧ (m = 0 ∨ m = 1) := ⟨n - 510, by omega, by omega⟩
    have hrep : List.replicate n PortAnswer.done = List.replicate (2 * bulkBlocks.length) .done ++ List.replicate m .done := by
      rw [List.replicate_append_replicate, length_bulkBlocks, hnm]
    rw [hrep, List.append_assoc] at ha
    have hfit : ∀ k ∈ bulkBlocks, saBlockAt k + 8 ≤ p.image.len := by
      intro k hk
      have := (mem_bulkBlocks.1 hk).2
      simp only [saBlockAt, saBase]
      omega
    obtain ⟨img1, e1, e2, e3, e4, e5⟩ := saBlocks_done (f := onWords (blockE l3)) bulkBlocks
      nodup_bulkBlocks hfit hw ha
    have hother : ∀ x, x < 0x4008 ∨ 0x4800 ≤ x → img1.byte x = p.image.byte x := by
      intro x hx
      apply e5
      intro k hk
      have := mem_bulkBlocks.1 hk
      simp only [saBlockAt, saBase]
      omega
    refine ⟨_, by rw [encryptArea, e1]; simp only; rw [saBlock_torn hm rfl], (Image.len_writeBytes _ _ _).trans e2,
      ?_, ?_, ?_⟩
    · intro k h1 h2 _
      rw [← e4 k (mem_bulkBlocks.2 ⟨h1, by omega⟩)]
      apply Image.block_congr
      intro x h3 h4
      apply Image.byte_writeBytes_other
      split_ifs <;> simp only [saBlockAt, saBase, List.length_nil, List.length_take] at * <;> omega
    · intro h j hj h8
      have hm1 : m = 1 := by omega
      subst hm1
      have h' := Image.byte_writeBytes_self (saBlockAt 0) (torn.take 8) e3 j (by simp; omega)
        (by rw [e2]; simp only [saBlockAt, saBase]; omega)
      rw [if_neg (by omega), if_pos (by omega), h', List.getElem_take]
    · intro x hx
      rw [Image.byte_writeBytes_other, hother x (by omega)]
      split_ifs <;> simp only [saBlockAt, saBase, List.length_nil, List.length_take] at * <;> omega

end Sys2Proof.Machine
end

