-- ==== Sys2Proof/Laws/Feistel.lean ====
section
/-! SUPPORT. Reading the key table after writing it (R31), and the table of zeros, on which the functions of
R140 to R146 come out by hand. -/

namespace Sys2Proof.Machine

theorem tableWord_eq (t : Table) {i : Nat} (h : i < 1042) : tableWord t i = t[i] := by
  rw [tableWord, dif_pos h]

theorem tableWord_tableSet_self (t : Table) {i : Nat} (v : U32) (h : i < 1042) :
    tableWord (tableSet t i v) i = v := by
  rw [tableWord_eq _ h]
  simp [tableSet]

theorem tableWord_tableSet_other (t : Table) {i j : Nat} (v : U32) (h : j ≠ i) :
    tableWord (tableSet t i v) j = tableWord t j := by
  by_cases hj : j < 1042
  · rw [tableWord_eq _ hj, tableWord_eq _ hj, tableSet, Vector.getElem_setIfInBounds_ne hj (Ne.symm h)]
  · rw [tableWord, dif_neg hj, tableWord, dif_neg hj]

/-- Two tables with the same words are equal. -/
theorem table_ext {t u : Table} (h : ∀ i, i < 1042 → tableWord t i = tableWord u i) : t = u := by
  apply Vector.ext
  intro i hi
  rw [← tableWord_eq t hi, ← tableWord_eq u hi]
  exact h i hi

/-! ### The table of zeros -/

/-- Every word 0. -/
def zeroTable : Table := .replicate 1042 0

theorem tableWord_zeroTable (i : Nat) : tableWord zeroTable i = 0 := by
  by_cases h : i < 1042
  · rw [tableWord_eq _ h, zeroTable, Vector.getElem_replicate]
  · rw [tableWord, dif_neg h]

theorem tableSet_zeroTable (i : Nat) : tableSet zeroTable i 0 = zeroTable := by
  apply table_ext
  intro j hj
  by_cases h : j = i
  · subst h
    rw [tableWord_tableSet_self _ _ hj, tableWord_zeroTable]
  · rw [tableWord_tableSet_other _ _ h]

theorem lookupF_zeroTable (c : U32) : lookupF zeroTable c = 0 := by
  simp [lookupF, tableWord_zeroTable]

theorem feistelRound_zeroTable (x : U32 × U32) (i : Nat) : feistelRound zeroTable x i = (x.2, x.1) := by
  simp [feistelRound, tableWord_zeroTable, lookupF_zeroTable]

/-- E swaps the halves. -/
theorem blockE_zeroTable (x : U32 × U32) : blockE zeroTable x = (x.2, x.1) := by
  simp [blockE, feistelRounds, encryptOrder, List.range_succ, feistelRound_zeroTable, tableWord_zeroTable]

/-- D swaps the halves. -/
theorem blockD_zeroTable (x : U32 × U32) : blockD zeroTable x = (x.2, x.1) := by
  simp [blockD, feistelRounds, decryptOrder, List.range_succ, feistelRound_zeroTable, tableWord_zeroTable]

theorem updateCalls_zeroTable (n : Nat) : updateCalls zeroTable n = (zeroTable, (0, 0)) := by
  induction n with
  | zero => rfl
  | succ n ih => simp only [updateCalls, ih, blockE_zeroTable, tableSet_zeroTable]

theorem gather_zeros (j : Nat) : gather (serialiseW 0 0 0) j = 0 := by
  have h : ∀ i, byteAt (serialiseW 0 0 0) (i % 8) = 0 := by
    intro i
    have : i % 8 < 8 := Nat.mod_lt _ (by decide)
    interval_cases i % 8 <;> rfl
  simp only [gather, h]
  rfl

theorem xorPhase_zeroTable : xorPhase (serialiseW 0 0 0) zeroTable = zeroTable := by
  have h : ∀ is : List Nat, is.foldl (fun t j => tableSet t j (tableWord t j ^^^ gather (serialiseW 0 0 0) j)) zeroTable =
      zeroTable := by
    intro is
    induction is with
    | nil => rfl
    | cons j is ih =>
      have e : tableSet zeroTable j (tableWord zeroTable j ^^^ gather (serialiseW 0 0 0) j) = zeroTable := by
        rw [tableWord_zeroTable, gather_zeros]
        exact tableSet_zeroTable j
      rw [List.foldl_cons, e, ih]
  exact h _

theorem updateTable_zeroTable : updateTable (serialiseW 0 0 0) zeroTable = zeroTable := by
  rw [updateTable, xorPhase_zeroTable, updateCalls_zeroTable]

/-- Init2 keeps the schedule of zeros. -/
theorem init2_zeroTable : init2 ⟨zeroTable, 0, 0, 0⟩ = ⟨zeroTable, 0, 0, 0⟩ := by
  simp only [init2, blockE_zeroTable, updateTable_zeroTable]

/-- So does Init1, from a SEED of zeros and the game code 0. -/
theorem init1_zeroTable : init1 zeroTable 0 = ⟨zeroTable, 0, 0, 0⟩ := by
  have h : seeded zeroTable 0 = ⟨zeroTable, 0, 0, 0⟩ := rfl
  rw [init1, h, init2_zeroTable, init2_zeroTable]

/-- So does the priming. -/
theorem primed_zeroTable : primed ⟨zeroTable, 0, 0, 0⟩ = ⟨zeroTable, 0, 0, 0⟩ := by
  have h : advance ⟨zeroTable, 0, 0, 0⟩ = ⟨zeroTable, 0, 0, 0⟩ := rfl
  rw [primed, h, init2_zeroTable]

end Sys2Proof.Machine
end

