-- ==== Sys2Proof/Laws/PerInstr.lean ====
section
/-! SUPPORT. The statement made of every command as syntax: RSV, bits 31:12 of its word, is 0 (R91), one
lemma per constructor. -/

namespace Sys2Proof.Laws.EncodesReserved

/-- RSV is 0 in the command's word (R91). -/
def Statement (i : Instr) : Prop := (encode i).extractLsb' 12 20 = 0

theorem nop : Statement .nop := rfl
theorem ksInit (ok : Bool) : Statement (.ksInit ok) := by revert ok; unfold Statement; decide
theorem ktInit1 : Statement .ktInit1 := rfl
theorem ktInit2 : Statement .ktInit2 := rfl
theorem ktUpdate : Statement .ktUpdate := rfl
theorem ktAdvance : Statement .ktAdvance := rfl
theorem blkEnc : Statement .blkEnc := rfl
theorem blkDec : Statement .blkDec := rfl
theorem saDetect : Statement .saDetect := rfl
theorem saDec : Statement .saDec := rfl
theorem saEnc : Statement .saEnc := rfl
theorem aesKeysel (dev : Bool) : Statement (.aesKeysel dev) := by revert dev; unfold Statement; decide
theorem aesScramble : Statement .aesScramble := rfl
theorem ctrInit (tag : BitVec 2) : Statement (.ctrInit tag) := by revert tag; unfold Statement; decide
theorem ctrStep : Statement .ctrStep := rfl
theorem ctrXform : Statement .ctrXform := rfl
theorem prXform (tag : BitVec 2) (dev dir : Bool) : Statement (.prXform tag dev dir) := by
  revert tag dev dir; unfold Statement; decide

end Sys2Proof.Laws.EncodesReserved
end

