-- ==== Sys2Proof/Tests/Slice0.lean ====
section
/-! SUPPORT. Tests. Part 1 checks the model against words and values written out from the spec; Part 2
shows, for every obligation with hypotheses, a state and operands that meet them together. -/

namespace Sys2Proof.Tests

open Sys2Proof.Machine

/-! ## Part 1: encodings and single steps -/

/-! ### WellFormed refuses what R93 reserves -/

theorem test_wellFormed_refuses_ctrInit_tag3 : Instr.wellFormed (.ctrInit 3) = false := by decide
theorem test_wellFormed_refuses_prXform_tag3 : Instr.wellFormed (.prXform 3 true false) = false := by decide
theorem test_wellFormed_accepts_tag2 : Instr.wellFormed (.ctrInit 2) = true := by decide

/-! ### Decoding: RSV (20 bits), SUB (4 bits), OPC (8 bits), written out from R91 and R97 -/

/-- A command word from its three fields (R91). -/
def word (sub : BitVec 4) (opc : BitVec 8) : U32 := (0 : BitVec 20) ++ sub ++ opc

theorem test_decode_nop : decode (word 0b0000 0b00000000) = .ok .nop := by decide
theorem test_decode_ksInit_ok : decode (word 0b0001 0b00000001) = .ok (.ksInit true) := by decide
theorem test_decode_ksInit_fail : decode (word 0b0000 0b00000001) = .ok (.ksInit false) := by decide
theorem test_decode_ktInit1 : decode (word 0b0000 0b00010000) = .ok .ktInit1 := by decide
theorem test_decode_ktInit2 : decode (word 0b0000 0b00010001) = .ok .ktInit2 := by decide
theorem test_decode_ktUpdate : decode (word 0b0000 0b00010010) = .ok .ktUpdate := by decide
theorem test_decode_ktAdvance : decode (word 0b0000 0b00010011) = .ok .ktAdvance := by decide
theorem test_decode_blkEnc : decode (word 0b0000 0b00010100) = .ok .blkEnc := by decide
theorem test_decode_blkDec : decode (word 0b0000 0b00010101) = .ok .blkDec := by decide
theorem test_decode_saDetect : decode (word 0b0000 0b00100000) = .ok .saDetect := by decide
theorem test_decode_saDec : decode (word 0b0000 0b00100001) = .ok .saDec := by decide
theorem test_decode_saEnc : decode (word 0b0001 0b00100001) = .ok .saEnc := by decide
theorem test_decode_aesKeysel_dev : decode (word 0b0001 0b00110000) = .ok (.aesKeysel true) := by decide
theorem test_decode_aesScramble : decode (word 0b0000 0b00110001) = .ok .aesScramble := by decide
theorem test_decode_ctrInit_romfs : decode (word 0b0010 0b01000000) = .ok (.ctrInit 2) := by decide
theorem test_decode_ctrStep : decode (word 0b0000 0b01000001) = .ok .ctrStep := by decide
theorem test_decode_ctrXform : decode (word 0b0000 0b01000010) = .ok .ctrXform := by decide
/-- PR.XFORM exefs, dev, enc: tag 9:8 = 01, dev bit 10, dir bit 11 (R93). -/
theorem test_decode_prXform_all_operands : decode (word 0b1101 0b01000011) = .ok (.prXform 1 true true) := by decide
/-- PR.XFORM romfs, dev, dec tells bit 10 from bit 11. -/
theorem test_decode_prXform_dev_only : decode (word 0b0110 0b01000011) = .ok (.prXform 2 true false) := by decide

/-! V-DEC-1: the illegal words, each rejected by its own name (R96). -/

theorem test_decode_ksInit_bit9 : decode 0x00000201 = .error .unassignedSub := by decide
theorem test_decode_sa_bit9 : decode 0x00000221 = .error .unassignedSub := by decide
theorem test_decode_ctrInit_bit10 : decode 0x00000440 = .error .unassignedSub := by decide
theorem test_decode_tag3 : decode 0x00000340 = .error .reservedTag := by decide
theorem test_decode_unlisted : decode 0x00000016 = .error .unlistedOpcode := by decide
theorem test_decode_reserved_first : decode 0x80000116 = .error .reservedBits := by decide

/-! ### What a step answers -/

/-- A step that ends in a next state of which `p` holds. -/
def nextWith (o : Result) (p : State → Bool) : Bool :=
  match o with
  | .next t => p t
  | .fault _ => false
  | .refused _ => false

/-- The test tags of 95_test_vectors.md, section 9, with a SEED of zeros. -/
def testParams : Params :=
  ⟨zeroTable, 0x0100000000000000, 0x0200000000000000, 0x0300000000000000, .tagHigh, Config.methodMap⟩

/-- The key store of program P3 (95_test_vectors.md). -/
def testStore : KeyStore :=
  ⟨0x1FF9E9AAC5FE0408024591DC5D52768A,
    #v[0x11111111111111111111111111111111, 0x22222222222222222222222222222222,
      0x000102030405060708090A0B0C0D0E0F, 0x44444444444444444444444444444444],
    #v[0x55555555555555555555555555555555, 0x66666666666666666666666666666666,
      0x77777777777777777777777777777777, 0x88888888888888888888888888888888]⟩

/-- A machine after reset with the test parameters. -/
def fresh : State := { State.reset with params := testParams }

/-- The same with the key store loaded. -/
def ready : State := { fresh with store := testStore, ksState := .ready }

/-- The same with the key table of zeros valid (V-KT-4). -/
def keyed : State := { fresh with table := zeroTable, w0 := ⟨0, false⟩, w1 := ⟨0, false⟩, w2 := ⟨0, false⟩, ktValid := true }

/-- A machine whose host has an image of `n` bytes, with the given cells and port answers. -/
def withImage (n : Nat) (cells : Memory) (answers : List PortAnswer) (s : State) : State :=
  { s with port := ⟨⟨n, cells⟩, answers, 0⟩ }

/-- The cells of MARKER at 0x4000 (R9, C7). -/
def markerCells : Memory :=
  [(0x4000, 0xFF), (0x4001, 0xDE), (0x4002, 0xFF), (0x4003, 0xE7),
   (0x4004, 0xFF), (0x4005, 0xDE), (0x4006, 0xFF), (0x4007, 0xE7)]

/-- The cells of ALT_MARKER at 0x4000 (V-SA-1). -/
def altCells : Memory :=
  [(0x4000, 0x67), (0x4001, 0x8B), (0x4002, 0xD4), (0x4003, 0xD0),
   (0x4004, 0x23), (0x4005, 0x2F), (0x4006, 0x39), (0x4007, 0x39)]

/-- The cells of MAGIC, "encryObj", at 0x4000 (V-SA-1). -/
def magicCells : Memory :=
  [(0x4000, 0x65), (0x4001, 0x6E), (0x4002, 0x63), (0x4003, 0x72),
   (0x4004, 0x79), (0x4005, 0x4F), (0x4006, 0x62), (0x4007, 0x6A)]

/-- An access list with no bus error. -/
def clean (n : Nat) : List PortAnswer := List.replicate n .done

theorem test_idle_step : nextWith (step State.reset) (fun t => t.pc == 0 && t.pending == []) = true := by decide
theorem test_nop_step :
    nextWith (step (State.reset.withFetchWord 32 0)) (fun t => t.pc == 1 && t.status == 0) = true := by decide
/-- An illegal word sets RESULT to ILLEGAL_CMD, 6 (R96, R300). -/
theorem test_illegal_step :
    nextWith (step (State.reset.withFetchWord 32 0x340)) (fun t => t.status == 6) = true := by decide
theorem test_decodeTableWord : decodeTableWord 32 0x121 = some .saEnc := by decide

/-- V-KS-1. -/
theorem test_ksInit_ready :
    nextWith (execKsInit true { fresh with kstageWr := 0x1FF }) (fun t => t.status == 0x10) = true := by decide
/-- V-KS-2: KSTAGE8 not written. -/
theorem test_ksInit_failed :
    nextWith (execKsInit true { fresh with kstageWr := 0x0FF }) (fun t => t.status == 0x24) = true := by decide

/-- KT_VALID is bit 6 (V-KT-1). -/
theorem test_ktInit1_valid : nextWith (execKtInit1 fresh) (fun t => t.status == 0x40) = true := by decide +kernel
/-- V-KT-4: with SEED_Z and the game code 0 every word of T and W is 0. -/
theorem test_ktInit1_zero : execKtInit1 fresh = .next keyed := by
  obtain ⟨k, hk, h⟩ := execKtInit1_cases fresh
  rw [show init1 fresh.params.seed fresh.gamecode.val = ⟨zeroTable, 0, 0, 0⟩ from init1_zeroTable] at hk
  subst hk
  exact h
/-- V-KT-8. -/
theorem test_ktInit2_needs_table : nextWith (execKtInit2 fresh) (fun t => t.status == 5) = true := by decide
theorem test_ktUpdate_needs_table : nextWith (execKtUpdate fresh) (fun t => t.status == 5) = true := by decide
/-- KT.INIT2 and KT.UPDATE keep the table of zeros while W is 0 (V-KT-4). -/
theorem test_ktInit2_zero : execKtInit2 keyed = .next keyed := by
  obtain ⟨k, hk, ⟨h, _⟩ | ⟨_, h⟩⟩ := execKtInit2_cases keyed
  · cases h
  · rw [show init2 keyed.schedule = ⟨zeroTable, 0, 0, 0⟩ from init2_zeroTable] at hk
    subst hk
    exact h
theorem test_ktUpdate_zero : execKtUpdate keyed = .next keyed := by
  obtain ⟨T, hT, ⟨h, _⟩ | ⟨_, h⟩⟩ := execKtUpdate_cases keyed
  · cases h
  · rw [show updateTable (serialiseW keyed.w0.val keyed.w1.val keyed.w2.val) keyed.table = zeroTable from
      updateTable_zeroTable] at hT
    subst hT
    exact h
/-- V-KT-7. -/
theorem test_ktAdvance_loses_bits :
    nextWith (execKtAdvance { keyed with w0 := ⟨1, false⟩, w1 := ⟨0x80000001, false⟩, w2 := ⟨3, false⟩ })
      (fun t => t.w0.val == 1 && t.w1.val == 2 && t.w2.val == 1) = true := by decide
/-- V-KT-5, last row: E on the table of zeros swaps. -/
theorem test_blkEnc_swaps :
    nextWith (execBlkEnc { keyed with blkA := ⟨0x01234567, false⟩, blkB := ⟨0x89ABCDEF, false⟩ })
      (fun t => t.blkA.val == 0x89ABCDEF && t.blkB.val == 0x01234567) = true := by decide +kernel
theorem test_blkDec_swaps :
    nextWith (execBlkDec { keyed with blkA := ⟨0x01234567, false⟩, blkB := ⟨0x89ABCDEF, false⟩ })
      (fun t => t.blkA.val == 0x89ABCDEF && t.blkB.val == 0x01234567) = true := by decide +kernel

/-- V-SA-1: MARKER is detected, at the least image length. -/
theorem test_saDetect_marker :
    nextWith (execSaDetect (withImage 0x4008 markerCells [.done] fresh)) (fun t => t.status == 0x80) = true := by decide
/-- V-SA-1: MAGIC is not. -/
theorem test_saDetect_magic :
    nextWith (execSaDetect (withImage 0x4008 magicCells [.done] fresh)) (fun t => t.status == 0) = true := by decide
/-- V-SA-2: SA.DEC of a decrypted area is ALREADY, after one access. -/
theorem test_saDec_already :
    nextWith (execSaDec (withImage 0x4800 markerCells [.done] fresh))
      (fun t => t.status == 0x81 && t.port.answers == []) = true := by decide +kernel
/-- V-SA-7: one byte short. -/
theorem test_saEnc_bounds :
    nextWith (execSaEnc (withImage 0x47FF markerCells [] fresh)) (fun t => t.status == 2) = true := by decide +kernel

/-- V-KSU-3: METHOD 0x01, development. -/
theorem test_aesKeysel_dev :
    nextWith (execAesKeysel true { ready with method := ⟨1, false⟩ })
      (fun t => t.keyX.val == 0x77777777777777777777777777777777) = true := by decide
/-- V-KSU-3: METHOD 0x02 has no keyslot. -/
theorem test_aesKeysel_unknown :
    nextWith (execAesKeysel false { ready with method := ⟨2, false⟩ }) (fun t => t.status == 0x13) = true := by decide
/-- V-KSU-1, last row. -/
theorem test_aesScramble :
    nextWith (execAesScramble { ready with
        keyX := ⟨0x000102030405060708090A0B0C0D0E0F, false⟩, keyY := ⟨0x00112233445566778899AABBCCDDEEFF, false⟩ })
      (fun t => t.kn.val == 0x3A2D1E26A6900789F50D1FC139D5818A) = true := by decide

/-- V-CTR-1. -/
theorem test_ctrInit_exefs :
    nextWith (execCtrInit 1 { fresh with ctrId := ⟨0x0004000000123400, false⟩ })
      (fun t => t.ctr.val == 0x02000000000000000004000000123400) = true := by decide
theorem test_ctrInit_id_high :
    nextWith (execCtrInit 2 { fresh with
        params := { testParams with ctrLayout := .idHigh }, ctrId := ⟨0x0004000000123400, false⟩ })
      (fun t => t.ctr.val == 0x00040000001234000300000000000000) = true := by decide
/-- V-CTR-2, first line (AES-128 of SP 800-38A). -/
theorem test_ctrStep_vector :
    nextWith (execCtrStep { fresh with
        kn := ⟨0x2B7E151628AED2A6ABF7158809CF4F3C, false⟩, ctr := ⟨0xF0F1F2F3F4F5F6F7F8F9FAFBFCFDFEFF, false⟩ })
      (fun t => t.kstream.val == 0xEC8CDF7398607CB0F2D21675EA9EA1E4 &&
        t.ctr.val == 0xF0F1F2F3F4F5F6F7F8F9FAFBFCFDFF00) = true := by decide +kernel
/-- V-CTR-2: the counter wraps. -/
theorem test_ctrStep_wraps :
    nextWith (execCtrStep { fresh with kn := ⟨0, false⟩, ctr := ⟨BitVec.allOnes 128, false⟩ })
      (fun t => t.ctr.val == 0) = true := by decide +kernel
/-- V-CTR-4: a partial second block, the counter wrapping between. -/
theorem test_ctrXform_wraps :
    nextWith (execCtrXform (withImage 20 [] (clean 4) { fresh with
        regOff := ⟨0, false⟩, regLen := ⟨20, false⟩, kn := ⟨0, false⟩, ctr := ⟨BitVec.allOnes 128, false⟩ }))
      (fun t => t.ctr.val == 1 && t.port.image.bytes 12 8 == [0x3E, 0x8D, 0x66, 0x4E, 0x66, 0xE9, 0x4B, 0xD4]) = true := by
  decide +kernel
/-- V-CTR-7: the sum does not wrap. -/
theorem test_ctrXform_bounds :
    nextWith (execCtrXform (withImage 0x40 [] [] { fresh with
        regOff := ⟨0xFFFFFFFFFFFFFFFF, false⟩, regLen := ⟨2, false⟩ })) (fun t => t.status == 2) = true := by decide
/-- The key of PR.XFORM is that of program P3 (V-KSU-1, last row). -/
theorem test_prXform_key :
    nextWith (execPrXform 2 false false (withImage 0x40 [] (clean 2) { ready with
        method := ⟨1, false⟩, keyY := ⟨0x00112233445566778899AABBCCDDEEFF, false⟩
        ctrId := ⟨0x0004000000123400, false⟩, regOff := ⟨0x10, false⟩, regLen := ⟨1, false⟩ }))
      (fun t => t.kn.val == 0x3A2D1E26A6900789F50D1FC139D5818A &&
        t.ctr.val == 0x03000000000000000004000000123401) = true := by decide +kernel
theorem test_prXform_keystore : nextWith (execPrXform 0 false true fresh) (fun t => t.status == 4) = true := by decide

/-- The source's default METHOD_MAP (R211): the four methods, and one outside its domain. -/
theorem test_default_method_map :
    [0x00, 0x01, 0x0A, 0x0B, 0x02].map (fun m => (methodSlot Config.methodMap m).map slotNumber) =
      [some 0x2C, some 0x25, some 0x18, some 0x1B, none] := by decide
/-- FIPS-197 Appendix C.1 (R244). -/
theorem test_aes_fips197 :
    be128 (aes128 (bytesBE128 0x000102030405060708090a0b0c0d0e0f) (bytesBE128 0x00112233445566778899aabbccddeeff)) =
      0x69c4e0d86a7b0430d8cdb78070b4c55a := by decide +kernel
theorem test_sbox_ends : sbox 0x00 = 0x63 ∧ sbox 0x53 = 0xED ∧ sbox 0xFF = 0x16 := by decide
/-- rotl128 by 2 moves the two top bits to the bottom (R12). -/
theorem test_rotl128 : rotl128 0xC0000000000000000000000000000001 2 = 7 := by decide


/-! ## Part 2: the hypotheses of the obligations are met -/

/-- The host writes word `w` to CMD. -/
def issuing (w : U32) (s : State) : State := { s with pending := [issueAction w] }

theorem test_witness_IllegalWordsAndTheirEffect :
    decode 0x00000340 = .error .reservedTag ∧ (issuing 0x00000340 fresh).pending = issueAction 0x00000340 :: [] := by
  decide

theorem test_witness_StepRunsTheDecodedCommand :
    (issuing 0x00000101 fresh).pending = .regWrite 0x00 0x101 :: [] ∧
      decode ((0x101 : U128).setWidth 32) = .ok (.ksInit true) := by decide

theorem test_witness_CommandsEndWithAListedResult :
    Instr.wellFormed (.prXform 2 true true) = true ∧ Instr.wellFormed (.ctrInit 0) = true := by decide

theorem test_witness_StepKeepsInvariant :
    ∃ s t : State, s.inv = true ∧ step s = .next t :=
  ⟨issuing 0x00000000 (withImage 0x4800 markerCells [] keyed), _, by decide, rfl⟩

theorem test_witness_ParametersAreNeverWritten : ∃ s t : State, step s = .next t :=
  ⟨{ fresh with pending := [.powerOnReset] }, _, rfl⟩

theorem test_witness_KeyStoreStateMovesOnce_kept :
    ∃ s t : State, s.pending = .regWrite 0x00 0x001 :: [] ∧ step s = .next t ∧ s.ksState ≠ .uninit :=
  ⟨issuing 0x00000001 ready, _, rfl, rfl, by decide⟩

theorem test_witness_KeyStoreStateMovesOnce_moved :
    ∃ s t : State, s.pending = .regWrite 0x00 0x001 :: [] ∧ step s = .next t ∧ t.ksState ≠ s.ksState :=
  ⟨issuing 0x00000001 fresh, _, rfl, rfl, by decide⟩

/-- Two states that differ in the UNDEFINED KN and the unwritten KSTAGE registers, and a command that reads
neither. -/
theorem test_witness_UndefinedContentIsImmaterial :
    ∃ s t : State, s.kn ≠ t.kn ∧ s.blank = t.blank ∧ readsUndefined .ktInit1 s = false :=
  ⟨{ fresh with gamecode := ⟨7, false⟩ }, { fresh with gamecode := ⟨7, false⟩, kn := ⟨5, true⟩ }, by decide, rfl, rfl⟩

theorem test_witness_ImageChangesOnlyInTheCommandsRange :
    (∃ t, exec .saDec (withImage 0x4800 markerCells [.done] fresh) = .next t) ∧
      (∃ t, exec .ctrXform (withImage 16 [] [.done, .done] fresh) = .next t) ∧
      (∃ t, exec .saDetect (withImage 0x4008 [] [.done] fresh) = .next t) ∧ ∃ t, exec .nop fresh = .next t :=
  ⟨⟨_, by rw [exec, execSaDec, saEnter, if_neg (by decide)]; rfl⟩, ⟨_, rfl⟩, ⟨_, rfl⟩, ⟨_, rfl⟩⟩

theorem test_witness_ImageCommandsLeaveTheRest :
    (∃ t, exec .saDetect (withImage 0x4008 [] [.done] fresh) = .next t) ∧
      (∃ t, exec .saEnc (withImage 0x4800 [] [.done] fresh) = .next t) ∧
      (∃ t, exec .ctrXform fresh = .next t) ∧ ∃ t, exec (.prXform 0 false false) fresh = .next t :=
  ⟨⟨_, rfl⟩, ⟨_, by rw [exec, execSaEnc, saEnter, if_neg (by decide)]; rfl⟩, ⟨_, rfl⟩, ⟨_, rfl⟩⟩

/-- Each of the five results, from a command that raises it. -/
theorem test_witness_CheckErrorsChangeOnlyTheResult :
    (∃ t, exec (.ctrInit 3) fresh = .next t ∧ t.result = .illegalCmd) ∧
      (∃ t, exec (.aesKeysel false) { ready with method := ⟨2, false⟩ } = .next t ∧ t.result = .unknownKeyslot) ∧
      (∃ t, exec .ktAdvance fresh = .next t ∧ t.result = .tableNotInit) ∧
      (∃ t, exec .aesScramble fresh = .next t ∧ t.result = .keystoreError) ∧
      ∃ t, exec .saEnc (withImage 0x4800 [] [.done] fresh) = .next t ∧ t.result = .already :=
  ⟨⟨_, rfl, rfl⟩, ⟨_, rfl, rfl⟩, ⟨_, rfl, rfl⟩, ⟨_, rfl, rfl⟩,
    ⟨_, by rw [exec, execSaEnc, saEnter, if_neg (by decide)]; rfl, rfl⟩⟩

/-- One byte short of each bound. -/
theorem test_witness_CheckErrorsChangeOnlyTheResult_bounds :
    (∃ t, exec .saDetect (withImage 0x4007 [] [] fresh) = .next t) ∧ (withImage 0x4007 [] [] fresh).port.image.len < 0x4008 ∧
      (∃ t, exec .saDec (withImage 0x47FF [] [] fresh) = .next t) ∧ (withImage 0x47FF [] [] fresh).port.image.len < 0x4800 ∧
      (∃ t, exec .ctrXform (withImage 7 [] [] { fresh with regOff := ⟨3, false⟩, regLen := ⟨5, false⟩ }) = .next t) ∧
      (∃ t, exec (.prXform 2 false false) (withImage 7 [] [] { ready with regOff := ⟨3, false⟩, regLen := ⟨5, false⟩ }) = .next t) :=
  ⟨⟨_, rfl⟩, by decide, ⟨_, by rw [exec, execSaDec, saEnter, if_pos (by decide)]; rfl⟩, by decide, ⟨_, rfl⟩, ⟨_, rfl⟩⟩

theorem test_witness_PowerOnResetsCore :
    ({ ready with pending := [.powerOnReset, .regRead 1] } : State).pending = .powerOnReset :: [.regRead 1] := rfl

/-- SA.DEC cut short with three bytes drawn; at the boundary L = 0x4800. -/
theorem test_witness_ResetDuringACommand_sa :
    ∃ s : State, s.port.image.wf = true ∧ Instr.wellFormed .saDec = true ∧
      s.pending = .resetDuring (encode .saDec) [1, 2, 3] :: [] ∧ writeRange .saDec s = some (0x4000, 0x800) ∧
      0x4800 ≤ s.port.image.len :=
  ⟨{ withImage 0x4800 markerCells [] fresh with pending := [.resetDuring 0x21 [1, 2, 3]] },
    by decide, by decide, by decide, by decide, by decide⟩

/-- PR.XFORM cut short over a region that ends where the image ends, and one that writes nothing. -/
theorem test_witness_ResetDuringACommand_region :
    ∃ s : State, s.port.image.wf = true ∧ Instr.wellFormed (.prXform 0 true false) = true ∧
      s.pending = .resetDuring (encode (.prXform 0 true false)) [9] :: [] ∧
      writeRange (.prXform 0 true false) s = some (3, 5) ∧ writeRange .ctrStep s = none ∧
      s.regOff.val.toNat + s.regLen.val.toNat ≤ s.port.image.len :=
  ⟨{ withImage 8 [] [] fresh with
      regOff := ⟨3, false⟩, regLen := ⟨5, false⟩, pending := [.resetDuring 0x443 [9]] },
    by decide, by decide, by decide, by decide, by decide, by decide⟩

/-- A reset while the illegal word with tag 3 is carried out. -/
theorem test_witness_ResetDuringACommand_illegal :
    decode 0x00000340 = .error .reservedTag ∧
      ({ fresh with pending := [.resetDuring 0x340 [1]] } : State).pending = .resetDuring 0x340 [1] :: [] := by decide

/-- METHOD keeps 8 bits of a 16-bit value, CTR all 128; the first and the last register of the list. -/
theorem test_witness_RegisterReadReturnsTheTruncatedWrite :
    ({ fresh with pending := [.regRead 0x14] } : State).pending = .regRead 0x14 :: [] ∧
      (∃ s u : State, s.pending = .regWrite 0x0A 0x1FF :: [] ∧ u = { s with pending := [], pc := s.pc + 1 } ∧
        nextWith (step s) (fun t => hostRead 0x0A t == 0xFF) = true) ∧
      (∃ s u : State, s.pending = .regWrite 0x13 (BitVec.allOnes 128) :: [] ∧
        u = { s with pending := [], pc := s.pc + 1 } ∧
        nextWith (step s) (fun t => hostRead 0x13 t == BitVec.allOnes 128) = true) ∧
      ∃ s u : State, s.pending = .regWrite 0x02 5 :: [] ∧ u = { s with pending := [], pc := s.pc + 1 } :=
  ⟨rfl, ⟨{ fresh with pending := [.regWrite 0x0A 0x1FF] }, _, rfl, rfl, by decide⟩,
    ⟨{ fresh with pending := [.regWrite 0x13 (BitVec.allOnes 128)] }, _, rfl, rfl, by decide⟩,
    ⟨{ fresh with pending := [.regWrite 0x02 5] }, _, rfl, rfl⟩⟩

theorem test_witness_ReservedRegisterNumbers :
    ∀ n : U8, n ∈ [0x0C, 0x0F, 0x15, 0x17, 0x21, 0xFF] →
      (0x0C ≤ n.toNat ∧ n.toNat ≤ 0x0F) ∨ (0x15 ≤ n.toNat ∧ n.toNat ≤ 0x17) ∨ 0x21 ≤ n.toNat := by decide

theorem test_witness_ReadOnlyAndWriteOnlyRegisters :
    ∀ n : U8, n ∈ [0x18, 0x20] → 0x18 ≤ n.toNat ∧ n.toNat ≤ 0x20 := by decide

theorem test_witness_StagingWritesOnlyWhileUninit : fresh.ksState = .uninit ∧ ready.ksState ≠ .uninit := by decide

/-- Both sides of the boundary. -/
theorem test_witness_PokeThenPeek :
    (withImage 4 [] [] fresh).port.image.wf = true ∧ 2 + [1, 2].length ≤ (withImage 4 [] [] fresh).port.image.len ∧
      (withImage 4 [] [] fresh).port.image.len < 3 + [1, 2].length := by decide

theorem test_witness_KsInitLoadsTheStoreOnce :
    ready.ksState ≠ .uninit ∧ fresh.ksState = .uninit ∧ fresh.kstageWr ≠ 0x1FF ∧
      ({ fresh with kstageWr := 0x1FF } : State).kstageWr = 0x1FF := by decide

/-- On the table of zeros, from (5, 5): every a, b and c is 5. -/
theorem test_witness_EncryptRunsSixteenRounds :
    ∃ a b c : Nat → U32, a 0 = 5 ∧ b 0 = 5 ∧ ∀ i (h : i < 16),
      c i = zeroTable[i] ^^^ a i ∧ a (i + 1) = b i ^^^ lookupF zeroTable (c i) ∧ b (i + 1) = c i :=
  ⟨fun _ => 5, fun _ => 5, fun _ => 5, rfl, rfl, fun i h => ⟨by simp [zeroTable], by rw [lookupF_zeroTable]; exact BitVec.xor_zero.symm, rfl⟩⟩

theorem test_witness_DecryptRunsSixteenRounds :
    ∃ a b c : Nat → U32, a 0 = 5 ∧ b 0 = 5 ∧ ∀ n (h : n < 16),
      c n = zeroTable[17 - n] ^^^ a n ∧ a (n + 1) = b n ^^^ lookupF zeroTable (c n) ∧ b (n + 1) = c n :=
  ⟨fun _ => 5, fun _ => 5, fun _ => 5, rfl, rfl, fun i h => ⟨by simp [zeroTable], by rw [lookupF_zeroTable]; exact BitVec.xor_zero.symm, rfl⟩⟩

/-- On the table of zeros with U of zeros: every table is that of zeros and every pair (0, 0). -/
theorem test_witness_UpdateTableAsWritten :
    ∃ (T : Nat → Table) (x : Nat → U32 × U32),
      (∀ j (h : j < 1042), (T 0)[j] =
        if 18 ≤ j then zeroTable[j]
        else if j % 2 = 0 then zeroTable[j] ^^^ (byteAt (serialiseW 0 0 0) 0 ++ byteAt (serialiseW 0 0 0) 1 ++
          byteAt (serialiseW 0 0 0) 2 ++ byteAt (serialiseW 0 0 0) 3)
        else zeroTable[j] ^^^ (byteAt (serialiseW 0 0 0) 4 ++ byteAt (serialiseW 0 0 0) 5 ++
          byteAt (serialiseW 0 0 0) 6 ++ byteAt (serialiseW 0 0 0) 7)) ∧
      x 0 = (0, 0) ∧
      ∀ k, (hk : k < 521) → x (k + 1) = blockE (T k) (x k) ∧
        ∀ j (h : j < 1042), (T (k + 1))[j] =
          if j = 2 * k then (x (k + 1)).1 else if j = 2 * k + 1 then (x (k + 1)).2 else (T k)[j] := by
  refine ⟨fun _ => zeroTable, fun _ => (0, 0), fun j h => ?_, rfl, fun k hk => ⟨(blockE_zeroTable (0, 0)).symm, fun j h => ?_⟩⟩
  · have h1 : byteAt (serialiseW 0 0 0) 0 ++ byteAt (serialiseW 0 0 0) 1 ++ byteAt (serialiseW 0 0 0) 2 ++
        byteAt (serialiseW 0 0 0) 3 = (0 : U32) := rfl
    have h2 : byteAt (serialiseW 0 0 0) 4 ++ byteAt (serialiseW 0 0 0) 5 ++ byteAt (serialiseW 0 0 0) 6 ++
        byteAt (serialiseW 0 0 0) 7 = (0 : U32) := rfl
    rw [h1, h2]
    simp [zeroTable]
  · simp [zeroTable]

theorem test_witness_UpdateIgnoresTheLastWord : keyed.ktValid = true := rfl

theorem test_witness_InitTwoChainsTheEncrypts :
    blockE zeroTable (3, 2) = (2, 3) ∧ blockE zeroTable (3, 1) = (1, 3) := by
  exact ⟨blockE_zeroTable _, blockE_zeroTable _⟩

theorem test_witness_KtInitOneDerivesTheTable :
    ∃ k : Schedule, k = init2 (init2 ⟨fresh.params.seed, fresh.gamecode.val, fresh.gamecode.val >>> 1,
      fresh.gamecode.val <<< 1⟩) := ⟨_, rfl⟩

theorem test_witness_KeyTableStepsResult :
    ∃ k : Schedule, keyed.ktValid = true ∧ k = init2 ⟨keyed.table, keyed.w0.val, keyed.w1.val, keyed.w2.val⟩ :=
  ⟨_, rfl, rfl⟩

theorem test_witness_KeyTableCommandsNeedTheTable :
    fresh.ktValid = false ∧ Instr.ktUpdate ∈ [Instr.ktInit2, .ktUpdate, .ktAdvance, .blkEnc, .blkDec] := by decide

theorem test_witness_BlockCommandsResult :
    ∃ s : State, s.ktValid = true ∧ blockE s.table (s.blkA.val, s.blkB.val) = (2, 1) ∧
      blockD s.table (s.blkA.val, s.blkB.val) = (2, 1) :=
  ⟨{ keyed with blkA := ⟨1, false⟩, blkB := ⟨2, false⟩ }, rfl, blockE_zeroTable _, blockD_zeroTable _⟩

theorem test_witness_BlockCommandsRoundTrip : keyed.ktValid = true := rfl

theorem test_witness_SaDetectReportsTheVerdict :
    0x4008 ≤ (withImage 0x4008 altCells [.done] fresh).port.image.len ∧
      (withImage 0x4008 altCells [.done] fresh).port.answers = .done :: [] := by decide

/-- A byte short, and a bus error on the peek at the least length, for each of the two bounds. -/
theorem test_witness_SecureAreaEarlyFailures :
    Instr.saEnc ∈ [Instr.saDetect, .saDec, .saEnc] ∧
      (withImage 0x4007 [] [] fresh).port.image.len < (if Instr.saDetect = .saDetect then 0x4008 else 0x4800) ∧
      (withImage 0x47FF [] [] fresh).port.image.len < (if Instr.saEnc = .saDetect then 0x4008 else 0x4800) ∧
      (if Instr.saEnc = .saDetect then 0x4008 else 0x4800) ≤ (withImage 0x4800 [] [.error []] fresh).port.image.len ∧
      (withImage 0x4800 [] [.error []] fresh).port.answers = .error [] :: [] := by decide

/-- Both verdicts. -/
theorem test_witness_SecureAreaAlreadyExit :
    0x4800 ≤ (withImage 0x4800 altCells [.done] fresh).port.image.len ∧
      isDec (le32 ((withImage 0x4800 altCells [.done] fresh).port.image.bytes 0x4000 8) 0,
        le32 ((withImage 0x4800 altCells [.done] fresh).port.image.bytes 0x4000 8) 4) = true ∧
      isDec (le32 ((withImage 0x4800 magicCells [.done] fresh).port.image.bytes 0x4000 8) 0,
        le32 ((withImage 0x4800 magicCells [.done] fresh).port.image.bytes 0x4000 8) 4) = false ∧
      (withImage 0x4800 altCells [.done] fresh).port.answers = .done :: [] := by decide

/-- The functions a secure-area statement names exist: the words of a block, and D or E on them (R63, R64). -/
theorem test_witness_SaDecDecryptsTheArea :
    ∃ (s : State) (k2 k3 : Schedule) (words : Image → Nat → U32 × U32) (dec : Table → U32 × U32 → U32 × U32)
      (p : U32 × U32),
      (∀ img a, words img a = (le32 (img.bytes a 8) 0, le32 (img.bytes a 8) 4)) ∧
      (∀ t w, dec t w = ((blockD t (w.2, w.1)).2, (blockD t (w.2, w.1)).1)) ∧
      k2 = init1 s.params.seed s.gamecode.val ∧ k3 = init2 ⟨k2.table, k2.w0, k2.w1 <<< 1, k2.w2 >>> 1⟩ ∧
      s.port.image.wf = true ∧ 0x4800 ≤ s.port.image.len ∧
      s.port.answers = List.replicate 512 .done ++ [] ∧ isDec (words s.port.image 0x4000) = false ∧
      p = dec k3.table (dec k2.table (words s.port.image 0x4000)) :=
  ⟨withImage 0x4800 magicCells (clean 512) fresh, _, _, fun img a => blockWords (img.bytes a 8),
    fun t w => onWords (blockD t) w, _, fun _ _ => rfl, fun _ _ => rfl, rfl, rfl, by decide, by decide,
    (List.append_nil _).symm, by decide, rfl⟩

theorem test_witness_SaEncEncryptsTheArea :
    ∃ (s : State) (k2 k3 : Schedule) (words : Image → Nat → U32 × U32) (enc : Table → U32 × U32 → U32 × U32)
      (p : U32 × U32),
      (∀ img a, words img a = (le32 (img.bytes a 8) 0, le32 (img.bytes a 8) 4)) ∧
      (∀ t w, enc t w = ((blockE t (w.2, w.1)).2, (blockE t (w.2, w.1)).1)) ∧
      k2 = init1 s.params.seed s.gamecode.val ∧ k3 = init2 ⟨k2.table, k2.w0, k2.w1 <<< 1, k2.w2 >>> 1⟩ ∧
      s.port.image.wf = true ∧ 0x4800 ≤ s.port.image.len ∧
      s.port.answers = List.replicate 513 .done ++ [] ∧ isDec (words s.port.image 0x4000) = true ∧
      p = (if words s.port.image 0x4000 = (0xE7FFDEFF, 0xE7FFDEFF) then (0x72636E65, 0x6A624F79)
        else words s.port.image 0x4000) :=
  ⟨withImage 0x4800 markerCells (clean 513) fresh, _, _, fun img a => blockWords (img.bytes a 8),
    fun t w => onWords (blockE t) w, _, fun _ _ => rfl, fun _ _ => rfl, rfl, rfl, by decide, by decide,
    (List.append_nil _).symm, by decide, rfl⟩

/-- SA.DEC with the bus error on its second access, the write of block 0. -/
theorem test_witness_LateBusErrorLosesTheSchedule :
    ∃ s t : State, 0x4800 ≤ s.port.image.len ∧ s.port.answers = .done :: [.error [1, 2, 3, 4, 5, 6, 7, 8]] ∧
      exec .saDec s = .next t ∧ t.result = .ioFail := by
  obtain ⟨k2, k3, _, _, ⟨h, _⟩ | ⟨q, _, e, _⟩ | ⟨B, q, _, e, v, _⟩ | ⟨B, q, q', _, e, _, e2, _⟩ | ⟨B, q, q', _, _, _, _, h⟩⟩ :=
    execSaDec_cases (withImage 0x4800 magicCells [.done, .error [1, 2, 3, 4, 5, 6, 7, 8]] fresh)
  · exact absurd h (by decide)
  · rw [memRead_done rfl] at e
    cases e
  · rw [memRead_done rfl] at e
    cases e
    exact absurd v (by decide)
  · rw [memRead_done rfl] at e
    cases e
    rw [decryptArea, memWrite_torn rfl] at e2
    cases e2
  · exact ⟨_, _, by decide, rfl, h, rfl⟩

/-- For every n of SA.DEC's clause, and of SA.ENC's: the boundaries are n = 1, and n = 511 and 512. -/
theorem test_witness_LateBusErrorLeavesTheDraws (n : Nat) (h : 1 ≤ n) :
    ∃ (s s' : State) (k2 k3 : Schedule) (words : Image → Nat → U32 × U32),
      (∀ img k, words img k = (le32 (img.bytes (0x4000 + 8 * k) 8) 0, le32 (img.bytes (0x4000 + 8 * k) 8) 4)) ∧
      k2 = init1 s.params.seed s.gamecode.val ∧ k3 = primed k2 ∧ s'.params = s.params ∧ s'.gamecode = s.gamecode ∧
      s.port.image.wf = true ∧ s'.port.image.wf = true ∧ 0x4800 ≤ s.port.image.len ∧ 0x4800 ≤ s'.port.image.len ∧
      1 ≤ n ∧ s.port.answers = List.replicate n .done ++ .error [1, 2, 3, 4, 5, 6, 7, 8] :: [] ∧
      s'.port.answers = List.replicate n .done ++ .error [1, 2, 3, 4, 5, 6, 7, 8] :: [] ∧
      isDec (words s.port.image 0) = false ∧ isDec (words s'.port.image 0) = true :=
  ⟨withImage 0x4800 magicCells (clean n ++ [.error [1, 2, 3, 4, 5, 6, 7, 8]]) fresh,
    withImage 0x4800 markerCells (clean n ++ [.error [1, 2, 3, 4, 5, 6, 7, 8]]) fresh, _, _,
    fun img k => blockWords (img.bytes (0x4000 + 8 * k) 8), fun _ _ => rfl, rfl, rfl, rfl, rfl,
    (by decide : (⟨0x4800, magicCells⟩ : Image).wf = true), (by decide : (⟨0x4800, markerCells⟩ : Image).wf = true),
    Nat.le_refl 0x4800, Nat.le_refl 0x4800, h, rfl, rfl,
    (by decide : isDec (blockWords (Image.bytes ⟨0x4800, magicCells⟩ 0x4000 8)) = false),
    (by decide : isDec (blockWords (Image.bytes ⟨0x4800, markerCells⟩ 0x4000 8)) = true)⟩

/-- Under a SEED of zeros and the game code 0 both tables are zero, D only swaps, and MAGIC decrypts to itself. -/
theorem test_witness_EncryptRestoresTheCiphertext :
    ∃ (s : State) (k2 k3 : Schedule) (w p : U32 × U32),
      k2 = init1 s.params.seed s.gamecode.val ∧ k3 = primed k2 ∧ s.port.image.wf = true ∧
      0x4800 ≤ s.port.image.len ∧ s.port.answers = List.replicate 1025 .done ++ [] ∧
      w = blockWords (s.port.image.bytes 0x4000 8) ∧ isDec w = false ∧
      p = onWords (blockD k3.table) (onWords (blockD k2.table) w) ∧ (p = magic ∨ p = altMarker) := by
  refine ⟨withImage 0x4800 magicCells (clean 1025) fresh, ⟨zeroTable, 0, 0, 0⟩, ⟨zeroTable, 0, 0, 0⟩, _, _,
    init1_zeroTable.symm, primed_zeroTable.symm, by decide, by decide, (List.append_nil _).symm, rfl, by decide, rfl,
    .inl ?_⟩
  simp only [onWords, blockD_zeroTable]
  decide

theorem test_witness_DecryptRestoresThePlaintext :
    ∃ (s : State) (k2 k3 : Schedule) (w : U32 × U32),
      k2 = init1 s.params.seed s.gamecode.val ∧ k3 = primed k2 ∧ s.port.image.wf = true ∧
      0x4800 ≤ s.port.image.len ∧ s.port.answers = List.replicate 1025 .done ++ [] ∧
      w = blockWords (s.port.image.bytes 0x4000 8) ∧ (w = marker ∨ w = altMarker) ∧
      isDec (encryptHead k2.table k3.table w) = false := by
  refine ⟨withImage 0x4800 markerCells (clean 1025) fresh, ⟨zeroTable, 0, 0, 0⟩, ⟨zeroTable, 0, 0, 0⟩, _,
    init1_zeroTable.symm, primed_zeroTable.symm, by decide, by decide, (List.append_nil _).symm, rfl,
    .inl (by decide), ?_⟩
  simp only [encryptHead, onWords, blockE_zeroTable]
  decide

/-- BLK_A and BLK_B hold block 0, MAGIC; blocks 1 and 255 hold zeros. -/
theorem test_witness_HostReplaysTheSecureAreaHead :
    ∃ (s : State) (k2 k3 : Schedule) (words : Image → Nat → U32 × U32),
      k2 = init1 s.params.seed s.gamecode.val ∧ k3 = primed k2 ∧
      (∀ img k, words img k = (le32 (img.bytes (0x4000 + 8 * k) 8) 0, le32 (img.bytes (0x4000 + 8 * k) 8) 4)) ∧
      s.port.image.wf = true ∧ 0x4800 ≤ s.port.image.len ∧ s.port.answers = List.replicate 512 .done ++ [] ∧
      isDec (words s.port.image 0) = false ∧ (s.blkB.val, s.blkA.val) = words s.port.image 0 ∧
      (0, 0) = words s.port.image 1 ∧ (0, 0) = words s.port.image 255 :=
  ⟨{ withImage 0x4800 magicCells (clean 512) fresh with blkA := ⟨0x6A624F79, false⟩, blkB := ⟨0x72636E65, false⟩ },
    _, _, fun img k => blockWords (img.bytes (0x4000 + 8 * k) 8), rfl, rfl, fun _ _ => rfl, by decide, by decide,
    (List.append_nil _).symm, by decide, by decide, by decide, by decide⟩

theorem test_witness_ScrambleIsBijective : (1 : U128) ≠ 0 := by decide

theorem test_witness_KeyselSelectsTheSlotsKey :
    fresh.ksState ≠ .ready ∧ ready.ksState = .ready ∧ (∀ e ∈ ready.params.methodMap, e.1 ≠ 0x02) ∧
      methodSlot ready.params.methodMap 0x0B = some .slot1B := by decide

theorem test_witness_ScrambleDerivesTheKey : fresh.ksState ≠ .ready ∧ ready.ksState = .ready := by decide

/-- Sixteen bytes of zeros, and AES-128 of them under them, round by round: the round keys and states, by
block. -/
def zeroBytes : List U8 := List.replicate 16 0
def aesTrace : List (AesBlock × AesBlock) :=
  rconMiddle.scanl aesRound (aesBlock zeroBytes, (aesBlock zeroBytes).addKey (aesBlock zeroBytes))
def aesKeys : List (List U8) :=
  (aesTrace.map fun x => x.1.bytes) ++ (aesTrace.drop 9).map fun x => (nextKey x.1 rconLast).bytes
def aesStates : List (List U8) := (aesTrace.map fun x => x.2.bytes) ++ [aes128 zeroBytes zeroBytes]
def aesW (i b : Nat) : U8 := byteAt (aesKeys.getD (i / 4) []) (4 * (i % 4) + b)
def aesX (n r c : Nat) : U8 := byteAt (aesStates.getD n []) (r + 4 * c)
def aesY (n r c : Nat) : U8 := sbox (aesX n r ((c + r) % 4))
def aesRcon : List U8 := [0x01, 0x02, 0x04, 0x08, 0x10, 0x20, 0x40, 0x80, 0x1B, 0x36]

theorem test_witness_AesFollowsItsRounds_dbl :
    ∀ b : U8, (xtime b).toNat = if b.toNat < 0x80 then 2 * b.toNat else (2 * b.toNat) ^^^ 0x11B := by decide +kernel

theorem test_witness_AesFollowsItsRounds_keys :
    (∀ i, i < 4 → ∀ b, b < 4 → aesW i b = byteAt zeroBytes (4 * i + b)) ∧
      ∀ i, i < 44 → ∀ b, b < 4 → 4 ≤ i → aesW i b = aesW (i - 4) b ^^^
        (if i % 4 = 0 then sbox (aesW (i - 1) ((b + 1) % 4)) ^^^ (if b = 0 then aesRcon.getD (i / 4 - 1) 0 else 0)
          else aesW (i - 1) b) := by decide +kernel

theorem test_witness_AesFollowsItsRounds_states :
    (∀ r, r < 4 → ∀ c, c < 4 → aesX 0 r c = byteAt zeroBytes (r + 4 * c) ^^^ aesW c r) ∧
      (∀ n, n < 9 → ∀ r, r < 4 → ∀ c, c < 4 → aesX (n + 1) r c =
        xtime (aesY n r c) ^^^ (xtime (aesY n ((r + 1) % 4) c) ^^^ aesY n ((r + 1) % 4) c) ^^^
          aesY n ((r + 2) % 4) c ^^^ aesY n ((r + 3) % 4) c ^^^ aesW (4 * (n + 1) + c) r) ∧
      ∀ r, r < 4 → ∀ c, c < 4 → aesX 10 r c = aesY 9 r c ^^^ aesW (40 + c) r := by decide +kernel

theorem test_witness_AesFollowsItsRounds :
    ∃ (K P : List U8) (dbl : U8 → U8) (rcon : List U8) (w : Nat → Nat → U8) (x y : Nat → Nat → Nat → U8),
      (∀ b, (dbl b).toNat = if b.toNat < 0x80 then 2 * b.toNat else (2 * b.toNat) ^^^ 0x11B) ∧
      rcon = [0x01, 0x02, 0x04, 0x08, 0x10, 0x20, 0x40, 0x80, 0x1B, 0x36] ∧
      (∀ i b, i < 4 → b < 4 → w i b = byteAt K (4 * i + b)) ∧
      (∀ i b, 4 ≤ i → i < 44 → b < 4 → w i b = w (i - 4) b ^^^
        (if i % 4 = 0 then sbox (w (i - 1) ((b + 1) % 4)) ^^^ (if b = 0 then rcon.getD (i / 4 - 1) 0 else 0)
          else w (i - 1) b)) ∧
      (∀ r c, r < 4 → c < 4 → x 0 r c = byteAt P (r + 4 * c) ^^^ w c r) ∧
      (∀ n r c, n < 10 → r < 4 → c < 4 → y n r c = sbox (x n r ((c + r) % 4))) ∧
      (∀ n r c, n < 9 → r < 4 → c < 4 → x (n + 1) r c =
        dbl (y n r c) ^^^ (dbl (y n ((r + 1) % 4) c) ^^^ y n ((r + 1) % 4) c) ^^^ y n ((r + 2) % 4) c ^^^
          y n ((r + 3) % 4) c ^^^ w (4 * (n + 1) + c) r) ∧
      ∀ r c, r < 4 → c < 4 → x 10 r c = y 9 r c ^^^ w (40 + c) r :=
  ⟨zeroBytes, zeroBytes, xtime, aesRcon, aesW, aesX, aesY, test_witness_AesFollowsItsRounds_dbl, rfl,
    fun i b hi hb => test_witness_AesFollowsItsRounds_keys.1 i hi b hb,
    fun i b h4 hi hb => test_witness_AesFollowsItsRounds_keys.2 i hi b hb h4,
    fun r c hr hc => test_witness_AesFollowsItsRounds_states.1 r hr c hc,
    fun _ _ _ _ _ _ => rfl,
    fun n r c hn hr hc => test_witness_AesFollowsItsRounds_states.2.1 n hn r hr c hc,
    fun r c hr hc => test_witness_AesFollowsItsRounds_states.2.2 r hr c hc⟩

/-- 0x02 and 0x8D are inverse to each other; 0 stands with 0. -/
theorem test_witness_SboxIsTheAffineInverse :
    (gfMul 0x02 0x8D 8 = 1 ∨ ((0x02 : U8) = 0 ∧ (0x8D : U8) = 0)) ∧ (gfMul 0 0 8 = 1 ∨ ((0 : U8) = 0 ∧ (0 : U8) = 0)) := by
  decide

theorem test_witness_CtrInitLoadsTheCounter :
    ∀ tag : BitVec 2, tag ≠ 3 → ∃ tw : U64, (tag = 0 ∧ tw = fresh.params.tagPlain) ∨
      (tag = 1 ∧ tw = fresh.params.tagExefs) ∨ (tag = 2 ∧ tw = fresh.params.tagRomfs) := by
  intro tag h
  have : tag = 0 ∨ tag = 1 ∨ tag = 2 := by revert tag; decide
  rcases this with h | h | h
  · exact ⟨_, .inl ⟨h, rfl⟩⟩
  · exact ⟨_, .inr (.inl ⟨h, rfl⟩)⟩
  · exact ⟨_, .inr (.inr ⟨h, rfl⟩)⟩

theorem test_witness_InitialCountersAreDistinct :
    (4 : U64) ≠ 5 ∧ testParams.ctrLayout = .tagHigh ∧ tagWord testParams .plain ≠ tagWord testParams .romfs := by decide

/-- The all-zero row of V-AES-1. -/
theorem test_witness_CtrStepMakesOneKeystreamBlock :
    ∃ ks c : U128, bytesBE128 ks = aes128 (bytesBE128 fresh.kn.val) (bytesBE128 fresh.ctr.val) ∧
      c.toNat = (fresh.ctr.val.toNat + 1) % 2 ^ 128 :=
  ⟨0x66e94bd4ef8a2c3b884cfa59ca342b2e, 1, by decide +kernel, by decide⟩

/-- A region of 20 bytes that ends where the image ends. -/
def regional : State :=
  withImage 24 [] (clean 8) { ready with
    method := ⟨1, false⟩, keyY := ⟨0, false⟩, ctrId := ⟨0, false⟩, regOff := ⟨4, false⟩, regLen := ⟨20, false⟩ }

theorem test_witness_CtrXformTransformsTheRegion :
    regional.port.image.wf = true ∧ regional.regOff.val.toNat + regional.regLen.val.toNat ≤ regional.port.image.len ∧
      regional.port.answers = List.replicate (2 * ((regional.regLen.val.toNat + 15) / 16)) .done ++ clean 4 := by decide

/-- The empty region at the end of the image. -/
theorem test_witness_CtrXformTransformsTheRegion_empty :
    ∃ s : State, s.port.image.wf = true ∧ s.regOff.val.toNat + s.regLen.val.toNat ≤ s.port.image.len ∧
      s.regLen.val.toNat = 0 ∧
      s.port.answers = List.replicate (2 * ((s.regLen.val.toNat + 15) / 16)) .done ++ clean 8 :=
  ⟨{ regional with regOff := ⟨24, false⟩, regLen := ⟨0, false⟩ }, by decide, by decide, by decide, by decide⟩

theorem test_witness_CtrXformTwiceRestores :
    regional.port.image.wf = true ∧ regional.regOff.val.toNat + regional.regLen.val.toNat ≤ regional.port.image.len ∧
      regional.port.answers = List.replicate (4 * ((regional.regLen.val.toNat + 15) / 16)) .done ++ [] := by decide

/-- Both blocks of a region of 20 bytes, the bus error on the read and on the write. -/
theorem test_witness_CtrXformBusError (k n : Nat) (hk : k < 2) (hn : n = 2 * k ∨ n = 2 * k + 1) :
    ∃ (s : State) (off len : Nat), off = s.regOff.val.toNat ∧ len = s.regLen.val.toNat ∧ s.port.image.wf = true ∧
      off + len ≤ s.port.image.len ∧ k < (len + 15) / 16 ∧ (n = 2 * k ∨ n = 2 * k + 1) ∧
      s.port.answers = List.replicate n .done ++ .error [1, 2, 3, 4] :: [] :=
  ⟨withImage 24 [] (clean n ++ [.error [1, 2, 3, 4]]) regional, 4, 20, rfl, rfl,
    (by decide : (⟨24, []⟩ : Image).wf = true), Nat.le_refl 24, by omega, hn, rfl⟩

/-- Each of the four checks. -/
theorem test_witness_CounterModeChecks :
    (2 : BitVec 2) ≠ 3 ∧ fresh.ksState ≠ .ready ∧ ready.ksState = .ready ∧
      methodSlot ready.params.methodMap 0x02 = none ∧ methodSlot regional.params.methodMap regional.method.val ≠ none ∧
      (withImage 23 [] [] regional).port.image.len < regional.regOff.val.toNat + regional.regLen.val.toNat := by decide

theorem test_witness_PrXformTransformsTheRegion :
    regionOf 2 = some .romfs ∧ regional.ksState = .ready ∧
      methodSlot regional.params.methodMap regional.method.val = some .slot25 ∧ regional.port.image.wf = true ∧
      regional.regOff.val.toNat + regional.regLen.val.toNat ≤ regional.port.image.len ∧
      regional.port.answers = List.replicate (2 * ((regional.regLen.val.toNat + 15) / 16)) .done ++ clean 4 := by decide

theorem test_witness_PrXformIsFourCommands :
    (0 : BitVec 2) ≠ 3 ∧ regional.ksState = .ready ∧
      methodSlot regional.params.methodMap regional.method.val ≠ none ∧
      regional.regOff.val.toNat + regional.regLen.val.toNat ≤ regional.port.image.len := by decide

end Sys2Proof.Tests
end

/-! ## UNDEFINED content (R15, R306)

Two states agree on everything the spec gives a value when their blanked states are equal. Each command reads only
contents that such states share, and `State.blank` commutes with its writes: those writes applied to both sides of the
equation (`congrArg`) give the equation of the next states. -/

namespace Sys2Proof.Machine

/-! ### What two states with the same blanked state share -/

/-- A register that holds something is the same in both. -/
theorem Reg.eq_of_blank_eq {w : Nat} {r q : Reg w} (h : r.blank = q.blank) (hr : r.undef = false) : r = q := by
  rcases hq : q.undef with _ | _
  · simpa [Reg.blank, hr, hq] using h
  · have hmark := congrArg Reg.undef h
    simp [Reg.blank, Reg.atReset, hr, hq] at hmark

/-- With every KSTAGE register written none is left out (R121). -/
theorem blankStage_allStaged (k : Vector U128 9) : blankStage allStaged k = k := by
  have hbit : ∀ i : Fin 9, allStaged.getLsbD i.val = true := by decide
  ext1 i hi
  simp [blankStage, hbit ⟨i, hi⟩]

section
variable {s t : State} (h : s.blank = t.blank)
include h

theorem params_eq_of_blank_eq : s.params = t.params := (congrArg State.params h :)

theorem port_eq_of_blank_eq : s.port = t.port := (congrArg State.port h :)

theorem ksState_eq_of_blank_eq : s.ksState = t.ksState := (congrArg State.ksState h :)

theorem ktValid_eq_of_blank_eq : s.ktValid = t.ktValid := (congrArg State.ktValid h :)

theorem kstageWr_eq_of_blank_eq : s.kstageWr = t.kstageWr := (congrArg State.kstageWr h :)

/-- T is defined while KT_VALID = 1 (R33). -/
theorem table_eq_of_blank_eq (hv : s.ktValid = true) : s.table = t.table := by
  have hv' : t.ktValid = true := ktValid_eq_of_blank_eq h ▸ hv
  simpa [State.blank, hv, hv'] using congrArg State.table h

/-- The key store is defined while KSSTATE is READY (R34). -/
theorem store_eq_of_blank_eq (hk : s.ksState = .ready) : s.store = t.store := by
  have hk' : t.ksState = .ready := ksState_eq_of_blank_eq h ▸ hk
  simpa [State.blank, hk, hk'] using congrArg State.store h

/-- The staging registers are defined once all are written (R36). -/
theorem kstage_eq_of_blank_eq (hw : s.kstageWr = allStaged) : s.kstage = t.kstage := by
  have hw' : t.kstageWr = allStaged := kstageWr_eq_of_blank_eq h ▸ hw
  simpa [State.blank, hw, hw', blankStage_allStaged] using congrArg State.kstage h

end

/-! ### What the model's operations read and write -/

/-- W2 is no operand of the gathering, which stays below byte 8 (R144, R148). -/
theorem gather_serialiseW (w0 w1 w2 v2 : U32) (j : Nat) :
    gather (serialiseW w0 w1 w2) j = gather (serialiseW w0 w1 v2) j := by
  have hbyte : ∀ (w : U32) (i : Nat), byteAt (serialiseW w0 w1 w) (i % 8) =
      byteAt (bytesLE32 w0 ++ bytesLE32 w1) (i % 8) :=
    fun w i => List.getD_append _ _ _ _ (Nat.mod_lt i (by decide))
  simp only [gather, hbyte]

theorem updateTable_serialiseW (w0 w1 w2 v2 : U32) (T : Table) :
    updateTable (serialiseW w0 w1 w2) T = updateTable (serialiseW w0 w1 v2) T := by
  have hxor : xorPhase (serialiseW w0 w1 w2) T = xorPhase (serialiseW w0 w1 v2) T := by
    simp only [xorPhase, gather_serialiseW w0 w1 w2 v2]
  rw [updateTable, updateTable, hxor]

/-- An empty region: no access, and KN and CTR are not read (R255). -/
theorem ctrTransform_empty {s : State} (hz : s.regLen.val = 0) : ctrTransform s = finish s := by
  rw [ctrTransform, hz]
  rfl

/-- T and W, lost after a late bus error, are left out (R186). -/
theorem State.blank_loseSchedule (s : State) :
    s.loseSchedule.blank = { s.blank with
      table := State.reset.table, w0 := .atReset 32, w1 := .atReset 32, w2 := .atReset 32, ktValid := false
      port := { s.port with draws := s.port.draws + 3 } } := rfl

/-- PR.XFORM writes KEYX, KN and CTR (R258). -/
theorem prPrepared_blank (s : State) (dev : Bool) (r : Region) (k : Keyslot) :
    (prPrepared s dev r k).blank = { s.blank with
      keyX := .written (selectKeyX s.store dev k)
      kn := .written (scramble (selectKeyX s.store dev k) s.keyY.val s.store.ksc)
      ctr := .written (counterInit s.params r s.ctrId.val) } := rfl

/-! ### Commands that end alike -/

/-- Both results are next states, and these agree on everything the spec gives a value. -/
def EndAlike (r q : Result) : Prop := ∃ s' t', r = .next s' ∧ q = .next t' ∧ s'.blank = t'.blank

theorem EndAlike.ite {c d : Prop} [Decidable c] [Decidable d] {r q r' q' : Result} (hcd : c ↔ d)
    (hc : c → EndAlike r q) (hn : ¬c → EndAlike r' q') :
    EndAlike (if c then r else r') (if d then q else q') := by
  by_cases h : c
  · rw [if_pos h, if_pos (hcd.1 h)]
    exact hc h
  · rw [if_neg h, if_neg (mt hcd.2 h)]
    exact hn h

theorem raise_endAlike {s t : State} (c : Code) (h : s.blank = t.blank) : EndAlike (raise c s) (raise c t) :=
  ⟨_, _, rfl, rfl, congrArg (State.withResult c) h⟩

theorem finish_endAlike {s t : State} (h : s.blank = t.blank) : EndAlike (finish s) (finish t) :=
  raise_endAlike .ok h

section
variable {s t : State} (h : s.blank = t.blank)
include h

theorem methodSlot_eq_of_blank_eq (hm : s.method = t.method) :
    methodSlot s.params.methodMap s.method.val = methodSlot t.params.methodMap t.method.val := by
  rw [params_eq_of_blank_eq h, hm]

/-! ### The key store and the key scrambler -/

theorem execKsInit_endAlike (ok : Bool) : EndAlike (execKsInit ok s) (execKsInit ok t) := by
  unfold execKsInit
  refine .ite (by rw [ksState_eq_of_blank_eq h]) (fun _ => finish_endAlike h) fun _ =>
    .ite (by rw [kstageWr_eq_of_blank_eq h]) (fun _ => raise_endAlike _ ?_) fun hw => ?_
  · exact congrArg (fun b : State => { b with ksState := .failed, store := State.reset.store }) h
  · have hall : s.kstageWr = allStaged := not_not.1 fun hne => hw (.inr hne)
    have hstore : stagedStore s.kstage = stagedStore t.kstage := by rw [kstage_eq_of_blank_eq h hall]
    rw [hstore]
    exact finish_endAlike (congrArg (fun b : State => { b with store := stagedStore t.kstage, ksState := .ready }) h)

theorem execAesKeysel_endAlike (dev : Bool) (hr : readsUndefined (.aesKeysel dev) s = false) :
    EndAlike (execAesKeysel dev s) (execAesKeysel dev t) := by
  unfold execAesKeysel
  refine .ite (by rw [ksState_eq_of_blank_eq h]) (fun _ => raise_endAlike _ h) fun hk => ?_
  have hk' : s.ksState = .ready := not_not.1 hk
  have hm : s.method = t.method :=
    Reg.eq_of_blank_eq (congrArg State.method h) (by simpa [readsUndefined, hk'] using hr)
  rw [methodSlot_eq_of_blank_eq h hm]
  rcases methodSlot t.params.methodMap t.method.val with _ | k
  · exact raise_endAlike _ h
  · have hx : selectKeyX s.store dev k = selectKeyX t.store dev k := by rw [store_eq_of_blank_eq h hk']
    simp only [hx]
    exact finish_endAlike (congrArg (fun b : State => { b with keyX := .written (selectKeyX t.store dev k) }) h)

theorem execAesScramble_endAlike (hr : readsUndefined .aesScramble s = false) :
    EndAlike (execAesScramble s) (execAesScramble t) := by
  unfold execAesScramble
  refine .ite (by rw [ksState_eq_of_blank_eq h]) (fun _ => raise_endAlike _ h) fun hk => ?_
  have hk' : s.ksState = .ready := not_not.1 hk
  obtain ⟨hx, hy⟩ : s.keyX.undef = false ∧ s.keyY.undef = false := by simpa [readsUndefined, hk'] using hr
  have hkn : scramble s.keyX.val s.keyY.val s.store.ksc = scramble t.keyX.val t.keyY.val t.store.ksc := by
    rw [store_eq_of_blank_eq h hk', Reg.eq_of_blank_eq (congrArg State.keyX h) hx,
      Reg.eq_of_blank_eq (congrArg State.keyY h) hy]
  rw [hkn]
  exact finish_endAlike
    (congrArg (fun b : State => { b with kn := .written (scramble t.keyX.val t.keyY.val t.store.ksc) }) h)

/-! ### The key table -/

/-- T and W as an operand are the same while both are defined (R33). -/
theorem schedule_eq_of_blank_eq (hv : s.ktValid = true) (hw : s.wDefined = true) : s.schedule = t.schedule := by
  obtain ⟨⟨h0, h1⟩, h2⟩ : (s.w0.undef = false ∧ s.w1.undef = false) ∧ s.w2.undef = false := by
    simpa [State.wDefined] using hw
  rw [State.schedule, State.schedule, table_eq_of_blank_eq h hv, Reg.eq_of_blank_eq (congrArg State.w0 h) h0,
    Reg.eq_of_blank_eq (congrArg State.w1 h) h1, Reg.eq_of_blank_eq (congrArg State.w2 h) h2]

/-- One schedule put into T and W, which KT_VALID = 1 then defines (R33). -/
theorem finish_setSchedule_endAlike (k : Schedule) :
    EndAlike (finish { s.setSchedule k with ktValid := true }) (finish { t.setSchedule k with ktValid := true }) :=
  finish_endAlike (congrArg (fun b : State => { b.setSchedule k with ktValid := true }) h)

/-- The level-2 schedule, from GAMECODE and SEED (R146). -/
theorem init1_eq_of_blank_eq (hg : s.gamecode.undef = false) :
    init1 s.params.seed s.gamecode.val = init1 t.params.seed t.gamecode.val := by
  rw [params_eq_of_blank_eq h, Reg.eq_of_blank_eq (congrArg State.gamecode h) hg]

theorem execKtInit1_endAlike (hr : readsUndefined .ktInit1 s = false) :
    EndAlike (execKtInit1 s) (execKtInit1 t) := by
  unfold execKtInit1
  rw [init1_eq_of_blank_eq h hr]
  exact finish_setSchedule_endAlike h _

/-- What the commands that need T do alike: TABLE_NOT_INIT, or what they do with KT_VALID = 1 (R33). -/
theorem needsTable_endAlike {r q : Result} (hv : s.ktValid = true → EndAlike r q) :
    EndAlike (if s.ktValid = false then raise .tableNotInit s else r)
      (if t.ktValid = false then raise .tableNotInit t else q) :=
  .ite (by rw [ktValid_eq_of_blank_eq h]) (fun _ => raise_endAlike _ h) fun hn => hv (by simpa using hn)

theorem execKtInit2_endAlike (hr : readsUndefined .ktInit2 s = false) :
    EndAlike (execKtInit2 s) (execKtInit2 t) := by
  refine needsTable_endAlike h fun hv => ?_
  have hw : s.wDefined = true := by simpa [readsUndefined, hv] using hr
  rw [schedule_eq_of_blank_eq h hv hw]
  generalize init2 t.schedule = k
  exact finish_endAlike (congrArg
    (fun b : State => { b.setSchedule k with table := if b.ktValid then k.table else State.reset.table }) h)

/-- W2 may be UNDEFINED here: the table does not depend on it (R148). -/
theorem execKtUpdate_endAlike (hr : readsUndefined .ktUpdate s = false) :
    EndAlike (execKtUpdate s) (execKtUpdate t) := by
  refine needsTable_endAlike h fun hv => ?_
  obtain ⟨h0, h1⟩ : s.w0.undef = false ∧ s.w1.undef = false := by simpa [readsUndefined, hv] using hr
  have hT : updateTable (serialiseW s.w0.val s.w1.val s.w2.val) s.table =
      updateTable (serialiseW t.w0.val t.w1.val t.w2.val) t.table := by
    rw [table_eq_of_blank_eq h hv, Reg.eq_of_blank_eq (congrArg State.w0 h) h0,
      Reg.eq_of_blank_eq (congrArg State.w1 h) h1]
    exact updateTable_serialiseW _ _ _ _ _
  rw [hT]
  generalize updateTable (serialiseW t.w0.val t.w1.val t.w2.val) t.table = T
  exact finish_endAlike (congrArg
    (fun b : State => { b with table := if b.ktValid then T else State.reset.table }) h)

theorem execKtAdvance_endAlike (hr : readsUndefined .ktAdvance s = false) :
    EndAlike (execKtAdvance s) (execKtAdvance t) := by
  refine needsTable_endAlike h fun hv => ?_
  obtain ⟨h1, h2⟩ : s.w1.undef = false ∧ s.w2.undef = false := by simpa [readsUndefined, hv] using hr
  have hw1 : s.w1.val = t.w1.val := by rw [Reg.eq_of_blank_eq (congrArg State.w1 h) h1]
  have hw2 : s.w2.val = t.w2.val := by rw [Reg.eq_of_blank_eq (congrArg State.w2 h) h2]
  rw [hw1, hw2]
  exact finish_endAlike (congrArg
    (fun b : State => { b with w1 := .written (t.w1.val <<< 1), w2 := .written (t.w2.val >>> 1) }) h)

/-- BLK.ENC and BLK.DEC: one argument for the cipher function `f`. -/
theorem blockCommand_endAlike (f : Table → U32 × U32 → U32 × U32)
    (hr : (s.ktValid && (s.blkA.undef || s.blkB.undef)) = false) :
    EndAlike (blockCommand f s) (blockCommand f t) := by
  refine needsTable_endAlike h fun hv => ?_
  obtain ⟨ha, hb⟩ : s.blkA.undef = false ∧ s.blkB.undef = false := by simpa [hv] using hr
  have hx : f s.table (s.blkA.val, s.blkB.val) = f t.table (t.blkA.val, t.blkB.val) := by
    rw [table_eq_of_blank_eq h hv, Reg.eq_of_blank_eq (congrArg State.blkA h) ha,
      Reg.eq_of_blank_eq (congrArg State.blkB h) hb]
  simp only [hx]
  generalize f t.table (t.blkA.val, t.blkB.val) = x
  exact finish_endAlike (congrArg (fun b : State => { b with blkA := .written x.1, blkB := .written x.2 }) h)

/-! ### The secure area -/

theorem execSaDetect_endAlike : EndAlike (execSaDetect s) (execSaDetect t) := by
  unfold execSaDetect
  rw [port_eq_of_blank_eq h]
  refine .ite Iff.rfl (fun _ => raise_endAlike _ h) fun _ => ?_
  rcases memRead saBase 8 t.port with ⟨B, q⟩ | ⟨q⟩
  · exact finish_endAlike (congrArg (fun b : State => { b with port := q, saDec := isDec (blockWords B) }) h)
  · exact raise_endAlike _ (congrArg (fun b : State => { b with port := q }) h)

/-- SA.XFORM's entry reads nothing but the image; what comes after it has to end alike only from states that
reach it (R182, R184). -/
theorem saEnter_endAlike {already : Bool} {go go' : U32 × U32 → State → Result}
    (hgo : saReachesInit already s = true → ∀ w q v,
      EndAlike (go w { s with port := q, saDec := v }) (go' w { t with port := q, saDec := v })) :
    EndAlike (saEnter already s go) (saEnter already t go') := by
  unfold saEnter
  unfold saReachesInit at hgo
  rw [port_eq_of_blank_eq h] at hgo ⊢
  refine .ite Iff.rfl (fun _ => raise_endAlike _ h) fun hl => ?_
  have hl' : 0x4800 ≤ t.port.image.len := by omega
  rcases hm : memRead saBase 8 t.port with ⟨B, q⟩ | ⟨q⟩
  · refine .ite Iff.rfl (fun _ => raise_endAlike _ ?_) fun hv => hgo ?_ _ _ _
    · exact congrArg (fun b : State => { b with port := q, saDec := isDec (blockWords B) }) h
    · simpa [hm, hl'] using hv
  · exact raise_endAlike _ (congrArg (fun b : State => { b with port := q }) h)

theorem saLeave_endAlike (k : Schedule) (a : Access Unit) : EndAlike (saLeave k s a) (saLeave k t a) := by
  rcases a with ⟨_, q⟩ | ⟨q⟩
  · exact finish_setSchedule_endAlike (congrArg (fun b : State => { b with port := q }) h) k
  · have hq : { s with port := q }.blank = { t with port := q }.blank :=
      congrArg (fun b : State => { b with port := q }) h
    refine raise_endAlike _ ?_
    rw [State.blank_loseSchedule, State.blank_loseSchedule, hq]

/-- SA.DEC and SA.ENC: one argument for the accesses `area` and the schedule `left` in T and W, which come from the
level-2 schedule (R182, R184). -/
theorem saXform_endAlike {already : Bool} {go : U32 × U32 → State → Result} (left : Schedule → Schedule)
    (area : Schedule → U32 × U32 → Port → Access Unit)
    (hgo : ∀ w u, go w u =
      saLeave (left (init1 u.params.seed u.gamecode.val)) u (area (init1 u.params.seed u.gamecode.val) w u.port))
    (hr : (saReachesInit already s && s.gamecode.undef) = false) :
    EndAlike (saEnter already s go) (saEnter already t go) := by
  refine saEnter_endAlike h fun hi w q v => ?_
  have hg : s.gamecode.undef = false := by simpa [hi] using hr
  simp only [hgo, init1_eq_of_blank_eq h hg]
  exact saLeave_endAlike (congrArg (fun b : State => { b with port := q, saDec := v }) h) _ _

theorem execSaDec_endAlike (hr : readsUndefined .saDec s = false) : EndAlike (execSaDec s) (execSaDec t) :=
  saXform_endAlike h primed (fun k w p => decryptArea k.table (primed k).table w p) (fun _ _ => rfl) hr

theorem execSaEnc_endAlike (hr : readsUndefined .saEnc s = false) : EndAlike (execSaEnc s) (execSaEnc t) :=
  saXform_endAlike h id (fun k _ p => encryptArea k.table (primed k).table p) (fun _ _ => rfl) hr

/-! ### Counter mode -/

theorem execCtrInit_endAlike (tag : BitVec 2) (hr : readsUndefined (.ctrInit tag) s = false) :
    EndAlike (execCtrInit tag s) (execCtrInit tag t) := by
  unfold execCtrInit
  rcases hg : regionOf tag with _ | r
  · exact raise_endAlike _ h
  · have hid : s.ctrId.undef = false := by simpa [readsUndefined, hg] using hr
    have hc : counterInit s.params r s.ctrId.val = counterInit t.params r t.ctrId.val := by
      rw [params_eq_of_blank_eq h, Reg.eq_of_blank_eq (congrArg State.ctrId h) hid]
    simp only [hc]
    exact finish_endAlike
      (congrArg (fun b : State => { b with ctr := .written (counterInit t.params r t.ctrId.val) }) h)

theorem execCtrStep_endAlike (hr : readsUndefined .ctrStep s = false) :
    EndAlike (execCtrStep s) (execCtrStep t) := by
  obtain ⟨hk, hc⟩ : s.kn.undef = false ∧ s.ctr.undef = false := by simpa [readsUndefined] using hr
  have hkn : s.kn.val = t.kn.val := by rw [Reg.eq_of_blank_eq (congrArg State.kn h) hk]
  have hctr : s.ctr.val = t.ctr.val := by rw [Reg.eq_of_blank_eq (congrArg State.ctr h) hc]
  have hks : be128 (keystream s.kn.val s.ctr.val) = be128 (keystream t.kn.val t.ctr.val) := by rw [hkn, hctr]
  unfold execCtrStep nextCounter
  rw [hks, hctr]
  generalize be128 (keystream t.kn.val t.ctr.val) = x
  exact finish_endAlike
    (congrArg (fun b : State => { b with kstream := .written x, ctr := .written (t.ctr.val + 1) }) h)

theorem regionFits_eq_of_blank_eq (ho : s.regOff = t.regOff) (hl : s.regLen = t.regLen) :
    regionFits s = regionFits t := by
  rw [regionFits, regionFits, ho, hl, port_eq_of_blank_eq h]

/-- CtrXform of the same region; KN and CTR count only where there is a byte to transform (R255, R256). -/
theorem ctrTransform_endAlike (ho : s.regOff = t.regOff) (hl : s.regLen = t.regLen)
    (hkc : s.regLen.val ≠ 0 → s.kn = t.kn ∧ s.ctr = t.ctr) : EndAlike (ctrTransform s) (ctrTransform t) := by
  by_cases hz : s.regLen.val = 0
  · rw [ctrTransform_empty hz, ctrTransform_empty (hl ▸ hz)]
    exact finish_endAlike h
  · obtain ⟨hk, hc⟩ := hkc hz
    have hx : ctrRegion s.kn.val (blockCount s.regLen.val.toNat) s.regOff.val.toNat s.regLen.val.toNat s.ctr s.port =
        ctrRegion t.kn.val (blockCount t.regLen.val.toNat) t.regOff.val.toNat t.regLen.val.toNat t.ctr t.port := by
      rw [hk, hc, ho, hl, port_eq_of_blank_eq h]
    unfold ctrTransform
    rw [hx]
    rcases ctrRegion t.kn.val (blockCount t.regLen.val.toNat) t.regOff.val.toNat t.regLen.val.toNat t.ctr t.port
      with ⟨c, ⟨_, q⟩ | ⟨q⟩⟩
    · exact finish_endAlike (congrArg (fun b : State => { b with ctr := c.blank, port := q }) h)
    · exact raise_endAlike _ (congrArg (fun b : State => { b with ctr := c.blank, port := q }) h)

theorem execCtrXform_endAlike (hr : readsUndefined .ctrXform s = false) :
    EndAlike (execCtrXform s) (execCtrXform t) := by
  obtain ⟨⟨hou, hlu⟩, hkc⟩ : (s.regOff.undef = false ∧ s.regLen.undef = false) ∧
      (regionFits s = true → s.regLen.val ≠ 0 → s.kn.undef = false ∧ s.ctr.undef = false) := by
    simpa [readsUndefined] using hr
  have ho : s.regOff = t.regOff := Reg.eq_of_blank_eq (congrArg State.regOff h) hou
  have hl : s.regLen = t.regLen := Reg.eq_of_blank_eq (congrArg State.regLen h) hlu
  unfold execCtrXform
  refine .ite (by rw [regionFits_eq_of_blank_eq h ho hl]) (fun _ => raise_endAlike _ h) fun hf => ?_
  refine ctrTransform_endAlike h ho hl fun hz => ?_
  obtain ⟨hk, hc⟩ := hkc (by simpa using hf) hz
  exact ⟨Reg.eq_of_blank_eq (congrArg State.kn h) hk, Reg.eq_of_blank_eq (congrArg State.ctr h) hc⟩

/-- What KEYX, KN and CTR are derived from is the same in both (R258). -/
theorem prPrepared_blank_eq (dev : Bool) (r : Region) (k : Keyslot) (hs : s.store = t.store) (hy : s.keyY = t.keyY)
    (hid : s.ctrId = t.ctrId) : (prPrepared s dev r k).blank = (prPrepared t dev r k).blank := by
  rw [prPrepared_blank, prPrepared_blank, h, hs, hy, hid, params_eq_of_blank_eq h]

theorem execPrXform_endAlike (tag : BitVec 2) (dev dir : Bool) (hr : readsUndefined (.prXform tag dev dir) s = false) :
    EndAlike (execPrXform tag dev dir s) (execPrXform tag dev dir t) := by
  unfold execPrXform
  rcases hg : regionOf tag with _ | r
  · exact raise_endAlike _ h
  refine .ite (by rw [ksState_eq_of_blank_eq h]) (fun _ => raise_endAlike _ h) fun hk => ?_
  have hk' : s.ksState = .ready := not_not.1 hk
  obtain ⟨hmu, hru⟩ : s.method.undef = false ∧ ((methodSlot s.params.methodMap s.method.val).isSome = true →
      (s.regOff.undef = false ∧ s.regLen.undef = false) ∧
        (regionFits s = true → s.keyY.undef = false ∧ s.ctrId.undef = false)) := by
    simpa [readsUndefined, hg, hk'] using hr
  rw [methodSlot_eq_of_blank_eq h (Reg.eq_of_blank_eq (congrArg State.method h) hmu)] at hru ⊢
  rcases hm : methodSlot t.params.methodMap t.method.val with _ | k
  · exact raise_endAlike _ h
  obtain ⟨⟨hou, hlu⟩, hfits⟩ := hru (by rw [hm]; rfl)
  have ho : s.regOff = t.regOff := Reg.eq_of_blank_eq (congrArg State.regOff h) hou
  have hl : s.regLen = t.regLen := Reg.eq_of_blank_eq (congrArg State.regLen h) hlu
  refine .ite (by rw [regionFits_eq_of_blank_eq h ho hl]) (fun _ => raise_endAlike _ h) fun hf => ?_
  obtain ⟨hyu, hidu⟩ := hfits (by simpa using hf)
  have hb := prPrepared_blank_eq h dev r k (store_eq_of_blank_eq h hk')
    (Reg.eq_of_blank_eq (congrArg State.keyY h) hyu) (Reg.eq_of_blank_eq (congrArg State.ctrId h) hidu)
  change EndAlike (ctrTransform (prPrepared s dev r k)) (ctrTransform (prPrepared t dev r k))
  exact ctrTransform_endAlike hb ho hl fun _ =>
    ⟨Reg.eq_of_blank_eq (congrArg State.kn hb :) rfl, Reg.eq_of_blank_eq (congrArg State.ctr hb :) rfl⟩

end

/-- Settles O11: command by command, what is read is shared by the two states and what is written is blanked alike. -/
theorem undefinedContentIsImmaterial : Obligations.UndefinedContentIsImmaterial := by
  intro i s t h hr
  cases i with
  | nop => exact finish_endAlike h
  | ksInit ok => exact execKsInit_endAlike h ok
  | ktInit1 => exact execKtInit1_endAlike h hr
  | ktInit2 => exact execKtInit2_endAlike h hr
  | ktUpdate => exact execKtUpdate_endAlike h hr
  | ktAdvance => exact execKtAdvance_endAlike h hr
  | blkEnc => exact blockCommand_endAlike h blockE hr
  | blkDec => exact blockCommand_endAlike h blockD hr
  | saDetect => exact execSaDetect_endAlike h
  | saDec => exact execSaDec_endAlike h hr
  | saEnc => exact execSaEnc_endAlike h hr
  | aesKeysel dev => exact execAesKeysel_endAlike h dev hr
  | aesScramble => exact execAesScramble_endAlike h hr
  | ctrInit tag => exact execCtrInit_endAlike h tag hr
  | ctrStep => exact execCtrStep_endAlike h hr
  | ctrXform => exact execCtrXform_endAlike h hr
  | prXform tag dev dir => exact execPrXform_endAlike h tag dev dir hr

end Sys2Proof.Machine

/-! ## The register file (R21 to R27)

The register file is reached by number: what a number names is said once (`hifReg`), then what a host write and a host
read of a named register do. -/

namespace Sys2Proof.Machine

/-! ### The numbers of the registers (R21, R25) -/

/-- The reserved numbers name nothing (R25). -/
theorem hifReg_reserved {n : U8}
    (h : (0x0C ≤ n.toNat ∧ n.toNat ≤ 0x0F) ∨ (0x15 ≤ n.toNat ∧ n.toNat ≤ 0x17) ∨ 0x21 ≤ n.toNat) : hifReg n = none := by
  unfold hifReg
  obtain h | h | h := h
  · rw [if_pos (by omega)]
    exact List.getElem?_eq_none h.1
  · rw [if_neg (by omega), if_pos (by omega)]
    exact List.getElem?_eq_none (Nat.le_sub_of_add_le h.1)
  · rw [if_neg (by omega), if_neg (by omega), dif_neg (by omega)]

/-- Numbers 0x18 to 0x20 name the nine staging registers, in order (R21). -/
theorem hifReg_eq_kstage {n : U8} {i : Fin 9} (h : n.toNat = 0x18 + i.val) : hifReg n = some (.kstage i) := by
  have hi : n.toNat - 0x18 = i.val := by omega
  rw [hifReg, if_neg (by omega), if_neg (by omega), dif_pos (by omega)]
  simp only [hi]

/-- Only number 0 is CMD (R21, R90). -/
theorem hifReg_eq_cmd {n : U8} : hifReg n = some .cmd → n = 0x00 := by
  revert n
  decide

/-! ### Host reads and writes of a named register (R23, R24) -/

theorem hostRead_of_hifReg {n : U8} {r : HifReg} (h : hifReg n = some r) (s : State) : hostRead n s = readReg r s := by
  rw [hostRead, h]

theorem hostWrite_of_hifReg {n : U8} {r : HifReg} (h : hifReg n = some r) (hr : r ≠ .cmd) (v : U128) (s : State) :
    hostWrite n v s = .next (writeReg r v s) := by
  rw [hostWrite, h]
  cases r with
  | cmd => exact absurd rfl hr
  | _ => rfl

/-- A host write: to a reserved number, of a command word, or to another register (R23, R25, R90). -/
theorem hostWrite_cases (n : U8) (v : U128) (s : State) :
    hostWrite n v s = .next s ∨ (n = 0x00 ∧ hostWrite n v s = issue (v.setWidth 32) s) ∨
      ∃ r, hostWrite n v s = .next (writeReg r v s) := by
  rcases h : hifReg n with _ | r
  · exact .inl (by rw [hostWrite, h])
  · by_cases hr : r = .cmd
    · subst hr
      obtain rfl := hifReg_eq_cmd h
      exact .inr (.inl ⟨rfl, rfl⟩)
    · exact .inr (.inr ⟨r, hostWrite_of_hifReg h hr v s⟩)

/-- A host read does not depend on the host's position. -/
theorem hostRead_takeAction (n : U8) (rest : List HostAction) (s : State) :
    hostRead n (s.takeAction rest) = hostRead n s := by
  rcases h : hifReg n with _ | r
  · rw [hostRead, hostRead, h]
  · rw [hostRead_of_hifReg h, hostRead_of_hifReg h]
    cases r <;> rfl

/-- The width of a register the host can both read and write (R21). -/
def HifReg.rwWidth : HifReg → Option Nat
  | .gamecode | .blkA | .blkB | .w0 | .w1 | .w2 => some 32
  | .regOff | .regLen | .ctrId => some 64
  | .method => some 8
  | .keyX | .keyY | .kn | .ctr => some 128
  | .cmd | .status | .kstream | .kstage _ => none

/-- Those registers by number, with their widths (R21). -/
def rwRegisters : List (U8 × Nat) :=
  [(0x02, 32), (0x03, 32), (0x04, 32), (0x05, 32), (0x06, 32), (0x07, 32), (0x08, 64), (0x09, 64), (0x0A, 8), (0x0B, 64),
   (0x10, 128), (0x11, 128), (0x12, 128), (0x13, 128)]

theorem rwWidth_of_mem_rwRegisters : ∀ p ∈ rwRegisters, (hifReg p.1).bind HifReg.rwWidth = some p.2 := by
  decide

theorem toNat_setWidth_setWidth {width : Nat} (h : width ≤ 128) (v : U128) :
    ((v.setWidth width).setWidth 128).toNat = v.toNat % 2 ^ width := by
  rw [BitVec.toNat_setWidth_of_le h, BitVec.toNat_setWidth]

/-- A read after a write gives the value truncated to the register's width (R23, R24). -/
theorem toNat_readReg_writeReg {r : HifReg} {width : Nat} (hr : r.rwWidth = some width) (v : U128) (s : State) :
    (readReg r (writeReg r v s)).toNat = v.toNat % 2 ^ width := by
  cases r with
  | cmd | status | kstream | kstage _ => cases hr
  | keyX | keyY | kn | ctr =>
    cases hr
    exact (Nat.mod_eq_of_lt v.isLt).symm
  | _ =>
    cases hr
    exact toNat_setWidth_setWidth (by decide) v

/-- One step takes the host's first pending action (R30). -/
theorem step_cons {s : State} {a : HostAction} {rest : List HostAction} (h : s.pending = a :: rest) :
    step s = hostAction a (s.takeAction rest) := by
  rw [step, h]

/-- Settles O17: RD and WR are host reads and writes by number, and a written register is read back truncated. -/
theorem registerReadReturnsTheTruncatedWrite : Obligations.RegisterReadReturnsTheTruncatedWrite := by
  refine ⟨fun s n rest h => ?_, fun s u n v rest h hu => ?_⟩
  · rw [step_cons h, hostAction, hostRead_takeAction]
    rfl
  · have hstep : step s = hostWrite n v u := by
      rw [hu, step_cons h]
      rfl
    rw [hstep]
    refine ⟨rfl, fun width hn => ?_, ?_⟩
    · obtain ⟨r, hr, hwidth⟩ := Option.bind_eq_some_iff.1 (rwWidth_of_mem_rwRegisters _ hn)
      have hcmd : r ≠ HifReg.cmd := by
        rintro rfl
        cases hwidth
      refine ⟨_, hostWrite_of_hifReg hr hcmd v u, ?_⟩
      rw [hostRead_of_hifReg hr]
      exact toNat_readReg_writeReg hwidth v u
    · refine ⟨?_, ?_, ?_, ?_, ?_, ?_, ?_, ?_, ?_, ?_, ?_, ?_, ?_, ?_⟩ <;>
      · rintro rfl
        rfl

/-- Settles O18: a reserved number names no register. -/
theorem reservedRegisterNumbers : Obligations.ReservedRegisterNumbers := by
  intro s n v h
  have hn := hifReg_reserved h
  exact ⟨by rw [hostRead, hn], by rw [hostWrite, hn]⟩

/-- Settles O19: numbers 0x18 to 0x20 name staging registers, which read 0 like CMD. -/
theorem readOnlyAndWriteOnlyRegisters : Obligations.ReadOnlyAndWriteOnlyRegisters := by
  refine fun s v => ⟨rfl, rfl, rfl, fun n h1 h2 => ?_⟩
  rw [hostRead_of_hifReg (hifReg_eq_kstage (i := ⟨n.toNat - 0x18, by omega⟩) (by simp only; omega))]
  rfl

/-! ### STATUS (R27) -/

theorem toNat_status (s : State) :
    s.status.toNat = s.result.bits.toNat + 16 * s.ksState.bits.toNat + 64 * s.ktValid.toNat + 128 * s.saDec.toNat +
      256 * s.busy.toNat := by
  have happend : ∀ {m n : Nat} (x : BitVec m) (y : BitVec n), (x ++ y).toNat = 2 ^ n * x.toNat + y.toNat := by
    intro m n x y
    rw [BitVec.toNat_append, Nat.shiftLeft_eq, Nat.mul_comm, Nat.two_pow_add_eq_or_of_lt y.isLt]
  have hzero : (0 : BitVec 23).toNat = 0 := rfl
  simp only [State.status, happend, BitVec.toNat_ofBool, hzero]
  omega

/-- Settles O21: STATUS is the concatenation of its fields. -/
theorem statusWordFields : Obligations.StatusWordFields := by
  intro s
  have hread : (hostRead 0x01 s).toNat = s.status.toNat :=
    BitVec.toNat_setWidth_of_le (by decide)
  rw [hread, toNat_status]
  cases s.result <;> cases s.ksState <;> rfl

/-! ### The staging registers (R26) -/

theorem getLsbD_markStaged (i j : Fin 9) (m : BitVec 9) :
    (markStaged i m).getLsbD j.val = (m.getLsbD j.val || decide (j = i)) := by
  have hbit : ((1 <<< i.val : Nat) : BitVec 9).getLsbD j.val = decide (j = i) := by
    revert i j
    decide
  rw [markStaged, BitVec.getLsbD_or, hbit]

theorem writeReg_kstage_uninit {s : State} (h : s.ksState = .uninit) (i : Fin 9) (v : U128) :
    writeReg (.kstage i) v s = { s with kstage := s.kstage.set i v, kstageWr := markStaged i s.kstageWr } := by
  rw [writeReg, if_pos h]

theorem writeReg_kstage_not_uninit {s : State} (h : s.ksState ≠ .uninit) (i : Fin 9) (v : U128) :
    writeReg (.kstage i) v s = s := by
  rw [writeReg, if_neg h]

theorem hostWrite_kstage (i : Fin 9) (v : U128) (s : State) :
    hostWrite (BitVec.ofNat 8 (0x18 + i.val)) v s = .next (writeReg (.kstage i) v s) := by
  refine hostWrite_of_hifReg (hifReg_eq_kstage ?_) nofun v s
  rw [BitVec.toNat_ofNat]
  omega

/-- Settles O20: the write sets one staging register and its mask bit, or nothing. -/
theorem stagingWritesOnlyWhileUninit : Obligations.StagingWritesOnlyWhileUninit := by
  intro s v i
  rw [hostWrite_kstage]
  refine ⟨fun h => ⟨_, rfl, ?_⟩, fun h => by rw [writeReg_kstage_not_uninit h]⟩
  rw [writeReg_kstage_uninit h]
  refine ⟨?_, ?_, fun j hj => ⟨?_, ?_⟩, rfl⟩
  · exact Vector.getElem_set_self i.isLt
  · rw [getLsbD_markStaged, decide_eq_true rfl, Bool.or_true]
  · exact Vector.getElem_set_ne i.isLt j.isLt fun e => hj (Fin.ext e.symm)
  · rw [getLsbD_markStaged, decide_eq_false hj, Bool.or_false]

end Sys2Proof.Machine

/-! ## The frame of the image commands, the parameters and the key store (R22, R28, R32, R37)

The image commands write what `imageCommandsLeaveTheRest` names, whichever exit they take. The parameters and the key
store are outside that, and outside what every other command but KS.INIT writes: one relation between the states before
and after says so (`State.SameKeys`), is kept command by command, and is what a step does but for KS.INIT and a reset. -/

namespace Sys2Proof.Machine

/-! ### The image commands -/

/-- After SA.DEC and SA.ENC all but the named elements are as before (R182, R184, R186). -/
def SaFrame (s t : State) : Prop :=
  t = { s with
    port := t.port, table := t.table, w0 := t.w0, w1 := t.w1, w2 := t.w2, ktValid := t.ktValid
    saDec := t.saDec, result := t.result, busy := false }

theorem execSaDetect_frame {s t : State} (h : execSaDetect s = .next t) :
    t = { s with port := t.port, saDec := t.saDec, result := t.result, busy := false } := by
  obtain ⟨_, e⟩ | ⟨_, _, _, e⟩ | ⟨_, _, _, _, e⟩ := execSaDetect_cases s <;>
  · cases h.symm.trans e
    rfl

theorem execSaDec_frame {s t : State} (h : execSaDec s = .next t) : SaFrame s t := by
  obtain ⟨k2, k3, -, -, ⟨_, e⟩ | ⟨_, _, _, e⟩ | ⟨_, _, _, _, _, e⟩ | ⟨_, _, _, _, _, _, _, e⟩ |
    ⟨_, _, _, _, _, _, _, e⟩⟩ := execSaDec_cases s <;>
  · cases h.symm.trans e
    rfl

theorem execSaEnc_frame {s t : State} (h : execSaEnc s = .next t) : SaFrame s t := by
  obtain ⟨k2, k3, -, -, ⟨_, e⟩ | ⟨_, _, _, e⟩ | ⟨_, _, _, _, _, e⟩ | ⟨_, _, _, _, _, _, _, e⟩ |
    ⟨_, _, _, _, _, _, _, e⟩⟩ := execSaEnc_cases s <;>
  · cases h.symm.trans e
    rfl

theorem ctrTransform_frame {s t : State} (h : ctrTransform s = .next t) :
    t = { s with port := t.port, ctr := t.ctr, result := t.result, busy := false } := by
  obtain ⟨c, q, _, e⟩ | ⟨c, q, _, e⟩ := ctrTransform_cases s <;>
  · cases h.symm.trans e
    rfl

theorem execCtrXform_frame {s t : State} (h : execCtrXform s = .next t) :
    t = { s with port := t.port, ctr := t.ctr, result := t.result, busy := false } := by
  obtain ⟨_, e⟩ | ⟨_, e⟩ := execCtrXform_cases s
  · cases h.symm.trans e
    rfl
  · exact ctrTransform_frame (e.symm.trans h)

/-- KEYX and KN are written before the transform (R258). -/
theorem execPrXform_frame (tag : BitVec 2) (dev dir : Bool) {s t : State} (h : execPrXform tag dev dir s = .next t) :
    t = { s with port := t.port, keyX := t.keyX, kn := t.kn, ctr := t.ctr, result := t.result, busy := false } := by
  obtain ⟨_, e⟩ | ⟨r, _, ⟨_, e⟩ | ⟨_, _, e⟩ | ⟨k, _, _, ⟨_, e⟩ | ⟨_, e⟩⟩⟩ := execPrXform_cases tag dev dir s
  case inr.inr.inr.inr =>
    obtain ⟨c, q, _, e'⟩ | ⟨c, q, _, e'⟩ := ctrTransform_cases (prPrepared s dev r k) <;>
    · cases h.symm.trans (e.trans e')
      rfl
  all_goals
    cases h.symm.trans e
    rfl

/-- Settles O13: each command's exits, taken together. -/
theorem imageCommandsLeaveTheRest : Obligations.ImageCommandsLeaveTheRest :=
  ⟨fun _ _ => execSaDetect_frame, fun _ _ h => h.elim execSaDec_frame execSaEnc_frame, fun _ _ => execCtrXform_frame,
    fun tag dev dir _ _ => execPrXform_frame tag dev dir⟩

/-! ### The exits of the other commands -/

/-- KT.ADVANCE: no table, or W mutated (R149). -/
theorem execKtAdvance_cases (s : State) :
    (s.ktValid = false ∧ execKtAdvance s = .next (s.withResult .tableNotInit)) ∨
    (s.ktValid = true ∧ execKtAdvance s = .next (State.withResult .ok
      { s with w1 := .written (s.w1.val <<< 1), w2 := .written (s.w2.val >>> 1) })) := by
  unfold execKtAdvance
  rcases s.ktValid with _ | _
  · exact .inl ⟨rfl, rfl⟩
  · exact .inr ⟨rfl, rfl⟩

/-- BLK.ENC and BLK.DEC: no table, or the block replaced (R150, R151). -/
theorem blockCommand_cases (f : Table → U32 × U32 → U32 × U32) (s : State) :
    (s.ktValid = false ∧ blockCommand f s = .next (s.withResult .tableNotInit)) ∨
    ∃ x, x = f s.table (s.blkA.val, s.blkB.val) ∧ s.ktValid = true ∧
      blockCommand f s = .next (State.withResult .ok { s with blkA := .written x.1, blkB := .written x.2 }) := by
  unfold blockCommand
  rcases s.ktValid with _ | _
  · exact .inl ⟨rfl, rfl⟩
  · exact .inr ⟨_, rfl, rfl, rfl⟩

/-- AES.SCRAMBLE: the store not READY, or KN derived (R214). -/
theorem execAesScramble_cases (s : State) :
    (s.ksState ≠ .ready ∧ execAesScramble s = .next (s.withResult .keystoreError)) ∨
    (s.ksState = .ready ∧ execAesScramble s = .next (State.withResult .ok
      { s with kn := .written (scramble s.keyX.val s.keyY.val s.store.ksc) })) := by
  unfold execAesScramble
  by_cases h : s.ksState = .ready
  · exact .inr ⟨h, by rw [if_neg (not_not.2 h)]; rfl⟩
  · exact .inl ⟨h, by rw [if_pos h]; rfl⟩

/-- CTR.INIT: the reserved tag, or CTR loaded (R253). -/
theorem execCtrInit_cases (tag : BitVec 2) (s : State) :
    (tag = 3 ∧ execCtrInit tag s = .next (s.withResult .illegalCmd)) ∨
    ∃ r, regionOf tag = some r ∧ execCtrInit tag s =
      .next (State.withResult .ok { s with ctr := .written (counterInit s.params r s.ctrId.val) }) := by
  unfold execCtrInit
  rcases h : regionOf tag with _ | r
  · exact .inl ⟨regionOf_eq_none.1 h, rfl⟩
  · exact .inr ⟨r, rfl, rfl⟩

/-- KS.INIT: not the first one, a failing first one, or the store loaded (R121). -/
theorem execKsInit_cases (ok : Bool) (s : State) :
    (s.ksState ≠ .uninit ∧ execKsInit ok s = .next (s.withResult .ok)) ∨
    (s.ksState = .uninit ∧ (ok = false ∨ s.kstageWr ≠ allStaged) ∧
      execKsInit ok s = .next (State.withResult .keystoreError { s with ksState := .failed })) ∨
    (s.ksState = .uninit ∧ ok = true ∧ s.kstageWr = allStaged ∧
      execKsInit ok s = .next (State.withResult .ok { s with store := stagedStore s.kstage, ksState := .ready })) := by
  unfold execKsInit
  by_cases h : s.ksState = .uninit
  · rw [if_neg (not_not.2 h)]
    by_cases hf : ok = false ∨ s.kstageWr ≠ allStaged
    · exact .inr (.inl ⟨h, hf, by rw [if_pos hf]; rfl⟩)
    · obtain ⟨hok, hall⟩ := not_or.1 hf
      exact .inr (.inr ⟨h, eq_true_of_ne_false hok, not_not.1 hall, by rw [if_neg hf]; rfl⟩)
  · exact .inl ⟨h, by rw [if_pos h]; rfl⟩

/-! ### Commands that leave the parameters and the key store alone -/

/-- The parameters, KSSTATE and the key store are the same in both states (R28, R32, R34, R37). -/
structure State.SameKeys (s t : State) : Prop where
  params : t.params = s.params
  ksState : t.ksState = s.ksState
  store : t.store = s.store

theorem State.SameKeys.refl (s : State) : s.SameKeys s := ⟨rfl, rfl, rfl⟩

/-- What a frame says of the keys. -/
theorem State.SameKeys.of_eq {s t u : State} (h : t = u) (hu : s.SameKeys u) : s.SameKeys t := h ▸ hu

/-- A result known to be the next state `u`. -/
theorem State.SameKeys.of_next {s t u : State} {r : Result} (h : r = .next t) (hr : r = .next u) (hu : s.SameKeys u) :
    s.SameKeys t := by
  cases h.symm.trans hr
  exact hu

/-- No command but KS.INIT touches them (R28, R37). -/
theorem exec_sameKeys {i : Instr} {s t : State} (hi : ∀ ok, i ≠ .ksInit ok) (h : exec i s = .next t) :
    s.SameKeys t := by
  cases i with
  | nop => exact .of_next h (finish_eq s) ⟨rfl, rfl, rfl⟩
  | ksInit ok => exact absurd rfl (hi ok)
  | ktInit1 =>
    obtain ⟨k, -, e⟩ := execKtInit1_cases s
    exact .of_next h e ⟨rfl, rfl, rfl⟩
  | ktInit2 =>
    obtain ⟨k, -, ⟨_, e⟩ | ⟨_, e⟩⟩ := execKtInit2_cases s <;> exact .of_next h e ⟨rfl, rfl, rfl⟩
  | ktUpdate =>
    obtain ⟨T, -, ⟨_, e⟩ | ⟨_, e⟩⟩ := execKtUpdate_cases s <;> exact .of_next h e ⟨rfl, rfl, rfl⟩
  | ktAdvance =>
    obtain ⟨_, e⟩ | ⟨_, e⟩ := execKtAdvance_cases s <;> exact .of_next h e ⟨rfl, rfl, rfl⟩
  | blkEnc =>
    obtain ⟨_, e⟩ | ⟨x, -, _, e⟩ := blockCommand_cases blockE s <;> exact .of_next h e ⟨rfl, rfl, rfl⟩
  | blkDec =>
    obtain ⟨_, e⟩ | ⟨x, -, _, e⟩ := blockCommand_cases blockD s <;> exact .of_next h e ⟨rfl, rfl, rfl⟩
  | saDetect => exact .of_eq (execSaDetect_frame h) ⟨rfl, rfl, rfl⟩
  | saDec => exact .of_eq (execSaDec_frame h) ⟨rfl, rfl, rfl⟩
  | saEnc => exact .of_eq (execSaEnc_frame h) ⟨rfl, rfl, rfl⟩
  | aesKeysel dev =>
    obtain ⟨_, e⟩ | ⟨_, _, e⟩ | ⟨k, _, _, e⟩ := execAesKeysel_cases dev s <;> exact .of_next h e ⟨rfl, rfl, rfl⟩
  | aesScramble =>
    obtain ⟨_, e⟩ | ⟨_, e⟩ := execAesScramble_cases s <;> exact .of_next h e ⟨rfl, rfl, rfl⟩
  | ctrInit tag =>
    obtain ⟨_, e⟩ | ⟨r, _, e⟩ := execCtrInit_cases tag s <;> exact .of_next h e ⟨rfl, rfl, rfl⟩
  | ctrStep => exact .of_next h (finish_eq _) ⟨rfl, rfl, rfl⟩
  | ctrXform => exact .of_eq (execCtrXform_frame h) ⟨rfl, rfl, rfl⟩
  | prXform tag dev dir => exact .of_eq (execPrXform_frame tag dev dir h) ⟨rfl, rfl, rfl⟩

/-! ### Host actions -/

theorem writeReg_sameKeys (r : HifReg) (v : U128) (s : State) : s.SameKeys (writeReg r v s) := by
  cases r with
  | kstage i =>
    by_cases h : s.ksState = .uninit
    · rw [writeReg_kstage_uninit h]
      exact ⟨rfl, rfl, rfl⟩
    · rw [writeReg_kstage_not_uninit h]
      exact .refl s
  | _ => exact ⟨rfl, rfl, rfl⟩

/-- Issuing a word: KS.INIT, or the keys stay (R28, R90). -/
theorem issue_keys {w : U32} {s t : State} (h : issue w s = .next t) :
    (∃ ok, decode w = .ok (.ksInit ok) ∧ execKsInit ok { s with busy := true } = .next t) ∨ s.SameKeys t := by
  rw [issue] at h
  rcases hw : decode w with r | i <;> rw [hw] at h
  · exact .inr (.of_next h (raise_eq _ _) ⟨rfl, rfl, rfl⟩)
  · by_cases hi : ∃ ok, i = .ksInit ok
    · obtain ⟨ok, rfl⟩ := hi
      exact .inl ⟨ok, rfl, h⟩
    · obtain ⟨hp, hk, hs⟩ := exec_sameKeys (not_exists.1 hi) h
      exact .inr ⟨hp, hk, hs⟩

/-- The action that issues a KS.INIT (R90). -/
theorem hostAction_ksInit {v : U128} {ok : Bool} (hw : decode (v.setWidth 32) = .ok (.ksInit ok)) (s : State) :
    hostAction (.regWrite 0x00 v) s = execKsInit ok { s with busy := true } := by
  change issue (v.setWidth 32) s = _
  rw [issue, hw]
  rfl

/-- The power supply's actions (R340, R341). -/
def HostAction.isReset : HostAction → Prop
  | .powerOnReset | .resetDuring _ _ => True
  | _ => False

/-- What an action does to the parameters and the key store: a reset, KS.INIT, or nothing. -/
theorem hostAction_keys {a : HostAction} {s t : State} (h : hostAction a s = .next t) :
    (a.isReset ∧ t.params = s.params) ∨
    (∃ v ok, a = .regWrite 0x00 v ∧ decode (v.setWidth 32) = .ok (.ksInit ok) ∧
      execKsInit ok { s with busy := true } = .next t) ∨
    s.SameKeys t := by
  cases a with
  | regWrite n v =>
    obtain e | ⟨rfl, e⟩ | ⟨r, e⟩ := hostWrite_cases n v s
    · exact .inr (.inr (.of_next h e (.refl s)))
    · obtain ⟨ok, hw, hk⟩ | hk := issue_keys (e.symm.trans h)
      · exact .inr (.inl ⟨v, ok, rfl, hw, hk⟩)
      · exact .inr (.inr hk)
    · exact .inr (.inr (.of_next h e (writeReg_sameKeys r v s)))
  | regRead n =>
    cases h
    exact .inr (.inr ⟨rfl, rfl, rfl⟩)
  | poke _ _ | peek _ _ | openImage _ =>
    rw [hostAction] at h
    split_ifs at h
    cases h
    exact .inr (.inr ⟨rfl, rfl, rfl⟩)
  | powerOnReset | resetDuring _ _ =>
    cases h
    exact .inl ⟨trivial, rfl⟩

/-- KS.INIT leaves the parameters alone, and the key store too unless it is the first (R121). -/
theorem execKsInit_keys {ok : Bool} {s t : State} (h : execKsInit ok s = .next t) :
    t.params = s.params ∧ ((s.ksState ≠ .uninit ∧ s.SameKeys t) ∨
      (s.ksState = .uninit ∧ (t.ksState = .ready ∨ t.ksState = .failed))) := by
  obtain ⟨hk, e⟩ | ⟨hk, _, e⟩ | ⟨hk, _, _, e⟩ := execKsInit_cases ok s <;> cases h.symm.trans e
  · exact ⟨rfl, .inl ⟨hk, rfl, rfl, rfl⟩⟩
  · exact ⟨rfl, .inr ⟨hk, .inr rfl⟩⟩
  · exact ⟨rfl, .inr ⟨hk, .inl rfl⟩⟩

/-- Settles O9: a waiting step changes nothing, and no action writes the parameters. -/
theorem parametersAreNeverWritten : Obligations.ParametersAreNeverWritten := by
  intro s t h
  rcases hp : s.pending with _ | ⟨a, rest⟩
  · rw [step, hp] at h
    cases h
    rfl
  · rw [step_cons hp] at h
    obtain ⟨_, hparams⟩ | ⟨v, ok, _, _, hinit⟩ | hkeys := hostAction_keys h
    · exact hparams
    · exact (execKsInit_keys hinit).1
    · exact hkeys.params

/-- Settles O10: without a reset a step is KS.INIT, which writes the store only while UNINIT, or leaves it alone. -/
theorem keyStoreStateMovesOnce : Obligations.KeyStoreStateMovesOnce := by
  intro s t a rest hp h hpower hduring
  rw [step_cons hp] at h
  have hfirst : ∀ v ok, a = .regWrite 0x00 v → decode (v.setWidth 32) = .ok (.ksInit ok) → s.ksState = .uninit →
      t.ksState = .ready ∨ t.ksState = .failed := by
    rintro v ok rfl hw hu
    rw [hostAction_ksInit hw] at h
    obtain ⟨_, ⟨hn, _⟩ | ⟨_, hmoved⟩⟩ := execKsInit_keys h
    · exact absurd hu hn
    · exact hmoved
  refine and_assoc.1 ⟨?_, hfirst⟩
  obtain ⟨hreset, _⟩ | ⟨v, ok, ha, hw, hinit⟩ | ⟨_, hks, hst⟩ := hostAction_keys h
  · cases a with
    | powerOnReset => exact absurd rfl hpower
    | resetDuring w torn => exact absurd rfl (hduring w torn)
    | _ => exact hreset.elim
  · refine ⟨fun hn => ?_, fun _ => ⟨v, ok, ha, hw⟩⟩
    obtain ⟨_, ⟨_, _, hks, hst⟩ | ⟨hu, _⟩⟩ := execKsInit_keys hinit
    · exact ⟨hks, hst⟩
    · exact absurd hu hn
  · exact ⟨fun _ => ⟨hks, hst⟩, fun hne => absurd hks hne⟩

end Sys2Proof.Machine

/-! ## The image and its port (R60, R62, R70 to R75, R183 to R186)

What each command may do to the port is said once (`PortEffect`) and proved with the other two facts a command boundary
needs: BUSY is 0, and a command that finds W defined while KT_VALID = 1 leaves it so (`State.Ends`). The image's frame and
the invariant both follow. -/

namespace Sys2Proof.Machine

/-! ### How a command ends -/

/-- The ports a command may leave, of a state it is executed in (R60, R62): SA.DETECT only reads; SA.DEC and SA.ENC stay
inside the secure area and the two transforms inside their region; every other command leaves the port alone. -/
def PortEffect (s : State) : Instr → Port → Prop
  | .saDetect, q => q.image = s.port.image
  | .saDec, q | .saEnc, q => Port.Within saBase 0x800 s.port q
  | .ctrXform, q | .prXform _ _ _, q => Port.Within s.regOff.val.toNat s.regLen.val.toNat s.port q
  | _, q => q = s.port

/-- Whatever the command, it wrote inside some range. -/
theorem PortEffect.within {s : State} {i : Instr} {q : Port} (h : PortEffect s i q) : ∃ a n, Port.Within a n s.port q := by
  cases i with
  | saDetect => exact ⟨0, 0, .of_image_eq h⟩
  | saDec | saEnc | ctrXform | prXform _ _ _ => exact ⟨_, _, h⟩
  | _ => exact ⟨0, 0, .of_image_eq (congrArg Port.image h)⟩

/-- No word of W is UNDEFINED while KT_VALID = 1 (R33). -/
def State.WReady (s : State) : Prop := s.ktValid = true → s.wDefined = true

/-- `t` ends a command executed in `s`: its port is as `P` allows, BUSY is 0, and W is still defined while KT_VALID = 1. -/
structure State.Ends (s : State) (P : Port → Prop) (t : State) : Prop where
  port : P t.port
  busy : t.busy = false
  wReady : s.WReady → t.WReady

/-- A result known to be the next state `u`. -/
theorem State.Ends.of_next {s t u : State} {P : Port → Prop} {r : Result} (h : r = .next t) (hr : r = .next u)
    (hu : s.Ends P u) : s.Ends P t := by
  cases h.symm.trans hr
  exact hu

theorem State.wDefined_iff {s : State} :
    s.wDefined = true ↔ s.w0.undef = false ∧ s.w1.undef = false ∧ s.w2.undef = false := by
  simp [State.wDefined, and_assoc]

/-! ### The commands that reach the image -/

theorem execSaDetect_ends {s t : State} (h : execSaDetect s = .next t) : s.Ends (PortEffect s .saDetect) t := by
  obtain ⟨_, e⟩ | ⟨q, _, hr, e⟩ | ⟨B, q, _, hr, e⟩ := execSaDetect_cases s
  · exact .of_next h e ⟨rfl, rfl, id⟩
  · exact .of_next h e ⟨memRead_error hr, rfl, id⟩
  · exact .of_next h e ⟨(memRead_ok hr).1, rfl, id⟩

/-- SA.XFORM ends well when what it goes on to does (R182, R184, R186). -/
theorem saEnter_ends {already : Bool} {s t : State} {go : U32 × U32 → State → Result}
    (hgo : ∀ w u, u.port.image = s.port.image → go w u = .next t → s.Ends (Port.Within saBase 0x800 s.port) t)
    (h : saEnter already s go = .next t) : s.Ends (Port.Within saBase 0x800 s.port) t := by
  obtain ⟨_, e⟩ | ⟨q, _, hr, e⟩ | ⟨B, q, _, hr, _, e⟩ | ⟨B, q, _, hr, _, e⟩ := saEnter_cases already s go
  · exact .of_next h e ⟨.of_image_eq rfl, rfl, id⟩
  · exact .of_next h e ⟨.of_image_eq (memRead_error hr), rfl, id⟩
  · exact .of_next h e ⟨.of_image_eq (memRead_ok hr).1, rfl, id⟩
  · exact hgo _ _ (memRead_ok hr).1 (e.symm.trans h)

/-- At SA.XFORM's end W is written whole, or KT_VALID is 0 (R182, R184, R186). -/
theorem saLeave_ends {k : Schedule} {s u t : State} {a : Access Unit} (hw : Port.Within saBase 0x800 s.port a.port)
    (h : saLeave k u a = .next t) : s.Ends (Port.Within saBase 0x800 s.port) t := by
  obtain ⟨q, rfl, e⟩ | ⟨q, rfl, e⟩ := saLeave_cases k u a
  · exact .of_next h e ⟨hw, rfl, fun _ _ => rfl⟩
  · exact .of_next h e ⟨hw.trans (.of_image_eq rfl), rfl, fun _ => nofun⟩

theorem execSaDec_ends {s t : State} (h : execSaDec s = .next t) : s.Ends (PortEffect s .saDec) t :=
  saEnter_ends (fun _ _ hu => saLeave_ends ((Port.Within.of_image_eq hu).trans (decryptArea_within _ _ _ _))) h

theorem execSaEnc_ends {s t : State} (h : execSaEnc s = .next t) : s.Ends (PortEffect s .saEnc) t :=
  saEnter_ends (fun _ _ hu => saLeave_ends ((Port.Within.of_image_eq hu).trans (encryptArea_within _ _ _))) h

theorem ctrTransform_ends {s t : State} (h : ctrTransform s = .next t) : s.Ends (PortEffect s .ctrXform) t := by
  have hw := ctrRegion_within s.kn.val (blockCount s.regLen.val.toNat) s.regOff.val.toNat s.regLen.val.toNat s.ctr s.port
  obtain ⟨c, q, hr, e⟩ | ⟨c, q, hr, e⟩ := ctrTransform_cases s <;>
  · rw [hr] at hw
    exact .of_next h e ⟨hw, rfl, id⟩

theorem execCtrXform_ends {s t : State} (h : execCtrXform s = .next t) : s.Ends (PortEffect s .ctrXform) t := by
  obtain ⟨_, e⟩ | ⟨_, e⟩ := execCtrXform_cases s
  · exact .of_next h e ⟨.of_image_eq rfl, rfl, id⟩
  · exact ctrTransform_ends (e.symm.trans h)

/-- The keys PR.XFORM writes before its transform are no part of the port or of W (R258). -/
theorem execPrXform_ends {tag : BitVec 2} {dev dir : Bool} {s t : State} (h : execPrXform tag dev dir s = .next t) :
    s.Ends (PortEffect s (.prXform tag dev dir)) t := by
  obtain ⟨_, e⟩ | ⟨r, _, ⟨_, e⟩ | ⟨_, _, e⟩ | ⟨k, _, _, ⟨_, e⟩ | ⟨_, e⟩⟩⟩ := execPrXform_cases tag dev dir s
  case inr.inr.inr.inr =>
    obtain ⟨hport, hbusy, hw⟩ := ctrTransform_ends (e.symm.trans h)
    exact ⟨hport, hbusy, hw⟩
  all_goals exact .of_next h e ⟨.of_image_eq rfl, rfl, id⟩

/-! ### Every command -/

/-- KT.ADVANCE writes W1 and W2 and keeps W0 (R149). -/
theorem execKtAdvance_ends {s t : State} (h : execKtAdvance s = .next t) : s.Ends (PortEffect s .ktAdvance) t := by
  obtain ⟨_, e⟩ | ⟨hv, e⟩ := execKtAdvance_cases s
  · exact .of_next h e ⟨rfl, rfl, id⟩
  · exact .of_next h e ⟨rfl, rfl, fun hs _ => State.wDefined_iff.2 ⟨(State.wDefined_iff.1 (hs hv)).1, rfl, rfl⟩⟩

theorem exec_ends {i : Instr} {s t : State} (h : exec i s = .next t) : s.Ends (PortEffect s i) t := by
  cases i with
  | nop => exact .of_next h (finish_eq s) ⟨rfl, rfl, id⟩
  | ksInit ok =>
    obtain ⟨_, e⟩ | ⟨_, _, e⟩ | ⟨_, _, _, e⟩ := execKsInit_cases ok s <;> exact .of_next h e ⟨rfl, rfl, id⟩
  | ktInit1 =>
    obtain ⟨k, -, e⟩ := execKtInit1_cases s
    exact .of_next h e ⟨rfl, rfl, fun _ _ => rfl⟩
  | ktInit2 =>
    obtain ⟨k, -, ⟨_, e⟩ | ⟨_, e⟩⟩ := execKtInit2_cases s
    · exact .of_next h e ⟨rfl, rfl, id⟩
    · exact .of_next h e ⟨rfl, rfl, fun _ _ => rfl⟩
  | ktUpdate =>
    obtain ⟨T, -, ⟨_, e⟩ | ⟨_, e⟩⟩ := execKtUpdate_cases s <;> exact .of_next h e ⟨rfl, rfl, id⟩
  | ktAdvance => exact execKtAdvance_ends h
  | blkEnc =>
    obtain ⟨_, e⟩ | ⟨x, -, _, e⟩ := blockCommand_cases blockE s <;> exact .of_next h e ⟨rfl, rfl, id⟩
  | blkDec =>
    obtain ⟨_, e⟩ | ⟨x, -, _, e⟩ := blockCommand_cases blockD s <;> exact .of_next h e ⟨rfl, rfl, id⟩
  | saDetect => exact execSaDetect_ends h
  | saDec => exact execSaDec_ends h
  | saEnc => exact execSaEnc_ends h
  | aesKeysel dev =>
    obtain ⟨_, e⟩ | ⟨_, _, e⟩ | ⟨k, _, _, e⟩ := execAesKeysel_cases dev s <;> exact .of_next h e ⟨rfl, rfl, id⟩
  | aesScramble =>
    obtain ⟨_, e⟩ | ⟨_, e⟩ := execAesScramble_cases s <;> exact .of_next h e ⟨rfl, rfl, id⟩
  | ctrInit tag =>
    obtain ⟨_, e⟩ | ⟨r, _, e⟩ := execCtrInit_cases tag s <;> exact .of_next h e ⟨rfl, rfl, id⟩
  | ctrStep => exact .of_next h (finish_eq _) ⟨rfl, rfl, id⟩
  | ctrXform => exact execCtrXform_ends h
  | prXform tag dev dir => exact execPrXform_ends h

/-! ### The invariant -/

theorem State.inv_iff {s : State} : s.inv = true ↔ s.port.image.wf = true ∧ s.busy = false ∧ s.WReady := by
  simp only [State.inv, State.WReady, Bool.and_eq_true, Bool.or_eq_true, Bool.not_eq_true', and_assoc, imp_iff_not_or,
    Bool.not_eq_true]

/-- Issuing a word ends at a command boundary, legal word or not (R75, R96). -/
theorem issue_inv {w : U32} {s t : State} (hs : s.inv = true) (h : issue w s = .next t) : t.inv = true := by
  obtain ⟨himg, -, hw⟩ := State.inv_iff.1 hs
  rw [issue] at h
  rcases hd : decode w with r | i <;> rw [hd] at h
  · cases h
    exact State.inv_iff.2 ⟨himg, rfl, hw⟩
  · obtain ⟨hport, hbusy, hw'⟩ := exec_ends h
    obtain ⟨a, n, hin⟩ := hport.within
    exact State.inv_iff.2 ⟨hin.wf himg, hbusy, hw' hw⟩

/-- The host's writes keep the invariant; those to W0, W1 and W2 define the word (R23). -/
theorem writeReg_inv {s : State} (hs : s.inv = true) (r : HifReg) (v : U128) : (writeReg r v s).inv = true := by
  obtain ⟨himg, hbusy, hw⟩ := State.inv_iff.1 hs
  cases r with
  | w0 | w1 | w2 =>
    refine State.inv_iff.2 ⟨himg, hbusy, fun hv => ?_⟩
    obtain ⟨h0, h1, h2⟩ := State.wDefined_iff.1 (hw hv)
    exact State.wDefined_iff.2 (by simp [writeReg, h0, h1, h2])
  | kstage i =>
    rw [writeReg]
    split_ifs <;> exact hs
  | _ => exact hs

/-- A reset in the middle of a command leaves a canonical image (R341). -/
theorem tornImage_wf {s : State} (hw : s.port.image.wf = true) (w : U32) (torn : List U8) :
    (tornImage w torn s).wf = true := by
  unfold tornImage
  split
  · exact hw
  · split
    · exact hw
    · exact Image.wf_writeBytes _ _ hw

theorem hostAction_inv {a : HostAction} {s t : State} (hs : s.inv = true) (h : hostAction a s = .next t) :
    t.inv = true := by
  obtain ⟨himg, hbusy, hw⟩ := State.inv_iff.1 hs
  cases a with
  | regWrite n v =>
    obtain e | ⟨_, e⟩ | ⟨r, e⟩ := hostWrite_cases n v s
    · cases h.symm.trans e
      exact hs
    · exact issue_inv hs (e.symm.trans h)
    · cases h.symm.trans e
      exact writeReg_inv hs r v
  | regRead n =>
    cases h
    exact hs
  | poke off bs =>
    rw [hostAction] at h
    split_ifs at h
    cases h
    exact State.inv_iff.2 ⟨Image.wf_writeBytes off bs himg, hbusy, hw⟩
  | peek off n =>
    rw [hostAction] at h
    split_ifs at h
    cases h
    exact hs
  | openImage bs =>
    rw [hostAction] at h
    split_ifs at h with hl
    cases h
    exact State.inv_iff.2 ⟨Image.wf_ofBytes hl, hbusy, hw⟩
  | powerOnReset =>
    cases h
    exact State.inv_iff.2 ⟨himg, rfl, nofun⟩
  | resetDuring w torn =>
    cases h
    exact State.inv_iff.2 ⟨tornImage_wf himg w torn, rfl, nofun⟩

/-- Settles O7: a waiting step changes nothing, and every host action keeps the invariant. -/
theorem stepKeepsInvariant : Obligations.StepKeepsInvariant := by
  refine ⟨fun s t hs h => ?_, State.inv_iff.2 ⟨rfl, rfl, nofun⟩⟩
  rcases hp : s.pending with _ | ⟨a, rest⟩
  · rw [step, hp] at h
    cases h
    exact hs
  · rw [step_cons hp] at h
    have htaken : (s.takeAction rest).inv = true := hs
    exact hostAction_inv htaken h

/-! ### The image's frame -/

/-- Settles O12: what `PortEffect` says of each command. -/
theorem imageChangesOnlyInTheCommandsRange : Obligations.ImageChangesOnlyInTheCommandsRange := by
  intro i s t h
  have hport := (exec_ends h).port
  obtain ⟨a, n, hin⟩ := hport.within
  refine ⟨hin.len, ?_, ?_, ?_, ?_⟩
  · rintro (rfl | rfl) x hx <;> exact hport.byte x hx
  · rintro (rfl | ⟨tag, dev, dir, rfl⟩) x hx <;> exact hport.byte x hx
  · rintro rfl
    exact hport
  · intro h1 h2 h3 h4 h5
    cases i with
    | saDetect => exact absurd rfl h1
    | saDec => exact absurd rfl h2
    | saEnc => exact absurd rfl h3
    | ctrXform => exact absurd rfl h4
    | prXform tag dev dir => exact absurd rfl (h5 tag dev dir)
    | _ => exact hport

/-! ### Late bus errors of SA.DEC and SA.ENC -/

/-- SA.XFORM past its bounds check, its completed peek and its ALREADY exit (R182, R184). -/
theorem saEnter_entered {already : Bool} {s : State} {go : U32 × U32 → State → Result} {rest : List PortAnswer}
    (hl : 0x4800 ≤ s.port.image.len) (ha : s.port.answers = .done :: rest)
    (hv : isDec (s.port.image.block 0) = !already) :
    saEnter already s go =
      go (s.port.image.block 0) { s with port := { s.port with answers := rest }, saDec := !already } := by
  have hr : memRead saBase 8 s.port = .ok (s.port.image.bytes (saBlockAt 0) 8) { s.port with answers := rest } :=
    memRead_done ha
  have hv' : isDec (blockWords (s.port.image.bytes (saBlockAt 0) 8)) = !already := hv
  rw [saEnter, if_neg (Nat.not_lt.2 hl), hr]
  simp only [hv', Bool.not_eq_eq_eq_not, Bool.eq_not_self, if_false]
  rfl

section
variable {s : State} {k2 k3 : Schedule} {q : Port} {rest : List PortAnswer}
  (hk2 : k2 = init1 s.params.seed s.gamecode.val) (hk3 : k3 = primed k2)
  (hl : 0x4800 ≤ s.port.image.len) (ha : s.port.answers = .done :: rest)
include hk2 hk3 hl ha

/-- SA.DEC stopped by a bus error after its peek (R186). -/
theorem execSaDec_late (hv : isDec (s.port.image.block 0) = false)
    (he : decryptArea k2.table k3.table (s.port.image.block 0) { s.port with answers := rest } = .error q) :
    execSaDec s = .next (State.withResult .ioFail (State.loseSchedule { s with port := q, saDec := false })) := by
  rw [execSaDec, saEnter_entered (already := true) hl ha hv]
  simp only [← hk2, ← hk3, he]
  rfl

/-- SA.ENC stopped by a bus error after its peek (R186). -/
theorem execSaEnc_late (hv : isDec (s.port.image.block 0) = true)
    (he : encryptArea k2.table k3.table { s.port with answers := rest } = .error q) :
    execSaEnc s = .next (State.withResult .ioFail (State.loseSchedule { s with port := q, saDec := true })) := by
  rw [execSaEnc, saEnter_entered (already := false) hl ha hv]
  simp only [← hk2, ← hk3, he]
  rfl

end

/-- Settles O44: the peek is access 1, so the accesses after it are stopped after n - 1 of them. -/
theorem lateBusErrorLeavesTheDraws : Obligations.LateBusErrorLeavesTheDraws := by
  intro s n torn rest k2 k3 words hwords hk2 hk3 hwf hl hn ha
  obtain rfl : words = Image.block := funext₂ hwords
  obtain ⟨m, rfl⟩ : ∃ m, n = m + 1 := ⟨n - 1, by omega⟩
  rw [List.replicate_succ, List.cons_append] at ha
  refine ⟨fun hv hn => ?_, fun hv hn => ?_⟩
  · obtain ⟨img, e, hlen, hhead, hdone, hdraws, hrest⟩ := decryptArea_torn (l2 := k2.table) (l3 := k3.table)
      (w := s.port.image.block 0) (p := { s.port with answers := List.replicate m .done ++ .error torn :: rest })
      (Nat.lt_of_succ_lt_succ hn) hl hwf rfl
    refine ⟨_, execSaDec_late hk2 hk3 hl ha hv e, rfl, rfl, hlen, fun h => hhead (by omega),
      fun k h1 h2 => hdone k h1 (by omega), fun h j hj h8 => ?_, fun x hx => hrest x (by omega)⟩
    rw [show (m + 1) / 2 = m / 2 by omega]
    exact hdraws (by omega) j hj h8
  · obtain ⟨img, e, hlen, hdone, hdraws, hrest⟩ := encryptArea_torn (l2 := k2.table) (l3 := k3.table)
      (p := { s.port with answers := List.replicate m .done ++ .error torn :: rest })
      (Nat.lt_of_succ_lt_succ hn) hl hwf rfl
    refine ⟨_, execSaEnc_late hk2 hk3 hl ha hv e, rfl, rfl, hlen, fun k h1 h2 h => hdone k h1 h2 (by omega),
      fun h j hj h8 => ?_, fun x hx => hrest x (by omega)⟩
    have hat : (if m + 1 = 512 then 0x4000 else 0x4000 + 8 * ((m + 1) / 2)) =
        saBlockAt (if m = 511 then 0 else m / 2 + 1) := by
      simp only [saBlockAt, saBase]
      split_ifs <;> omega
    rw [hat]
    exact hdraws (by omega) j hj h8

end Sys2Proof.Machine

/-! ## Encoding (R90 to R98)

A row's command encodes to the row's pattern with the word's own operand bits put back (`encode_operands`), so a word that
matches a row is the word of the command it makes, and decoding inverts encoding. R96 is then read off the fields of the
commands' words (`LegalWord`). -/

namespace Sys2Proof.Machine

/-! ### The rows of the opcode map -/

/-- An operand bit put back is the command word's bit (R93). -/
theorem putBit_subBit (n : Nat) (w : U32) : putBit n (subBit n w) = w &&& BitVec.twoPow 32 n := by
  rw [BitVec.and_twoPow]
  rfl

theorem putTag_eq_putBit (tag : BitVec 2) : putTag tag = putBit 8 (tag.getLsbD 0) ||| putBit 9 (tag.getLsbD 1) := by
  revert tag
  decide

/-- The tag put back is the command word's bits 9:8 (R93). -/
theorem putTag_subTag (w : U32) : putTag (subTag w) = w &&& 0x300 := by
  have h0 : (subTag w).getLsbD 0 = subBit 8 w := BitVec.getLsbD_extractLsb' ..
  have h1 : (subTag w).getLsbD 1 = subBit 9 w := BitVec.getLsbD_extractLsb' ..
  rw [putTag_eq_putBit, h0, h1, putBit_subBit, putBit_subBit, ← BitVec.and_or_distrib_left]
  rfl

/-- A row's command encodes to the row's pattern, with the word's bits where the row's mask is 0 (R97). -/
theorem encode_operands {r : OpcodeRow} (hr : r ∈ opcodeMap) (w : U32) :
    encode (r.operands w) = r.pattern ||| (w &&& ~~~ r.mask) := by
  revert r
  simp [opcodeMap, encode, putBit_subBit, putTag_subTag, BitVec.or_assoc, ← BitVec.and_or_distrib_left, BitVec.twoPow_eq]

theorem encode_operands_of_match {r : OpcodeRow} (hr : r ∈ opcodeMap) {w : U32} (h : w &&& r.mask = r.pattern) :
    encode (r.operands w) = w := by
  calc encode (r.operands w)
      = w &&& r.mask ||| w &&& ~~~ r.mask := by rw [encode_operands hr, h]
    _ = w &&& BitVec.allOnes 32 := by rw [← BitVec.and_or_distrib_left, BitVec.or_not_self]
    _ = w := BitVec.and_allOnes

theorem OpcodeRow.holds_iff {r : OpcodeRow} {w : U32} :
    r.holds w = true ↔ w &&& r.mask = r.pattern ∧ (r.operands w).wellFormed = true := by
  rw [OpcodeRow.holds, Bool.and_eq_true, beq_iff_eq]

/-- No word matches two rows whose patterns differ under both masks. -/
theorem OpcodeRow.disjoint_of_pattern_ne {r q : OpcodeRow} (h : r.pattern &&& q.mask ≠ q.pattern &&& r.mask) (w : U32) :
    ¬ (w &&& r.mask = r.pattern ∧ w &&& q.mask = q.pattern) := by
  rintro ⟨hr, hq⟩
  refine h ?_
  rw [← hr, ← hq, BitVec.and_assoc, BitVec.and_assoc, BitVec.and_comm r.mask]

/-- Settles O3: any two patterns differ in a bit that both masks keep. -/
theorem opcodeRowsAreDisjoint : Obligations.OpcodeRowsAreDisjoint := by
  have h : opcodeMap.Pairwise fun r q => r.pattern &&& q.mask ≠ q.pattern &&& r.mask := by decide
  exact h.imp OpcodeRow.disjoint_of_pattern_ne

/-! ### Decoding and encoding -/

/-- A command comes from a row that holds of the word. -/
theorem exists_row_of_decode {w : U32} {i : Instr} (h : decode w = .ok i) :
    ∃ r ∈ opcodeMap, r.holds w = true ∧ r.operands w = i := by
  rw [decode] at h
  rcases hf : opcodeMap.find? (OpcodeRow.holds · w) with _ | r <;> rw [hf] at h <;> cases h
  have hholds : r.holds w = true := List.find?_some (p := (OpcodeRow.holds · w)) hf
  exact ⟨r, List.mem_of_find?_eq_some hf, hholds, rfl⟩

/-- A word of which some row holds decodes. -/
theorem decode_of_row {w : U32} {r : OpcodeRow} (hr : r ∈ opcodeMap) (h : r.holds w = true) : ∃ i, decode w = .ok i := by
  have hf : (opcodeMap.find? (OpcodeRow.holds · w)).isSome = true := List.find?_isSome.2 ⟨r, hr, h⟩
  obtain ⟨q, hq⟩ := Option.isSome_iff_exists.1 hf
  exact ⟨q.operands w, by rw [decode, hq]⟩

theorem decode_encode {i : Instr} (hi : i.wellFormed = true) : decode (encode i) = .ok i := by
  cases i with
  | ksInit b | aesKeysel b => cases b <;> rfl
  | ctrInit tag =>
    revert tag
    decide
  | prXform tag dev dir =>
    revert tag dev dir
    decide
  | _ => rfl

/-- Settles O1: a word that matches a row is the word of the command it makes, and every command decodes from its word. -/
theorem decodeExactlyInvertsEncode : Obligations.DecodeExactlyInvertsEncode := by
  refine fun w i => ⟨fun h => ?_, fun ⟨hi, hw⟩ => hw ▸ decode_encode hi⟩
  obtain ⟨r, hr, hholds, rfl⟩ := exists_row_of_decode h
  obtain ⟨hmatch, hi⟩ := OpcodeRow.holds_iff.1 hholds
  exact ⟨hi, encode_operands_of_match hr hmatch⟩

/-- Settles O4: the table's words, decoded. -/
theorem wordsOfTheDecodingTable : Obligations.WordsOfTheDecodingTable := by
  unfold Obligations.WordsOfTheDecodingTable
  decide

/-! ### Legal words (R96) -/

/-- None of R96's four cases holds of the word. -/
def LegalWord (w : U32) : Prop :=
  w.extractLsb' 12 20 = 0 ∧ w.extractLsb' 0 8 ∈ listedOpcodes ∧
    w.extractLsb' 8 4 &&& ~~~ assignedSub (w.extractLsb' 0 8) = 0 ∧
    (w.extractLsb' 0 8 = 0x40 ∨ w.extractLsb' 0 8 = 0x43 → w.extractLsb' 8 2 ≠ 3)

theorem legalWord_encode {i : Instr} (hi : i.wellFormed = true) : LegalWord (encode i) := by
  unfold LegalWord
  cases i with
  | ksInit b | aesKeysel b => cases b <;> decide
  | ctrInit tag =>
    revert tag
    decide
  | prXform tag dev dir =>
    revert tag dev dir
    decide
  | _ => decide

/-- A command word is its fields RSV, SUB and OPC (R91). -/
theorem fields_append (w : U32) : w.extractLsb' 12 20 ++ w.extractLsb' 8 4 ++ w.extractLsb' 0 8 = w := by
  rw [BitVec.extractLsb'_append_extractLsb'_eq_extractLsb' (rfl : 12 = 8 + 4),
    BitVec.extractLsb'_append_extractLsb'_eq_extractLsb' (rfl : 8 = 0 + 8)]
  exact BitVec.extractLsb'_eq_self

/-- The tag is the low two bits of SUB (R93). -/
theorem tag_eq_sub (w : U32) : w.extractLsb' 8 2 = (w.extractLsb' 8 4).extractLsb' 0 2 := by
  ext i hi
  simp [show i < 4 by omega]

/-- Each listed opcode has a row for every SUB that R93 lets it have (R97). -/
theorem exists_row_of_fields : ∀ opc ∈ listedOpcodes, ∀ sub : BitVec 4, sub &&& ~~~ assignedSub opc = 0 →
    (opc = 0x40 ∨ opc = 0x43 → sub.extractLsb' 0 2 ≠ 3) → ∃ r ∈ opcodeMap, r.holds (0#20 ++ sub ++ opc) = true := by
  decide

theorem decode_of_legalWord {w : U32} (h : LegalWord w) : ∃ i, decode w = .ok i := by
  obtain ⟨hrsv, hopc, hsub, htag⟩ := h
  rw [tag_eq_sub] at htag
  obtain ⟨r, hr, hholds⟩ := exists_row_of_fields _ hopc _ hsub htag
  refine decode_of_row hr ?_
  rw [← fields_append w, hrsv]
  exact hholds

theorem decode_eq_error_iff {w : U32} : (∃ r, decode w = .error r) ↔ ¬ LegalWord w := by
  refine ⟨fun ⟨r, hr⟩ hw => ?_, fun hw => ?_⟩
  · obtain ⟨i, hi⟩ := decode_of_legalWord hw
    cases hr.symm.trans hi
  · rcases hd : decode w with r | i
    · exact ⟨r, rfl⟩
    · obtain ⟨hi, rfl⟩ := (decodeExactlyInvertsEncode w i).1 hd
      exact absurd (legalWord_encode hi) hw

/-! ### Issuing a word (R90, R96) -/

theorem issue_of_decode {w : U32} {i : Instr} (h : decode w = .ok i) (s : State) :
    issue w s = exec i { s with busy := true } := by
  rw [issue, h]

theorem issue_of_illegal {w : U32} {r : Illegal} (h : decode w = .error r) (s : State) :
    issue w s = .next (s.withResult .illegalCmd) := by
  rw [issue, h]
  rfl

/-- A step on a write to CMD issues the word written (R30, R90). -/
theorem step_of_cmdWrite {s : State} {v : U128} {rest : List HostAction} (h : s.pending = .regWrite 0x00 v :: rest) :
    step s = issue (v.setWidth 32) (s.takeAction rest) :=
  step_cons h

/-- Settles O2: the illegal words are those that encode no command, and issuing one only raises ILLEGAL_CMD. -/
theorem illegalWordsAndTheirEffect : Obligations.IllegalWordsAndTheirEffect := by
  refine fun w => ⟨?_, fun s rest r hd hp => ?_⟩
  · rw [decode_eq_error_iff, LegalWord]
    tauto
  · rw [step_of_cmdWrite hp, BitVec.setWidth_setWidth_of_le w (by decide), BitVec.setWidth_eq, issue_of_illegal hd]
    rfl

/-- Settles O5: the step issues the word, and issuing it executes the command it decodes to. -/
theorem stepRunsTheDecodedCommand : Obligations.StepRunsTheDecodedCommand := by
  intro s v rest i hp hd
  rw [step_of_cmdWrite hp, issue_of_decode hd]
  rfl

end Sys2Proof.Machine

/-! ## The Key Material Store (R120, R121, R123)

KS.INIT's outcome as one equation per case of R121, and the store it loads register by register. -/

namespace Sys2Proof.Machine

/-- Settles O23: the word is NOP's encoding, and NOP only finishes. -/
theorem nopOnlyClearsTheResult : Obligations.NopOnlyClearsTheResult :=
  ⟨decode_encode (i := .nop) rfl, finish_eq⟩

/-! ### The staged store -/

@[simp] theorem stagedStore_ksc (k : Vector U128 9) : (stagedStore k).ksc = k[0] := rfl

theorem stagedStore_ret (k : Vector U128 9) (i : Fin 4) : (stagedStore k).ret[i] = k[1 + i.val] := by
  fin_cases i <;> rfl

theorem stagedStore_dev (k : Vector U128 9) (i : Fin 4) : (stagedStore k).dev[i] = k[5 + i.val] := by
  fin_cases i <;> rfl

/-! ### KS.INIT -/

section KsInit

variable {s : State} {ok : Bool}

theorem execKsInit_of_ne_uninit (h : s.ksState ≠ .uninit) : execKsInit ok s = .next (s.withResult .ok) := if_pos h

theorem execKsInit_of_failing (h : s.ksState = .uninit) (hf : ok = false ∨ s.kstageWr ≠ allStaged) :
    execKsInit ok s = .next (State.withResult .keystoreError { s with ksState := .failed }) := by
  rw [execKsInit, if_neg (not_not.2 h), if_pos hf, raise_eq]

theorem execKsInit_of_allStaged (h : s.ksState = .uninit) (hok : ok = true) (hall : s.kstageWr = allStaged) :
    execKsInit ok s =
      .next (State.withResult .ok { s with store := stagedStore s.kstage, ksState := .ready }) := by
  have hf : ¬ (ok = false ∨ s.kstageWr ≠ allStaged) := by simp [hok, hall]
  rw [execKsInit, if_neg (not_not.2 h), if_neg hf, finish_eq]

end KsInit

/-- Settles O24: a later attempt finishes, a failing first one raises, and the loading one stores the staged values. -/
theorem ksInitLoadsTheStoreOnce : Obligations.KsInitLoadsTheStoreOnce := by
  refine fun s ok => ⟨execKsInit_of_ne_uninit, fun h hok hall => ?_, execKsInit_of_failing⟩
  exact ⟨_, execKsInit_of_allStaged h hok hall, stagedStore_ksc s.kstage,
    fun i => ⟨stagedStore_ret s.kstage i, stagedStore_dev s.kstage i⟩, rfl⟩

end Sys2Proof.Machine

/-! ## The Key-Table Unit (R140 to R151)

E and D are one cipher run over the P-words in opposite orders: rounds with all but the last two of them, then a swap of
the halves under those two. A round undoes the swap of the round before it, which is why each order undoes the other. -/

namespace Sys2Proof.Machine

/-! ### The lookup (R140) -/

theorem toNat_extractLsb'_byte (c : U32) (i : Nat) : (c.extractLsb' i 8).toNat = c.toNat / 2 ^ i % 0x100 := by
  rw [BitVec.extractLsb'_toNat, Nat.shiftRight_eq_div_pow]

/-- The plane at `base` ends inside the table, so any byte addresses a word of it. -/
theorem tableWord_byte (t : Table) (c : U32) {base : Nat} (hbase : base ≤ 786) (i : Nat) :
    tableWord t (base + (c.extractLsb' i 8).toNat) = t[base + c.toNat / 2 ^ i % 0x100] := by
  rw [toNat_extractLsb'_byte, tableWord_eq]

/-- Settles O25: each index is a byte of c, so every word read is in the table. -/
theorem lookupCombinesFourPlanes : Obligations.LookupCombinesFourPlanes := by
  intro t c
  have htop : c.toNat / 0x1000000 % 0x100 = c.toNat / 0x1000000 := Nat.mod_eq_of_lt (by omega)
  simp only [lookupF, tableWord_byte t c, Nat.reduceLeDiff, Nat.reducePow, htop, Nat.div_one]

/-! ### Rounds (R141, R142) -/

theorem feistelRounds_range_succ (t : Table) (p : Nat → Nat) (n : Nat) (x : U32 × U32) :
    feistelRounds t ((List.range (n + 1)).map p) x =
      feistelRound t (feistelRounds t ((List.range n).map p) x) (p n) := by
  simp [feistelRounds, List.range_succ]

/-- Rounds that follow a recurrence end in its last pair. -/
theorem feistelRounds_of_recurrence {t : Table} {p : Nat → Nat} {a b c : Nat → U32} (n : Nat)
    (hp : ∀ i, i < n → p i < 1042)
    (h : ∀ i (hi : i < n),
      c i = t[p i]'(hp i hi) ^^^ a i ∧ a (i + 1) = b i ^^^ lookupF t (c i) ∧ b (i + 1) = c i) :
    feistelRounds t ((List.range n).map p) (a 0, b 0) = (a n, b n) := by
  induction n with
  | zero => rfl
  | succ n ih =>
    obtain ⟨hc, ha, hb⟩ := h n n.lt_succ_self
    rw [feistelRounds_range_succ, ih (fun i hi => hp i (by omega)) (fun i hi => h i (by omega)), feistelRound]
    simp only [tableWord_eq t (hp n n.lt_succ_self), ← hc, ha, hb]

/-- Settles O26: E's rounds follow the recurrence with P-words 0 to 15. -/
theorem encryptRunsSixteenRounds : Obligations.EncryptRunsSixteenRounds := by
  rintro t _ _ a b c rfl rfl h
  have hrounds : feistelRounds t encryptOrder (a 0, b 0) = (a 16, b 16) :=
    feistelRounds_of_recurrence (p := fun i => i) 16 (by omega) h
  rw [blockE, hrounds, tableWord_eq, tableWord_eq]

/-- Settles O27: D's rounds follow the recurrence with P-words 17 down to 2. -/
theorem decryptRunsSixteenRounds : Obligations.DecryptRunsSixteenRounds := by
  rintro t _ _ a b c rfl rfl h
  have hrounds : feistelRounds t decryptOrder (a 0, b 0) = (a 16, b 16) :=
    feistelRounds_of_recurrence (p := (17 - ·)) 16 (by omega) h
  rw [blockD, hrounds, tableWord_eq, tableWord_eq]

/-! ### E and D undo each other (R143) -/

/-- The last step of E and D: the halves swapped, each under a P-word (R141, R142). -/
def whiten (t : Table) (i j : Nat) (x : U32 × U32) : U32 × U32 := (x.2 ^^^ tableWord t i, x.1 ^^^ tableWord t j)

theorem blockE_eq (t : Table) (x : U32 × U32) : blockE t x = whiten t 17 16 (feistelRounds t encryptOrder x) := rfl

theorem blockD_eq (t : Table) (x : U32 × U32) : blockD t x = whiten t 0 1 (feistelRounds t decryptOrder x) := rfl

theorem whiten_whiten (t : Table) (i j : Nat) (x : U32 × U32) : whiten t i j (whiten t j i x) = x := by
  simp [whiten]

/-- A round under the first P-word of the swap undoes the round before it, and moves the swap one P-word back. -/
theorem feistelRound_whiten_feistelRound (t : Table) (i j k : Nat) (x : U32 × U32) :
    feistelRound t (whiten t k j (feistelRound t x i)) k = whiten t j i x := by
  have hc : tableWord t k ^^^ (tableWord t i ^^^ x.1 ^^^ tableWord t k) = tableWord t i ^^^ x.1 := by simp
  simp only [feistelRound, whiten, hc]
  refine Prod.ext ?_ (BitVec.xor_comm _ _)
  rw [BitVec.xor_assoc x.2, BitVec.xor_comm (lookupF _ _)]
  simp [BitVec.xor_assoc]

/-- The rounds of an order are undone by those of the opposite order, the two ends of which are the swaps' P-words. -/
theorem feistelRounds_whiten_feistelRounds (t : Table) (p : Nat → Nat) (x : U32 × U32) (n : Nat) :
    feistelRounds t ((List.range n).map fun i => p (n + 1 - i))
      (whiten t (p (n + 1)) (p n) (feistelRounds t ((List.range n).map p) x)) = whiten t (p 1) (p 0) x := by
  induction n with
  | zero => rfl
  | succ n ih =>
    have hfirst (y : U32 × U32) : feistelRounds t ((List.range (n + 1)).map fun i => p (n + 2 - i)) y =
        feistelRounds t ((List.range n).map fun i => p (n + 1 - i)) (feistelRound t y (p (n + 2))) := by
      simp [feistelRounds, List.range_succ_eq_map, Function.comp_def]
    rw [hfirst, feistelRounds_range_succ, feistelRound_whiten_feistelRound, ih]

theorem blockD_blockE (t : Table) (x : U32 × U32) : blockD t (blockE t x) = x := by
  have h : feistelRounds t decryptOrder (blockE t x) = whiten t 1 0 x :=
    feistelRounds_whiten_feistelRounds t (fun i => i) x 16
  rw [blockD_eq, h, whiten_whiten]

theorem blockE_blockD (t : Table) (x : U32 × U32) : blockE t (blockD t x) = x := by
  have h : feistelRounds t encryptOrder (blockD t x) = whiten t 16 17 x :=
    feistelRounds_whiten_feistelRounds t (17 - ·) x 16
  rw [blockE_eq, h, whiten_whiten]

/-- Settles O28: the orders of E and D are opposite. -/
theorem decryptInvertsEncrypt : Obligations.DecryptInvertsEncrypt :=
  fun t x => ⟨blockD_blockE t x, blockE_blockD t x⟩

/-! ### UpdateTable and Init2 (R144, R145) -/

/-- Even P-words take U[0..3], odd ones U[4..7]. -/
theorem gather_eq (U : List U8) (j : Nat) : gather U j =
    if j % 2 = 0 then byteAt U 0 ++ byteAt U 1 ++ byteAt U 2 ++ byteAt U 3
    else byteAt U 4 ++ byteAt U 5 ++ byteAt U 6 ++ byteAt U 7 := by
  rw [gather]
  split_ifs with h
  · rw [show 4 * j % 8 = 0 by omega, show (4 * j + 1) % 8 = 1 by omega, show (4 * j + 2) % 8 = 2 by omega,
      show (4 * j + 3) % 8 = 3 by omega]
  · rw [show 4 * j % 8 = 4 by omega, show (4 * j + 1) % 8 = 5 by omega, show (4 * j + 2) % 8 = 6 by omega,
      show (4 * j + 3) % 8 = 7 by omega]

/-- The XOR phase after its first P-words. -/
theorem tableWord_foldl_xor (U : List U8) (t : Table) {n : Nat} (hn : n ≤ 18) (j : Nat) :
    tableWord ((List.range n).foldl (fun t j => tableSet t j (tableWord t j ^^^ gather U j)) t) j =
      if j < n then tableWord t j ^^^ gather U j else tableWord t j := by
  induction n with
  | zero => rfl
  | succ n ih =>
    rw [List.range_succ, List.foldl_append, List.foldl_cons, List.foldl_nil]
    by_cases hj : j = n
    · subst hj
      rw [tableWord_tableSet_self _ _ (by omega), ih (by omega), if_neg (lt_irrefl j), if_pos j.lt_succ_self]
    · rw [tableWord_tableSet_other _ _ hj, ih (by omega)]
      simp only [show j < n + 1 ↔ j < n by omega]

theorem tableWord_xorPhase (U : List U8) (t : Table) (j : Nat) :
    tableWord (xorPhase U t) j = if j < 18 then tableWord t j ^^^ gather U j else tableWord t j :=
  tableWord_foldl_xor U t le_rfl j

/-- A call of E writes its two words, and no other one. -/
theorem tableWord_tableSet_pair (t : Table) (v w : U32) {i j : Nat} (hj : j < 1042) :
    tableWord (tableSet (tableSet t (2 * i) v) (2 * i + 1) w) j =
      if j = 2 * i then v else if j = 2 * i + 1 then w else tableWord t j := by
  split_ifs with h1 h2
  · rw [tableWord_tableSet_other _ _ (by omega), ← h1, tableWord_tableSet_self _ _ hj]
  · rw [← h2, tableWord_tableSet_self _ _ hj]
  · rw [tableWord_tableSet_other _ _ h2, tableWord_tableSet_other _ _ h1]

/-- Tables and accumulators that follow the recurrence of the calls are those of `updateCalls`. -/
theorem updateCalls_of_recurrence {T : Nat → Table} {x : Nat → U32 × U32} (n : Nat) (hx : x 0 = (0, 0))
    (h : ∀ k, k < n → x (k + 1) = blockE (T k) (x k) ∧ ∀ j (h : j < 1042), (T (k + 1))[j] =
      if j = 2 * k then (x (k + 1)).1 else if j = 2 * k + 1 then (x (k + 1)).2 else (T k)[j]) :
    updateCalls (T 0) n = (T n, x n) := by
  induction n with
  | zero => rw [updateCalls, hx]
  | succ n ih =>
    obtain ⟨hE, hwords⟩ := h n n.lt_succ_self
    simp only [updateCalls, ih fun k hk => h k (by omega), ← hE, Prod.mk.injEq, and_true]
    refine table_ext fun j hj => ?_
    rw [tableWord_tableSet_pair _ _ _ hj, tableWord_eq _ hj, tableWord_eq _ hj, hwords j hj]

/-- Settles O29: the first table is the XOR phase's, and the others follow the calls. -/
theorem updateTableAsWritten : Obligations.UpdateTableAsWritten := by
  intro U t T x hT hx hstep
  have hxor : xorPhase U t = T 0 := by
    refine table_ext fun j hj => ?_
    rw [tableWord_xorPhase, gather_eq, tableWord_eq _ hj, tableWord_eq _ hj, hT j hj]
    by_cases hp : j < 18
    · rw [if_pos hp, if_neg (show ¬ 18 ≤ j by omega)]
      split_ifs <;> rfl
    · rw [if_neg hp, if_pos (show 18 ≤ j by omega)]
  rw [updateTable, hxor, updateCalls_of_recurrence 521 hx hstep]

/-- Settles O31: Init2 is those two encrypts and the update. -/
theorem initTwoChainsTheEncrypts : Obligations.InitTwoChainsTheEncrypts := by
  intro t w0 w1 w2 x2 x1 y1 y0 hx hy
  simp only [init2, hx, hy, serialiseW]

/-! ### The commands (R146 to R151) -/

/-- Settles O32: KT.INIT1 has one exit. -/
theorem ktInitOneDerivesTheTable : Obligations.KtInitOneDerivesTheTable := by
  rintro s _ rfl
  obtain ⟨k, hk, h⟩ := execKtInit1_cases s
  rw [init1, seeded] at hk
  rw [← hk]
  exact h

/-- Settles O34: each of the five asks for KT_VALID first. -/
theorem keyTableCommandsNeedTheTable : Obligations.KeyTableCommandsNeedTheTable := by
  intro s i hv hi
  simp only [List.mem_cons, List.not_mem_nil, or_false] at hi
  rcases hi with rfl | rfl | rfl | rfl | rfl <;> exact if_pos hv

section
variable {s : State} (hv : s.ktValid = true)
include hv

theorem ite_ktValid {c : Code} {r : Result} : (if s.ktValid = false then raise c s else r) = r :=
  if_neg (by rw [hv]; decide)

theorem execKtInit2_of_ktValid : execKtInit2 s = .next ((s.setSchedule (init2 s.schedule)).withResult .ok) :=
  ite_ktValid hv

theorem execKtUpdate_of_ktValid : execKtUpdate s = .next (State.withResult .ok
    { s with table := updateTable (serialiseW s.w0.val s.w1.val s.w2.val) s.table }) := ite_ktValid hv

theorem execKtAdvance_of_ktValid : execKtAdvance s = .next (State.withResult .ok
    { s with w1 := .written (s.w1.val <<< 1), w2 := .written (s.w2.val >>> 1) }) := ite_ktValid hv

theorem blockCommand_of_ktValid (f : Table → U32 × U32 → U32 × U32) :
    blockCommand f s = .next (State.withResult .ok
      { s with
        blkA := .written (f s.table (s.blkA.val, s.blkB.val)).1
        blkB := .written (f s.table (s.blkA.val, s.blkB.val)).2 }) := ite_ktValid hv

/-- Two block commands whose functions undo each other restore the block. -/
theorem blockCommand_blockCommand {f g : Table → U32 × U32 → U32 × U32} (hgf : ∀ t x, g t (f t x) = x) :
    ∃ t u, blockCommand f s = .next t ∧ blockCommand g t = .next u ∧
      u.blkA.val = s.blkA.val ∧ u.blkB.val = s.blkB.val := by
  refine ⟨_, _, blockCommand_of_ktValid hv f, blockCommand_of_ktValid ?_ g, ?_, ?_⟩
  · exact hv
  · exact congrArg Prod.fst (hgf s.table (s.blkA.val, s.blkB.val))
  · exact congrArg Prod.snd (hgf s.table (s.blkA.val, s.blkB.val))

end

/-- Settles O30: the table written is the update by W, of which W2 is no operand. -/
theorem updateIgnoresTheLastWord : Obligations.UpdateIgnoresTheLastWord := fun s _ hv =>
  ⟨_, _, execKtUpdate_of_ktValid hv, execKtUpdate_of_ktValid (s := { s with w2 := _ }) hv,
    updateTable_serialiseW s.w0.val s.w1.val _ _ s.table⟩

/-- Settles O33: each command's exit with a table; the shifts of W1 and W2 double and halve. -/
theorem keyTableStepsResult : Obligations.KeyTableStepsResult := by
  rintro s k hv rfl
  refine ⟨execKtInit2_of_ktValid hv, execKtUpdate_of_ktValid hv, _, _, ?_, ?_, execKtAdvance_of_ktValid hv⟩
  · rw [BitVec.toNat_shiftLeft, Nat.shiftLeft_eq, pow_one, Nat.mul_comm]
  · rw [BitVec.toNat_ushiftRight, Nat.shiftRight_eq_div_pow, pow_one]

/-- Settles O35: the words written are those of E and of D. -/
theorem blockCommandsResult : Obligations.BlockCommandsResult := by
  refine fun s a b hv => ⟨fun h => ?_, fun h => ?_⟩
  · have hE := blockCommand_of_ktValid hv blockE
    rw [h] at hE
    exact hE
  · have hD := blockCommand_of_ktValid hv blockD
    rw [h] at hD
    exact hD

/-- Settles O36: E and D undo each other, and the first command leaves T and KT_VALID alone. -/
theorem blockCommandsRoundTrip : Obligations.BlockCommandsRoundTrip := fun _ hv =>
  ⟨blockCommand_blockCommand hv blockD_blockE, blockCommand_blockCommand hv blockE_blockD⟩

end Sys2Proof.Machine

/-! ## The Secure-Area Sequencer (R180 to R187)

The three commands begin alike, and their early exits are said once for that beginning (`saPeek`). What the two transforms
leave of the image, every access completed, is one predicate (`AreaMapped`); a second transform whose functions undo the
first one's restores the image. -/

namespace Sys2Proof.Machine

/-! ### Detection (R180) -/

theorem isDec_iff {w : U32 × U32} : isDec w = true ↔ w = marker ∨ w = altMarker := by
  simp [isDec]

/-- Settles O37: the two markers, word by word. -/
theorem detectionPredicate : Obligations.DetectionPredicate := by
  intro w0 w1
  rw [isDec_iff, marker, altMarker, Prod.mk.injEq, Prod.mk.injEq]

/-! ### The bounds check and the block-0 peek (R181, R182, R184) -/

/-- How SA.DETECT, SA.DEC and SA.ENC begin: with the bounds check and the block-0 peek, then on with SA_DEC the verdict. -/
def saPeek (bound : Nat) (s : State) (go : U32 × U32 → State → Result) : Result :=
  if s.port.image.len < bound then raise .ioFail s
  else
    match memRead saBase 8 s.port with
    | .error q => raise .ioFail { s with port := q }
    | .ok B q => go (blockWords B) { s with port := q, saDec := isDec (blockWords B) }

theorem execSaDetect_eq_saPeek (s : State) : execSaDetect s = saPeek 0x4008 s fun _ => finish := rfl

theorem saEnter_eq_saPeek (already : Bool) (s : State) (go : U32 × U32 → State → Result) :
    saEnter already s go =
      saPeek 0x4800 s fun w t => if t.saDec = already then raise .already t else go w t := rfl

theorem execSaDec_eq_saEnter (s : State) : ∃ go, execSaDec s = saEnter true s go := ⟨_, rfl⟩

theorem execSaEnc_eq_saEnter (s : State) : ∃ go, execSaEnc s = saEnter false s go := ⟨_, rfl⟩

/-- The three commands differ, up to the peek, only in the least image length they accept. -/
theorem exec_eq_saPeek {i : Instr} (hi : i ∈ [.saDetect, .saDec, .saEnc]) (s : State) :
    ∃ go, exec i s = saPeek (if i = .saDetect then 0x4008 else 0x4800) s go := by
  simp only [List.mem_cons, List.not_mem_nil, or_false] at hi
  rcases hi with rfl | rfl | rfl
  · exact ⟨_, execSaDetect_eq_saPeek s⟩
  · obtain ⟨go, h⟩ := execSaDec_eq_saEnter s
    exact ⟨_, h.trans (saEnter_eq_saPeek true s go)⟩
  · obtain ⟨go, h⟩ := execSaEnc_eq_saEnter s
    exact ⟨_, h.trans (saEnter_eq_saPeek false s go)⟩

section
variable {bound : Nat} {s : State} {rest : List PortAnswer}

theorem saPeek_of_short (go : U32 × U32 → State → Result) (hl : s.port.image.len < bound) :
    saPeek bound s go = .next (s.withResult .ioFail) := if_pos hl

theorem saPeek_of_busError (go : U32 × U32 → State → Result) {torn : List U8} (hl : bound ≤ s.port.image.len)
    (ha : s.port.answers = .error torn :: rest) :
    saPeek bound s go = .next (State.withResult .ioFail { s with port := { s.port with answers := rest } }) := by
  rw [saPeek, if_neg (Nat.not_lt.2 hl), memRead_torn ha]
  rfl

theorem saPeek_of_done (go : U32 × U32 → State → Result) (hl : bound ≤ s.port.image.len)
    (ha : s.port.answers = .done :: rest) :
    saPeek bound s go = go (s.port.image.block 0)
      { s with port := { s.port with answers := rest }, saDec := isDec (s.port.image.block 0) } := by
  rw [saPeek, if_neg (Nat.not_lt.2 hl), memRead_done ha]
  rfl

/-- The ALREADY exit (R182, R184). -/
theorem saEnter_of_already {already : Bool} (go : U32 × U32 → State → Result) (hl : 0x4800 ≤ s.port.image.len)
    (ha : s.port.answers = .done :: rest) (hv : isDec (s.port.image.block 0) = already) :
    saEnter already s go = .next
      (State.withResult .already { s with port := { s.port with answers := rest }, saDec := already }) := by
  rw [saEnter_eq_saPeek, saPeek_of_done _ hl ha, hv]
  exact if_pos rfl

end

/-- Settles O38: past the peek SA.DETECT only finishes. -/
theorem saDetectReportsTheVerdict : Obligations.SaDetectReportsTheVerdict :=
  fun _ _ hl ha => saPeek_of_done (fun _ => finish) hl ha

/-- Settles O39: both failures come before anything in which the three commands differ. -/
theorem secureAreaEarlyFailures : Obligations.SecureAreaEarlyFailures := by
  intro s i hi
  obtain ⟨go, h⟩ := exec_eq_saPeek hi s
  rw [h]
  exact ⟨saPeek_of_short go, fun _ _ hl ha => saPeek_of_busError go hl ha⟩

/-- Settles O40: the state asked for is the verdict. -/
theorem secureAreaAlreadyExit : Obligations.SecureAreaAlreadyExit := by
  intro s rest v hl ha hv
  cases v with
  | false =>
    obtain ⟨go, h⟩ := execSaEnc_eq_saEnter s
    exact h.trans (saEnter_of_already go hl ha hv)
  | true =>
    obtain ⟨go, h⟩ := execSaDec_eq_saEnter s
    exact h.trans (saEnter_of_already go hl ha hv)

/-! ### The transforms, every access completed (R182 to R185) -/

/-- `img'` is `img` with secure-area block 0 now `w` and each of blocks 1 to 255 transformed by `f`. -/
structure AreaMapped (f : U32 × U32 → U32 × U32) (w : U32 × U32) (img img' : Image) : Prop where
  len : img'.len = img.len
  wf : img'.wf = true
  head : img'.block 0 = w
  bulk : ∀ k, 1 ≤ k → k < 256 → img'.block k = f (img.block k)
  rest : ∀ x, x < 0x4000 ∨ 0x4800 ≤ x → img'.byte x = img.byte x

/-- The state in which SA.DEC or SA.ENC of `s` completes: the schedule `k` in T and W, and SA_DEC the verdict `v`. -/
def State.saDone (k : Schedule) (v : Bool) (img : Image) (rest : List PortAnswer) (s : State) : State :=
  State.withResult .ok
    { State.setSchedule k { s with port := { s.port with image := img, answers := rest }, saDec := v } with
      ktValid := true }

section
variable {s : State} {k2 k3 : Schedule} {rest : List PortAnswer}
  (hk2 : k2 = init1 s.params.seed s.gamecode.val) (hk3 : k3 = primed k2)
  (hwf : s.port.image.wf = true) (hl : 0x4800 ≤ s.port.image.len)
include hk2 hk3 hwf hl

theorem execSaDec_done (ha : s.port.answers = List.replicate 512 .done ++ rest)
    (hv : isDec (s.port.image.block 0) = false) :
    ∃ img, execSaDec s = .next (s.saDone k3 false img rest) ∧
      AreaMapped (onWords (blockD k3.table)) (decryptHead k2.table k3.table (s.port.image.block 0)) s.port.image img := by
  obtain ⟨img, e, hlen, hwf', hhead, hbulk, hrest⟩ := decryptArea_done (l2 := k2.table) (l3 := k3.table)
    (w := s.port.image.block 0) (p := { s.port with answers := List.replicate 511 .done ++ rest }) hwf hl rfl
  refine ⟨img, ?_, hlen, hwf', hhead, hbulk, hrest⟩
  rw [List.replicate_succ, List.cons_append] at ha
  rw [execSaDec, saEnter_entered (already := true) hl ha hv]
  simp only [← hk2, ← hk3, Bool.not_true, e]
  rfl

theorem execSaEnc_done (ha : s.port.answers = List.replicate 513 .done ++ rest)
    (hv : isDec (s.port.image.block 0) = true) :
    ∃ img, execSaEnc s = .next (s.saDone k2 true img rest) ∧
      AreaMapped (onWords (blockE k3.table)) (encryptHead k2.table k3.table (s.port.image.block 0)) s.port.image img := by
  obtain ⟨img, e, hlen, hwf', hhead, hbulk, hrest⟩ := encryptArea_done (l2 := k2.table) (l3 := k3.table)
    (p := { s.port with answers := List.replicate 512 .done ++ rest }) hwf hl rfl
  refine ⟨img, ?_, hlen, hwf', hhead, hbulk, hrest⟩
  rw [List.replicate_succ, List.cons_append] at ha
  rw [execSaEnc, saEnter_entered (already := false) hl ha hv]
  simp only [← hk2, ← hk3, Bool.not_false, e]
  rfl

end

/-- Settles O41: the accesses after the peek, and the schedule `primed` names. -/
theorem saDecDecryptsTheArea : Obligations.SaDecDecryptsTheArea := by
  intro s rest k2 k3 words dec p hwords hdec hk2 hk3 hwf hl ha hv hp
  obtain rfl : words = fun img a => blockWords (img.bytes a 8) := funext₂ hwords
  obtain rfl : dec = fun t => onWords (blockD t) := funext₂ hdec
  obtain ⟨img, e, h⟩ := execSaDec_done hk2 hk3 hwf hl ha hv
  subst hp
  exact ⟨img, e, h.len, h.head, fun k h1 h2 => h.bulk k h1 (by omega), h.rest⟩

/-- Settles O42: the accesses after the peek, the second read of block 0 finding what the peek found. -/
theorem saEncEncryptsTheArea : Obligations.SaEncEncryptsTheArea := by
  intro s rest k2 k3 words enc p hwords henc hk2 hk3 hwf hl ha hv hp
  obtain rfl : words = fun img a => blockWords (img.bytes a 8) := funext₂ hwords
  obtain rfl : enc = fun t => onWords (blockE t) := funext₂ henc
  obtain ⟨img, e, h⟩ := execSaEnc_done hk2 hk3 hwf hl ha hv
  subst hp
  exact ⟨img, e, h.len, h.head, fun k h1 h2 => h.bulk k h1 (by omega), h.rest⟩

/-! ### Round trips (R187) -/

/-- A transform that undoes the one before it, block 0 included, restores the image. -/
theorem AreaMapped.restores {f g : U32 × U32 → U32 × U32} {w : U32 × U32} {img img' img'' : Image}
    (hwf : img.wf = true) (hgf : ∀ x, g (f x) = x) (h : AreaMapped f w img img')
    (h' : AreaMapped g (img.block 0) img' img'') : img'' = img := by
  have hblock : ∀ k, k < 256 → img''.block k = img.block k := by
    intro k hk
    rcases Nat.eq_zero_or_pos k with rfl | hpos
    · exact h'.head
    · rw [h'.bulk k hpos hk, h.bulk k hpos hk, hgf]
  refine Image.ext_of_byte h'.wf hwf (h'.len.trans h.len) fun x => ?_
  by_cases hx : x < 0x4000 ∨ 0x4800 ≤ x
  · rw [h'.rest x hx, h.rest x hx]
  · have hk : saBlockAt ((x - 0x4000) / 8) ≤ x ∧ x < saBlockAt ((x - 0x4000) / 8) + 8 := by
      simp only [saBlockAt, saBase]
      omega
    exact Image.byte_of_block (hblock _ (by omega)) hk.1 hk.2

theorem onWords_cancel {f g : U32 × U32 → U32 × U32} (h : ∀ x, f (g x) = x) (w : U32 × U32) :
    onWords f (onWords g w) = w := by
  simp [onWords, h]

section
variable {l2 l3 : Table} {w : U32 × U32}
  (h : onWords (blockD l3) (onWords (blockD l2) w) = magic ∨ onWords (blockD l3) (onWords (blockD l2) w) = altMarker)
include h

theorem isDec_decryptHead : isDec (decryptHead l2 l3 w) = true := by
  rw [isDec_iff, decryptHead]
  rcases h with h | h
  · exact .inl (if_pos h)
  · refine .inr ?_
    rw [h]
    decide

/-- SA.ENC's substitution undoes SA.DEC's when block 0 came out as MAGIC or ALT_MARKER. -/
theorem encryptHead_decryptHead : encryptHead l2 l3 (decryptHead l2 l3 w) = w := by
  have hsubst : (if decryptHead l2 l3 w = marker then magic else decryptHead l2 l3 w) =
      onWords (blockD l3) (onWords (blockD l2) w) := by
    rw [decryptHead]
    rcases h with h | h <;> rw [h] <;> decide
  rw [encryptHead, hsubst, onWords_cancel (blockE_blockD l3), onWords_cancel (blockE_blockD l2)]

end

/-- Settles O45: SA.ENC finds block 0 decrypted, and each of its functions undoes SA.DEC's. -/
theorem encryptRestoresTheCiphertext : Obligations.EncryptRestoresTheCiphertext := by
  rintro s rest k2 k3 w p hk2 hk3 hwf hl ha hw hv rfl hp
  obtain rfl : w = s.port.image.block 0 := hw
  rw [show 1025 = 512 + 513 from rfl, ← List.replicate_append_replicate, List.append_assoc] at ha
  obtain ⟨img, e, h⟩ := execSaDec_done hk2 hk3 hwf hl ha hv
  have hl' : 0x4800 ≤ img.len := h.len.symm ▸ hl
  have hv' : isDec (img.block 0) = true := h.head.symm ▸ isDec_decryptHead hp
  obtain ⟨img', e', h'⟩ := execSaEnc_done
    (s := s.saDone k3 false img (List.replicate 513 .done ++ rest)) hk2 hk3 h.wf hl' rfl hv'
  have hhead : encryptHead k2.table k3.table (img.block 0) = s.port.image.block 0 :=
    h.head.symm ▸ encryptHead_decryptHead hp
  refine ⟨_, _, e, rfl, e', rfl, ?_⟩
  exact h.restores hwf (onWords_cancel (blockE_blockD k3.table)) (hhead ▸ h')

end Sys2Proof.Machine

/-! ## The Key-Scrambling Unit (R210 to R215)

Scramble is a chain of steps each of which keeps distinct values distinct: rotations, XOR with a fixed word and addition
of a fixed word. On the finite set of 128-bit words that makes it a bijection in X and in Y. -/

namespace Sys2Proof.Machine

/-! ### Scramble (R210, R215) -/

theorem rotl128_eq_rotateLeft (x : U128) {n : Nat} (hn : n < 128) : rotl128 x n = x.rotateLeft n := by
  rw [rotl128, BitVec.rotateLeft_def, Nat.mod_eq_of_lt hn]

theorem scramble_eq_rotateLeft (x y c : U128) :
    scramble x y c = ((x.rotateLeft 2 ^^^ y) + c).rotateLeft 87 := by
  rw [scramble, rotl128_eq_rotateLeft x (by decide), rotl128_eq_rotateLeft _ (by decide)]

theorem rotateRight_rotateLeft (x : U128) (n : Nat) : (x.rotateLeft n).rotateRight n = x := by
  refine BitVec.eq_of_getElem_eq fun i hi => ?_
  rw [BitVec.getElem_rotateRight]
  split_ifs with hlow
  · rw [BitVec.getElem_rotateLeft, dif_neg (by omega)]
    congr 1
    omega
  · rw [BitVec.getElem_rotateLeft, dif_pos (by omega)]
    congr 1
    omega

theorem rotateLeft_inj {n : Nat} {x y : U128} : x.rotateLeft n = y.rotateLeft n ↔ x = y :=
  ⟨fun h => by rw [← rotateRight_rotateLeft x n, h, rotateRight_rotateLeft], fun h => by rw [h]⟩

theorem scramble_right_inj {x y y' c : U128} : scramble x y c = scramble x y' c ↔ y = y' := by
  rw [scramble_eq_rotateLeft, scramble_eq_rotateLeft, rotateLeft_inj, add_left_inj, BitVec.xor_right_inj]

theorem scramble_left_inj {x x' y c : U128} : scramble x y c = scramble x' y c ↔ x = x' := by
  rw [scramble_eq_rotateLeft, scramble_eq_rotateLeft, rotateLeft_inj, add_left_inj, BitVec.xor_left_inj,
    rotateLeft_inj]

/-- Settles O48: Scramble is injective in each argument, so bijective on a finite type; a nonzero delta moves Y; the
vectors are computed. -/
theorem scrambleIsBijective : Obligations.ScrambleIsBijective := by
  refine ⟨fun x c => ?_, fun x y c delta hdelta heq => ?_, fun y c => ?_, by decide⟩
  · exact Finite.injective_iff_bijective.1 fun _ _ => scramble_right_inj.1
  · have hy : y ^^^ delta = y := scramble_right_inj.1 heq
    exact hdelta ((BitVec.xor_right_inj y).1 (hy.trans BitVec.xor_zero.symm))
  · exact Finite.injective_iff_bijective.1 fun _ _ => scramble_left_inj.1

/-! ### AES.KEYSEL (R211 to R213) -/

theorem methodSlot_eq_none_iff {map : List (U8 × Keyslot)} {m : U8} :
    methodSlot map m = none ↔ ∀ e ∈ map, e.1 ≠ m := by
  simp [methodSlot]

/-- SlotIndex is a keyslot's place in KEYSLOT_ID (R35, R212). -/
theorem keyslotId_slotIndex (k : Keyslot) : Config.keyslotId[(slotIndex k).val]? = some (slotNumber k) := by
  cases k <;> rfl

/-- Settles O49: the exits of R213 exclude each other, and the key's index is its keyslot's place in KEYSLOT_ID. -/
theorem keyselSelectsTheSlotsKey : Obligations.KeyselSelectsTheSlotsKey := by
  intro s dev
  obtain ⟨hs, e⟩ | ⟨hs, hm, e⟩ | ⟨k, hs, hm, e⟩ := execAesKeysel_cases dev s
  · exact ⟨fun _ => e, fun h => absurd h hs, fun h => absurd h hs⟩
  · refine ⟨absurd hs, fun _ _ => e, fun _ k hk => ?_⟩
    simp [hm] at hk
  · refine ⟨absurd hs, fun _ hnone => ?_, fun _ k' hk' => ?_⟩
    · simp [methodSlot_eq_none_iff.2 hnone] at hm
    · obtain rfl : k = k' := Option.some.inj (hm.symm.trans hk')
      exact ⟨slotIndex k, keyslotId_slotIndex k, e⟩

/-! ### AES.SCRAMBLE (R214) -/

/-- Settles O50: the store not READY, or KN derived by R210's formula. -/
theorem scrambleDerivesTheKey : Obligations.ScrambleDerivesTheKey := by
  intro s
  obtain ⟨hs, e⟩ | ⟨hs, e⟩ := execAesScramble_cases s
  · exact ⟨fun _ => e, fun h => absurd h hs⟩
  · rw [scramble_eq_rotateLeft] at e
    exact ⟨absurd hs, fun _ => e⟩

end Sys2Proof.Machine

/-! ## AES-128 (R240 to R244)

Multiplications by two elements of the field may change places, and 1 times an element is the element: so an element has
one inverse, and it is enough to find one under each entry of the S-box. For the rounds, a block is written by its bytes
(`AesBlock.ofMatrix`) and each step of a round is said once on that form; induction on the rounds does the rest. -/

namespace Sys2Proof.Machine

/-! ### The field of R240 -/

theorem xtime_xor (a b : U8) : xtime (a ^^^ b) = xtime a ^^^ xtime b := by
  have hcarry : ∀ p q : Bool,
      (if p ^^ q then (0x1B : U8) else 0) = (if p then 0x1B else 0) ^^^ (if q then 0x1B else 0) := by
    decide
  rw [xtime, xtime, xtime, BitVec.getLsbD_xor, hcarry, BitVec.shiftLeft_xor_distrib]
  ac_rfl

theorem xtime_zero : xtime 0 = 0 := by
  decide

theorem gfMul_xor (a b y : U8) (n : Nat) : gfMul (a ^^^ b) y n = gfMul a y n ^^^ gfMul b y n := by
  induction n with
  | zero => exact BitVec.xor_zero.symm
  | succ n ih =>
    rw [gfMul, gfMul, gfMul, ih, xtime_xor]
    split_ifs
    · ac_rfl
    · simp

theorem gfMul_xtime (a y : U8) (n : Nat) : gfMul (xtime a) y n = xtime (gfMul a y n) := by
  induction n with
  | zero => exact xtime_zero.symm
  | succ n ih =>
    rw [gfMul, gfMul, ih, xtime_xor]
    split_ifs <;> rfl

theorem gfMul_zero_left (y : U8) (n : Nat) : gfMul 0 y n = 0 := by
  induction n with
  | zero => rfl
  | succ n ih =>
    rw [gfMul, ih, ite_self, xtime_zero]
    exact BitVec.xor_self

/-- Two multiplications may change places. -/
theorem gfMul_right_comm (a y z : U8) (n m : Nat) : gfMul (gfMul a y n) z m = gfMul (gfMul a z m) y n := by
  induction n with
  | zero => exact gfMul_zero_left z m
  | succ n ih =>
    rw [gfMul, gfMul, gfMul_xor, gfMul_xtime, ih]
    split_ifs
    · rfl
    · rw [gfMul_zero_left]

theorem gfMul_one_left : ∀ y : U8, gfMul 1 y 8 = y := by
  decide

/-- An element has one inverse. -/
theorem gfMul_inverse_unique {b g g' : U8} (h : gfMul b g 8 = 1) (h' : gfMul b g' 8 = 1) : g = g' := by
  calc g = gfMul 1 g 8 := (gfMul_one_left g).symm
    _ = gfMul (gfMul b g' 8) g 8 := by rw [h']
    _ = gfMul (gfMul b g 8) g' 8 := gfMul_right_comm b g' g 8 8
    _ = g' := by rw [h, gfMul_one_left]

/-! ### The S-box (R241) -/

/-- The affine map of R241, each term of its bit i one rotation. -/
def sboxAffine (g : U8) : U8 :=
  g ^^^ g.rotateLeft 4 ^^^ g.rotateLeft 3 ^^^ g.rotateLeft 2 ^^^ g.rotateLeft 1 ^^^ 0x63

/-- The map that undoes `sboxAffine`: what stands under an entry of the S-box. -/
def sboxAffineInv (v : U8) : U8 := v.rotateLeft 1 ^^^ v.rotateLeft 3 ^^^ v.rotateLeft 6 ^^^ 0x05

theorem getLsbD_rotateLeft_mod {i : Nat} (k : Nat) (g : U8) (hi : i < 8) (hk : k < 8) :
    (g.rotateLeft k).getLsbD i = g.getLsbD ((i + (8 - k)) % 8) := by
  rw [BitVec.getLsbD_rotateLeft, Nat.mod_eq_of_lt hk]
  by_cases h : i < k
  · rw [decide_eq_true h, cond_true, Nat.mod_eq_of_lt (by omega)]
    congr 1
    omega
  · rw [decide_eq_false h, cond_false, decide_eq_true hi, Bool.true_and]
    congr 1
    omega

theorem getLsbD_sboxAffine (g : U8) {i : Nat} (hi : i < 8) :
    (sboxAffine g).getLsbD i =
      (g.getLsbD i ^^ g.getLsbD ((i + 4) % 8) ^^ g.getLsbD ((i + 5) % 8) ^^ g.getLsbD ((i + 6) % 8) ^^
        g.getLsbD ((i + 7) % 8) ^^ (0x63 : U8).getLsbD i) := by
  simp only [sboxAffine, BitVec.getLsbD_xor, getLsbD_rotateLeft_mod _ g hi, Nat.reduceLT, Nat.reduceSub]

theorem sboxAffine_sboxAffineInv : ∀ v : U8, sboxAffine (sboxAffineInv v) = v := by
  decide

theorem sboxAffineInv_sbox_zero : sboxAffineInv (sbox 0) = 0 := by
  decide

/-- Under each entry but the first stands the inverse. -/
theorem gfMul_sboxAffineInv_sbox : ∀ b : U8, b ≠ 0 → gfMul b (sboxAffineInv (sbox b)) 8 = 1 := by
  decide

/-- Settles O51: under SBOX[b] stands an inverse of b, and b has no other. -/
theorem sboxIsTheAffineInverse : Obligations.SboxIsTheAffineInverse := by
  intro b g h i hi
  have hg : sboxAffineInv (sbox b) = g := by
    rcases h with h | ⟨rfl, rfl⟩
    · refine gfMul_inverse_unique (gfMul_sboxAffineInv_sbox b ?_) h
      rintro rfl
      rw [gfMul_zero_left] at h
      exact absurd h (by decide)
    · exact sboxAffineInv_sbox_zero
  rw [← sboxAffine_sboxAffineInv (sbox b), hg, getLsbD_sboxAffine g hi]

/-! ### The steps of a round, byte by byte (R242) -/

/-- The block whose byte in row r and column c is `s r c` (R240). -/
def AesBlock.ofMatrix (s : Nat → Nat → U8) : AesBlock :=
  ⟨⟨s 0 0, s 1 0, s 2 0, s 3 0⟩, ⟨s 0 1, s 1 1, s 2 1, s 3 1⟩,
   ⟨s 0 2, s 1 2, s 2 2, s 3 2⟩, ⟨s 0 3, s 1 3, s 2 3, s 3 3⟩⟩

/-- Equal bytes, equal blocks. -/
theorem AesBlock.ofMatrix_congr {s s' : Nat → Nat → U8} (h : ∀ r c, r < 4 → c < 4 → s r c = s' r c) :
    ofMatrix s = ofMatrix s' := by
  simp only [ofMatrix, h, Nat.reduceLT]

theorem aesBlock_eq_ofMatrix (B : List U8) : aesBlock B = .ofMatrix fun r c => byteAt B (r + 4 * c) := rfl

theorem AesBlock.byteAt_bytes_ofMatrix (s : Nat → Nat → U8) {r c : Nat} (hr : r < 4) (hc : c < 4) :
    byteAt (ofMatrix s).bytes (r + 4 * c) = s r c := by
  interval_cases c <;> interval_cases r <;> rfl

theorem AesBlock.shiftRows_sub_ofMatrix (s : Nat → Nat → U8) :
    (ofMatrix s).sub.shiftRows = ofMatrix fun r c => sbox (s r ((c + r) % 4)) := rfl

theorem AesBlock.addKey_ofMatrix (k s : Nat → Nat → U8) :
    (ofMatrix k).addKey (ofMatrix s) = ofMatrix fun r c => s r c ^^^ k r c := rfl

/-- Each row of MixColumns starts at its own byte of the column. -/
theorem AesCol.mix_eq (x : AesCol) :
    x.mix = ⟨xtime x.a0 ^^^ times3 x.a1 ^^^ x.a2 ^^^ x.a3, xtime x.a1 ^^^ times3 x.a2 ^^^ x.a3 ^^^ x.a0,
      xtime x.a2 ^^^ times3 x.a3 ^^^ x.a0 ^^^ x.a1, xtime x.a3 ^^^ times3 x.a0 ^^^ x.a1 ^^^ x.a2⟩ := by
  rw [mix, mk.injEq]
  refine ⟨rfl, ?_, ?_, ?_⟩ <;> ac_rfl

theorem AesBlock.mix_ofMatrix (s : Nat → Nat → U8) :
    (ofMatrix s).mix = ofMatrix fun r c =>
      xtime (s r c) ^^^ times3 (s ((r + 1) % 4) c) ^^^ s ((r + 2) % 4) c ^^^ s ((r + 3) % 4) c := by
  simp only [mix, AesCol.mix_eq]
  rfl

/-- Doubling modulo 0x11B (R240). -/
theorem toNat_xtime : ∀ b : U8, (xtime b).toNat =
    if b.toNat < 0x80 then 2 * b.toNat else (2 * b.toNat) ^^^ 0x11B := by
  decide

/-! ### The recurrences (R243, R244) -/

/-- RCON[1..10] (R243). -/
def rconAll : List U8 := rconMiddle ++ [rconLast]

theorem rconMiddle_getElem {n : Nat} (hn : n < rconMiddle.length) : rconMiddle[n] = rconAll.getD n 0 := by
  rw [rconAll, List.getD_append _ _ _ _ hn, List.getD_eq_getElem _ _ hn]

/-- `w` are the words of the key schedule of K, `x n` the state from P after AddRoundKey(n), and `y n` is `x n` through
SubBytes and ShiftRows. -/
structure AesRun (K P : List U8) (w : Nat → Nat → U8) (x y : Nat → Nat → Nat → U8) : Prop where
  key : ∀ i b, i < 4 → b < 4 → w i b = byteAt K (4 * i + b)
  expand : ∀ i b, 4 ≤ i → i < 44 → b < 4 → w i b = w (i - 4) b ^^^
    (if i % 4 = 0 then sbox (w (i - 1) ((b + 1) % 4)) ^^^ (if b = 0 then rconAll.getD (i / 4 - 1) 0 else 0)
      else w (i - 1) b)
  start : ∀ r c, r < 4 → c < 4 → x 0 r c = byteAt P (r + 4 * c) ^^^ w c r
  sub : ∀ n r c, n < 10 → r < 4 → c < 4 → y n r c = sbox (x n r ((c + r) % 4))
  mix : ∀ n r c, n < 9 → r < 4 → c < 4 → x (n + 1) r c =
    xtime (y n r c) ^^^ times3 (y n ((r + 1) % 4) c) ^^^ y n ((r + 2) % 4) c ^^^ y n ((r + 3) % 4) c ^^^
      w (4 * (n + 1) + c) r
  last : ∀ r c, r < 4 → c < 4 → x 10 r c = y 9 r c ^^^ w (40 + c) r

/-- Word i of a key schedule. -/
def scheduleWord (w : Nat → Nat → U8) (i : Nat) : AesCol := ⟨w i 0, w i 1, w i 2, w i 3⟩

/-- Round key n of a key schedule: words 4n to 4n + 3. -/
def roundKey (w : Nat → Nat → U8) (n : Nat) : AesBlock :=
  ⟨scheduleWord w (4 * n), scheduleWord w (4 * n + 1), scheduleWord w (4 * n + 2), scheduleWord w (4 * n + 3)⟩

theorem roundKey_eq_ofMatrix (w : Nat → Nat → U8) (n : Nat) : roundKey w n = .ofMatrix fun r c => w (4 * n + c) r := rfl

namespace AesRun

variable {K P : List U8} {w : Nat → Nat → U8} {x y : Nat → Nat → Nat → U8} (h : AesRun K P w x y) {n : Nat}
include h

theorem roundKey_zero : roundKey w 0 = aesBlock K := by
  rw [roundKey_eq_ofMatrix, aesBlock_eq_ofMatrix]
  refine AesBlock.ofMatrix_congr fun r c hr hc => ?_
  rw [Nat.mul_zero, Nat.zero_add, h.key c r hc hr, Nat.add_comm]

theorem scheduleWord_first (hn : n < 10) :
    scheduleWord w (4 * (n + 1)) =
      (scheduleWord w (4 * n)).xor (keyCore (rconAll.getD n 0) (scheduleWord w (4 * n + 3))) := by
  have hword : ∀ b, b < 4 → w (4 * (n + 1)) b = w (4 * n) b ^^^
      (sbox (w (4 * n + 3) ((b + 1) % 4)) ^^^ (if b = 0 then rconAll.getD n 0 else 0)) := by
    intro b hb
    rw [h.expand (4 * (n + 1)) b (by omega) (by omega) hb, if_pos (by omega)]
    simp only [show 4 * (n + 1) - 4 = 4 * n by omega, show 4 * (n + 1) - 1 = 4 * n + 3 by omega,
      show 4 * (n + 1) / 4 - 1 = n by omega]
  simp [scheduleWord, AesCol.xor, keyCore, hword]

theorem scheduleWord_next {c : Nat} (hn : n < 10) (hc : c < 3) :
    scheduleWord w (4 * (n + 1) + (c + 1)) =
      (scheduleWord w (4 * n + (c + 1))).xor (scheduleWord w (4 * (n + 1) + c)) := by
  have hword : ∀ b, b < 4 →
      w (4 * (n + 1) + (c + 1)) b = w (4 * n + (c + 1)) b ^^^ w (4 * (n + 1) + c) b := by
    intro b hb
    rw [h.expand (4 * (n + 1) + (c + 1)) b (by omega) (by omega) hb, if_neg (by omega)]
    rw [show 4 * (n + 1) + (c + 1) - 4 = 4 * n + (c + 1) by omega,
      show 4 * (n + 1) + (c + 1) - 1 = 4 * (n + 1) + c by omega]
  simp only [scheduleWord, AesCol.xor, hword, Nat.reduceLT]

theorem nextKey_roundKey (hn : n < 10) : nextKey (roundKey w n) (rconAll.getD n 0) = roundKey w (n + 1) := by
  have h0 := h.scheduleWord_first hn
  have h1 : scheduleWord w (4 * (n + 1) + 1) = (scheduleWord w (4 * n + 1)).xor (scheduleWord w (4 * (n + 1))) :=
    h.scheduleWord_next (c := 0) hn (by decide)
  have h2 : scheduleWord w (4 * (n + 1) + 2) = (scheduleWord w (4 * n + 2)).xor (scheduleWord w (4 * (n + 1) + 1)) :=
    h.scheduleWord_next (c := 1) hn (by decide)
  have h3 : scheduleWord w (4 * (n + 1) + 3) = (scheduleWord w (4 * n + 3)).xor (scheduleWord w (4 * (n + 1) + 2)) :=
    h.scheduleWord_next (c := 2) hn (by decide)
  rw [roundKey, roundKey, h3, h2, h1, h0]
  rfl

theorem shiftRows_sub (hn : n < 10) : (AesBlock.ofMatrix (x n)).sub.shiftRows = .ofMatrix (y n) := by
  rw [AesBlock.shiftRows_sub_ofMatrix]
  exact AesBlock.ofMatrix_congr fun r c hr hc => (h.sub n r c hn hr hc).symm

theorem aesRound_ofMatrix (hn : n < 9) :
    aesRound (roundKey w n, .ofMatrix (x n)) (rconAll.getD n 0) = (roundKey w (n + 1), .ofMatrix (x (n + 1))) := by
  have hmix : (roundKey w (n + 1)).addKey (AesBlock.ofMatrix (y n)).mix = .ofMatrix (x (n + 1)) := by
    rw [AesBlock.mix_ofMatrix, roundKey_eq_ofMatrix, AesBlock.addKey_ofMatrix]
    exact AesBlock.ofMatrix_congr fun r c hr hc => (h.mix n r c hn hr hc).symm
  simp only [aesRound, h.nextKey_roundKey (Nat.lt_succ_of_lt hn), h.shiftRows_sub (Nat.lt_succ_of_lt hn), hmix]

theorem foldl_aesRound : n ≤ 9 →
    (rconMiddle.take n).foldl aesRound (roundKey w 0, .ofMatrix (x 0)) = (roundKey w n, .ofMatrix (x n)) := by
  induction n with
  | zero => exact fun _ => rfl
  | succ n ih =>
    intro hn
    have hlen : n < rconMiddle.length := hn
    rw [List.take_succ_eq_append_getElem hlen, List.foldl_append, ih (by omega), rconMiddle_getElem hlen]
    exact h.aesRound_ofMatrix hn

/-- AES128 ends with the state after round 10. -/
theorem aes128_eq : aes128 K P = (AesBlock.ofMatrix (x 10)).bytes := by
  have hstart : (roundKey w 0).addKey (aesBlock P) = .ofMatrix (x 0) := by
    rw [aesBlock_eq_ofMatrix, roundKey_eq_ofMatrix, AesBlock.addKey_ofMatrix]
    refine AesBlock.ofMatrix_congr fun r c hr hc => ?_
    rw [h.start r c hr hc, Nat.mul_zero, Nat.zero_add]
  have hmiddle : rconMiddle.foldl aesRound (roundKey w 0, .ofMatrix (x 0)) = (roundKey w 9, .ofMatrix (x 9)) :=
    h.foldl_aesRound (Nat.le_refl 9)
  have hkey : nextKey (roundKey w 9) rconLast = roundKey w 10 := h.nextKey_roundKey (by decide)
  have hlast : (roundKey w 10).addKey (AesBlock.ofMatrix (y 9)) = .ofMatrix (x 10) := by
    rw [roundKey_eq_ofMatrix, AesBlock.addKey_ofMatrix]
    exact AesBlock.ofMatrix_congr fun r c hr hc => (h.last r c hr hc).symm
  simp only [aes128, ← h.roundKey_zero, hstart, hmiddle, hkey, h.shiftRows_sub (n := 9) (by decide), hlast]

end AesRun

/-- The vectors of R244. -/
theorem aes128_vectors :
    aes128 (bytesBE128 0x000102030405060708090A0B0C0D0E0F) (bytesBE128 0x00112233445566778899AABBCCDDEEFF) =
      bytesBE128 0x69C4E0D86A7B0430D8CDB78070B4C55A ∧
    aes128 (bytesBE128 0x2B7E151628AED2A6ABF7158809CF4F3C) (bytesBE128 0x3243F6A8885A308D313198A2E0370734) =
      bytesBE128 0x3925841D02DC09FBDC118597196A0B32 ∧
    aes128 (bytesBE128 0) (bytesBE128 0) = bytesBE128 0x66E94BD4EF8A2C3B884CFA59CA342B2E := by
  decide +kernel

/-- Settles O8: the recurrences determine each step of `aes128`; the vectors are computed. -/
theorem aesFollowsItsRounds : Obligations.AesFollowsItsRounds := by
  refine ⟨?_, aes128_vectors⟩
  rintro K P dbl rcon w x y hdbl rfl hkey hexpand hstart hsub hmix hlast
  obtain rfl : dbl = xtime := funext fun b => BitVec.eq_of_toNat_eq ((hdbl b).trans (toNat_xtime b).symm)
  have h : AesRun K P w x y := ⟨hkey, hexpand, hstart, hsub, hmix, hlast⟩
  rw [h.aes128_eq]
  exact ⟨rfl, fun r c hr hc => AesBlock.byteAt_bytes_ofMatrix (x 10) hr hc⟩

end Sys2Proof.Machine

/-! ## The Counter-mode Unit (R250 to R260)

CTR.XFORM and PR.XFORM end in one transform of the region (`ctrTransform`). What it leaves of the image, every access
completed, is one predicate (`RegionXored`), and a second transform under the same key and counter takes it back. -/

namespace Sys2Proof.Machine

/-! ### The initial counter (R250, R253, R260) -/

theorem append_word_inj {hi hi' lo lo' : U64} (h : hi ++ lo = hi' ++ lo') : hi = hi' ∧ lo = lo' := by
  have hhi := congrArg (BitVec.extractLsb' 64 64) h
  have hlo := congrArg (BitVec.extractLsb' 0 64) h
  rw [BitVec.extractLsb'_append_eq_left, BitVec.extractLsb'_append_eq_left] at hhi
  rw [BitVec.extractLsb'_append_eq_right, BitVec.extractLsb'_append_eq_right] at hlo
  exact ⟨hhi, hlo⟩

/-- Either layout keeps both words. -/
theorem counterInit_inj {p : Params} {r r' : Region} {id id' : U64} (h : counterInit p r id = counterInit p r' id') :
    tagWord p r = tagWord p r' ∧ id = id' := by
  unfold counterInit at h
  rcases hl : p.ctrLayout with _ | _ <;> rw [hl] at h
  · exact append_word_inj h
  · exact (append_word_inj h).symm

theorem toNat_append_word (hi lo : U64) : (hi ++ lo).toNat = hi.toNat * 2 ^ 64 + lo.toNat := by
  rw [BitVec.toNat_append, ← Nat.shiftLeft_add_eq_or_of_lt lo.isLt, Nat.shiftLeft_eq]

theorem toNat_counterInit (p : Params) (r : Region) (id : U64) :
    (counterInit p r id).toNat = match p.ctrLayout with
      | .tagHigh => (tagWord p r).toNat * 2 ^ 64 + id.toNat
      | .idHigh => id.toNat * 2 ^ 64 + (tagWord p r).toNat := by
  unfold counterInit
  cases p.ctrLayout <;> exact toNat_append_word _ _

theorem execCtrInit_of_regionOf {tag : BitVec 2} {r : Region} (h : regionOf tag = some r) (s : State) :
    execCtrInit tag s =
      .next (State.withResult .ok { s with ctr := .written (counterInit s.params r s.ctrId.val) }) := by
  rw [execCtrInit, h]
  rfl

/-- Settles O52: the tag names the region whose word the counter holds. -/
theorem ctrInitLoadsTheCounter : Obligations.CtrInitLoadsTheCounter := by
  intro s tag tw h
  obtain ⟨r, hr, rfl⟩ : ∃ r, regionOf tag = some r ∧ tw = tagWord s.params r := by
    obtain ⟨rfl, rfl⟩ | ⟨rfl, rfl⟩ | ⟨rfl, rfl⟩ := h
    · exact ⟨.plain, rfl, rfl⟩
    · exact ⟨.exefs, rfl, rfl⟩
    · exact ⟨.romfs, rfl, rfl⟩
  exact ⟨_, toNat_counterInit s.params r s.ctrId.val, execCtrInit_of_regionOf hr s⟩

/-- Settles O53: the initial counter determines both of its words. -/
theorem initialCountersAreDistinct : Obligations.InitialCountersAreDistinct :=
  ⟨fun _ _ _ _ hid h => hid (counterInit_inj h).2, fun _ _ _ _ _ _ htag h => htag (counterInit_inj h).1⟩

/-! ### One keystream block (R251, R252, R254) -/

@[simp] theorem be128_bytesBE128 (x : U128) : be128 (bytesBE128 x) = x := by
  have hbytes : be128 (bytesBE128 x) =
      x.extractLsb' 120 8 ++ x.extractLsb' 112 8 ++ x.extractLsb' 104 8 ++ x.extractLsb' 96 8 ++
      x.extractLsb' 88 8 ++ x.extractLsb' 80 8 ++ x.extractLsb' 72 8 ++ x.extractLsb' 64 8 ++
      x.extractLsb' 56 8 ++ x.extractLsb' 48 8 ++ x.extractLsb' 40 8 ++ x.extractLsb' 32 8 ++
      x.extractLsb' 24 8 ++ x.extractLsb' 16 8 ++ x.extractLsb' 8 8 ++ x.extractLsb' 0 8 := rfl
  simp only [hbytes, BitVec.extractLsb'_append_extractLsb'_eq_extractLsb']
  exact BitVec.extractLsb'_eq_self

/-- Settles O54: KSTREAM is the keystream block read back from its bytes. -/
theorem ctrStepMakesOneKeystreamBlock : Obligations.CtrStepMakesOneKeystreamBlock := by
  intro s ks c hks hc
  obtain rfl : ks = be128 (keystream s.kn.val s.ctr.val) := by rw [keystream, ← hks, be128_bytesBE128]
  obtain rfl : c = s.ctr.val + 1 := BitVec.eq_of_toNat_eq hc
  rfl

/-! ### The exits of CTR.XFORM and PR.XFORM (R256, R258) -/

section
variable {s : State} {tag : BitVec 2} {r : Region} {k : Keyslot} {c : Reg 128} {q : Port}

theorem ctrTransform_of_ok
    (h : ctrRegion s.kn.val (blockCount s.regLen.val.toNat) s.regOff.val.toNat s.regLen.val.toNat s.ctr s.port =
      (c, .ok () q)) :
    ctrTransform s = .next (State.withResult .ok { s with ctr := c, port := q }) := by
  rw [ctrTransform, h]
  rfl

theorem ctrTransform_of_error
    (h : ctrRegion s.kn.val (blockCount s.regLen.val.toNat) s.regOff.val.toNat s.regLen.val.toNat s.ctr s.port =
      (c, .error q)) :
    ctrTransform s = .next (State.withResult .ioFail { s with ctr := c, port := q }) := by
  rw [ctrTransform, h]
  rfl

theorem execCtrXform_of_fits (hf : regionFits s = true) : execCtrXform s = ctrTransform s := by
  rw [execCtrXform, if_neg (by simp [hf])]

theorem execPrXform_of_fits (dev dir : Bool) (hr : regionOf tag = some r) (hs : s.ksState = .ready)
    (hm : methodSlot s.params.methodMap s.method.val = some k) (hf : regionFits s = true) :
    execPrXform tag dev dir s = ctrTransform (prPrepared s dev r k) := by
  rw [execPrXform, hr]
  simp only
  rw [if_neg (by simp [hs]), hm]
  simp only
  rw [if_neg (by simp [hf])]
  rfl

end

/-- Settles O58: each check is one exit, and the exits before it are shut. -/
theorem counterModeChecks : Obligations.CounterModeChecks := by
  intro s tag dev dir htag
  have hfits : s.port.image.len < s.regOff.val.toNat + s.regLen.val.toNat → ¬ regionFits s = true := by
    rw [regionFits_iff]
    exact Nat.not_le_of_lt
  refine ⟨fun hl => ?_, ?_⟩
  · obtain ⟨_, e⟩ | ⟨hf, _⟩ := execCtrXform_cases s
    · exact e
    · exact absurd hf (hfits hl)
  · obtain ⟨h3, _⟩ | ⟨r, _, ⟨hs, e⟩ | ⟨hs, hm, e⟩ | ⟨k, hs, hm, h⟩⟩ := execPrXform_cases tag dev dir s
    · exact absurd h3 htag
    · exact ⟨fun _ => e, fun h => absurd h hs, fun h => absurd h hs⟩
    · exact ⟨absurd hs, fun _ _ => e, fun _ hne => absurd hm hne⟩
    · refine ⟨absurd hs, fun _ hnone => by simp [hm] at hnone, fun _ _ hl => ?_⟩
      obtain ⟨_, e⟩ | ⟨hf, _⟩ := h
      · exact e
      · exact absurd hf (hfits hl)

/-! ### PR.XFORM as four commands (R258, R343) -/

/-- The transform does not read the last result. -/
theorem ctrTransform_withResult (c : Code) (s : State) : ctrTransform (s.withResult c) = ctrTransform s := by
  obtain ⟨_, _, h, e⟩ | ⟨_, _, h, e⟩ := ctrTransform_cases s
  · exact (ctrTransform_of_ok (s := s.withResult c) h).trans e.symm
  · exact (ctrTransform_of_error (s := s.withResult c) h).trans e.symm

theorem regionOf_of_ne_three {tag : BitVec 2} (h : tag ≠ 3) : ∃ r, regionOf tag = some r :=
  Option.ne_none_iff_exists'.1 (mt regionOf_eq_none.1 h)

theorem ctrTransform_next (s : State) : ∃ t, ctrTransform s = .next t := by
  obtain ⟨_, _, _, e⟩ | ⟨_, _, _, e⟩ := ctrTransform_cases s
  · exact ⟨_, e⟩
  · exact ⟨_, e⟩

theorem execAesKeysel_of_methodSlot {s : State} {k : Keyslot} (dev : Bool) (hs : s.ksState = .ready)
    (hm : methodSlot s.params.methodMap s.method.val = some k) :
    execAesKeysel dev s = .next (State.withResult .ok { s with keyX := .written (selectKeyX s.store dev k) }) := by
  rw [execAesKeysel, if_neg (by simp [hs]), hm]
  rfl

theorem execAesScramble_of_ready {s : State} (hs : s.ksState = .ready) :
    execAesScramble s =
      .next (State.withResult .ok { s with kn := .written (scramble s.keyX.val s.keyY.val s.store.ksc) }) := by
  rw [execAesScramble, if_neg (by simp [hs])]
  rfl

/-- Settles O60: the first three commands prepare the state PR.XFORM transforms. -/
theorem prXformIsFourCommands : Obligations.PrXformIsFourCommands := by
  intro s tag dev dir htag hs hm hl
  obtain ⟨r, hr⟩ := regionOf_of_ne_three htag
  obtain ⟨k, hk⟩ := Option.ne_none_iff_exists'.1 hm
  have hf : regionFits s = true := regionFits_iff.2 hl
  obtain ⟨t, ht⟩ := ctrTransform_next (prPrepared s dev r k)
  refine ⟨_, _, (prPrepared s dev r k).withResult .ok, t, execAesKeysel_of_methodSlot dev hs hk,
    execAesScramble_of_ready hs, execCtrInit_of_regionOf hr _, ?_, ?_⟩
  · exact (execCtrXform_of_fits (s := (prPrepared s dev r k).withResult .ok) hf).trans
      ((ctrTransform_withResult .ok _).trans ht)
  · exact (execPrXform_of_fits dev dir hr hs hk hf).trans ht

/-! ### The transform, every access completed (R255 to R258) -/

/-- Byte j of the `n` bytes at `off` of `img'` is that of `img` XORed with byte j mod 16 of the keystream block of
counter c + j / 16; the rest is the same. -/
structure RegionXored (kn c : U128) (off n : Nat) (img img' : Image) : Prop where
  len : img'.len = img.len
  wf : img'.wf = true
  data : ∀ j, j < n → img'.byte (off + j) =
    img.byte (off + j) ^^^ (keystream kn (c + BitVec.ofNat 128 (j / 16))).getD (j % 16) 0
  rest : ∀ x, x < off ∨ off + n ≤ x → img'.byte x = img.byte x

/-- The keystream XORed in a second time cancels. -/
theorem RegionXored.restores {kn c : U128} {off n : Nat} {img img' img'' : Image} (hwf : img.wf = true)
    (h : RegionXored kn c off n img img') (h' : RegionXored kn c off n img' img'') : img'' = img := by
  refine Image.ext_of_byte h'.wf hwf (h'.len.trans h.len) fun x => ?_
  by_cases hx : x < off ∨ off + n ≤ x
  · rw [h'.rest x hx, h.rest x hx]
  · obtain ⟨j, rfl⟩ : ∃ j, x = off + j := ⟨x - off, by omega⟩
    rw [h'.data j (by omega), h.data j (by omega), BitVec.xor_assoc, BitVec.xor_self, BitVec.xor_zero]

theorem toNat_add_blocks (c : U128) (n : Nat) : (c + BitVec.ofNat 128 n).toNat = (c.toNat + n) % 2 ^ 128 := by
  rw [BitVec.toNat_add, BitVec.toNat_ofNat, Nat.add_mod_mod]

theorem toNat_counterAfter (c : Reg 128) (n : Nat) : (counterAfter c n).val.toNat = (c.val.toNat + n) % 2 ^ 128 := by
  rw [counterAfter_val, toNat_add_blocks]

/-- Once a block is done the counter is written. -/
theorem counterAfter_undef {c : Reg 128} {n : Nat} (h : 0 < n) : (counterAfter c n).undef = false := by
  cases n with
  | zero => exact absurd h (Nat.lt_irrefl 0)
  | succ n => rfl

/-- A counter that was written stays so. -/
theorem counterAfter_written (c : U128) (n : Nat) :
    counterAfter (.written c) n = .written (c + BitVec.ofNat 128 n) := by
  cases n with
  | zero => simp [counterAfter]
  | succ n => rfl

theorem ctrTransform_done {s : State} {rest : List PortAnswer} (hwf : s.port.image.wf = true)
    (hl : s.regOff.val.toNat + s.regLen.val.toNat ≤ s.port.image.len)
    (ha : s.port.answers = List.replicate (2 * blockCount s.regLen.val.toNat) .done ++ rest) :
    ∃ img, RegionXored s.kn.val s.ctr.val s.regOff.val.toNat s.regLen.val.toNat s.port.image img ∧
      ctrTransform s = .next (State.withResult .ok { s with
        port := { s.port with image := img, answers := rest }
        ctr := counterAfter s.ctr (blockCount s.regLen.val.toNat) }) := by
  obtain ⟨img, e, hlen, hwf', hdata, hrest⟩ := ctrRegion_done s.kn.val _ (c := s.ctr) rfl hl hwf ha
  exact ⟨img, ⟨hlen, hwf', hdata, hrest⟩, ctrTransform_of_ok e⟩

/-- Settles O55: the region fits, so the command is the transform of it. -/
theorem ctrXformTransformsTheRegion : Obligations.CtrXformTransformsTheRegion := by
  rintro s rest off len rfl rfl hwf hl ha
  obtain ⟨img, h, e⟩ := ctrTransform_done hwf hl ha
  refine ⟨img, _, (execCtrXform_of_fits (regionFits_iff.2 hl)).trans e, h.len, h.data, h.rest,
    toNat_counterAfter _ _, fun hz => ?_, fun hpos => counterAfter_undef ?_⟩
  · rw [hz]
    rfl
  · simp only [blockCount]
    omega

/-- Settles O56: both runs XOR the same keystream. -/
theorem ctrXformTwiceRestores : Obligations.CtrXformTwiceRestores := by
  intro s rest hwf hl ha
  have ha' : s.port.answers = List.replicate (2 * blockCount s.regLen.val.toNat) .done ++
      (List.replicate (2 * blockCount s.regLen.val.toNat) .done ++ rest) := by
    rw [ha, ← List.append_assoc, List.replicate_append_replicate, ← Nat.add_mul]
    rfl
  obtain ⟨img, h, e⟩ := ctrTransform_done hwf hl ha'
  have hl' : s.regOff.val.toNat + s.regLen.val.toNat ≤ img.len := h.len.symm ▸ hl
  obtain ⟨img', h', e'⟩ := ctrTransform_done (s := State.withResult .ok { s with
    port := { s.port with image := img, answers := List.replicate (2 * blockCount s.regLen.val.toNat) .done ++ rest } })
    h.wf hl' rfl
  exact ⟨_, _, (execCtrXform_of_fits (regionFits_iff.2 hl)).trans e, rfl,
    (execCtrXform_of_fits (regionFits_iff.2 hl')).trans e', rfl, h.restores hwf h'⟩

@[simp] theorem prPrepared_ctr (s : State) (dev : Bool) (r : Region) (k : Keyslot) :
    (prPrepared s dev r k).ctr = .written (counterInit s.params r s.ctrId.val) := rfl

/-- Settles O59: PR.XFORM transforms the region from the state that `prPrepared` derives. -/
theorem prXformTransformsTheRegion : Obligations.PrXformTransformsTheRegion := by
  rintro s rest tag r dev dir k off len x kn c0 hr hs hm rfl rfl rfl rfl rfl hwf hl ha
  obtain ⟨img, h, e⟩ := ctrTransform_done (s := prPrepared s dev r k) hwf hl ha
  rw [prPrepared_ctr, counterAfter_written] at e
  exact ⟨img, _, (execPrXform_of_fits dev dir hr hs hm (regionFits_iff.2 hl)).trans e, toNat_add_blocks _ _, h.len,
    h.data, h.rest⟩

/-! ### Stopped by a bus error (R72, R256) -/

/-- What the erring access `n` writes to block n / 2 of a region of `len` bytes: nothing when it is the read, the draws
for the block's bytes when it is the write. -/
def tornDraws (n len : Nat) (torn : List U8) : List U8 :=
  if n % 2 = 0 then [] else torn.take (min 16 (len - 16 * (n / 2)))

theorem tornDraws_read {n : Nat} (hn : n % 2 = 0) (len : Nat) (torn : List U8) : tornDraws n len torn = [] := if_pos hn

theorem tornDraws_write {n : Nat} (hn : n % 2 ≠ 0) (len : Nat) (torn : List U8) :
    tornDraws n len torn = torn.take (min 16 (len - 16 * (n / 2))) := if_neg hn

theorem length_tornDraws_le (n len : Nat) (torn : List U8) :
    (tornDraws n len torn).length ≤ min 16 (len - 16 * (n / 2)) := by
  unfold tornDraws
  split_ifs
  · exact Nat.zero_le _
  · exact List.length_take_le _ _

theorem ctrTransform_torn {s : State} {n : Nat} {torn : List U8} {rest : List PortAnswer}
    (hn : n / 2 < blockCount s.regLen.val.toNat) (hwf : s.port.image.wf = true)
    (hl : s.regOff.val.toNat + s.regLen.val.toNat ≤ s.port.image.len)
    (ha : s.port.answers = List.replicate n .done ++ .error torn :: rest) :
    ∃ img, RegionXored s.kn.val s.ctr.val s.regOff.val.toNat (16 * (n / 2)) s.port.image img ∧
      ctrTransform s = .next (State.withResult .ioFail { s with
        port := { s.port with
          image := img.writeBytes (s.regOff.val.toNat + 16 * (n / 2)) (tornDraws n s.regLen.val.toNat torn)
          answers := rest }
        ctr := counterAfter s.ctr (n / 2) }) := by
  obtain ⟨img, e, hlen, hwf', hdata, hrest⟩ := ctrRegion_torn s.kn.val (c := s.ctr) hn hl hwf ha
  exact ⟨img, ⟨hlen, hwf', hdata, hrest⟩, ctrTransform_of_error e⟩

/-- Settles O57: the bus error meets access n, so n / 2 blocks are done before it. -/
theorem ctrXformBusError : Obligations.CtrXformBusError := by
  rintro s k n torn rest off len rfl rfl hwf hl hk hn ha
  obtain rfl : k = n / 2 := by omega
  obtain ⟨img, h, e⟩ := ctrTransform_torn hk hwf hl ha
  have hdraws := length_tornDraws_le n s.regLen.val.toNat torn
  refine ⟨_, _, (execCtrXform_of_fits (regionFits_iff.2 hl)).trans e, toNat_counterAfter _ _, fun hz => ?_,
    (Image.len_writeBytes _ _ _).trans h.len, fun j hj => ?_, fun hread x hx => ?_, fun hwrite j hj h16 hlen => ?_,
    fun x hx => ?_⟩
  · rw [hz]
    rfl
  · rw [Image.byte_writeBytes_other _ _ _ (by omega)]
    exact h.data j hj
  · rw [tornDraws_read (by omega)]
    exact h.rest x (.inr hx)
  · rw [tornDraws_write (by omega),
      Image.byte_writeBytes_self _ _ h.wf j (by rw [List.length_take]; omega) (by rw [h.len]; omega)]
    exact List.getElem_take
  · rw [Image.byte_writeBytes_other _ _ _ (by omega)]
    exact h.rest x (by omega)

end Sys2Proof.Machine

/-! ## How commands end (R300, R301, R304, R305)

The ways a command can end are said once (`Exit`), with the walk over the commands that shows there are no others. Which
results a command may end with, and that a check error keeps the state, are then read off the way it ended. The bounds
failures have lemmas of their own, since `Exit` does not say when a check fails. -/

namespace Sys2Proof.Machine

/-- How a command `i` executed in `s` may end. Only the last way leaves more than RESULT, SA_DEC and the port's answers
changed: with OK, with IO_FAIL, or with the KEYSTORE_ERROR of a failing first KS.INIT (R121, R301). -/
inductive Exit (i : Instr) (s : State) : State → Prop
  /-- ILLEGAL_CMD, of a command no word encodes (R93, R96). -/
  | illegal (hi : i.wellFormed = false) : Exit i s (s.withResult .illegalCmd)
  /-- A failed check before the first effect (R301). -/
  | check {c : Code} (hlisted : c ∈ commandResults i) (hc : c ≠ .already) : Exit i s (s.withResult c)
  /-- The area is in the state asked for (R182, R184); the peek has used the port. -/
  | already {q : Port} (v : Bool) (hlisted : .already ∈ commandResults i) (hq : q.image = s.port.image) :
      Exit i s (State.withResult .already { s with port := q, saDec := v })
  /-- With effects. -/
  | effects {c : Code} (u : State) (hlisted : c ∈ commandResults i)
      (hc : c = .ok ∨ c = .ioFail ∨ c = .keystoreError ∧ ∃ ok, i = .ksInit ok) : Exit i s (u.withResult c)

/-- OK, with the effects of the command. -/
theorem Exit.done {i : Instr} {s : State} (u : State) (hlisted : .ok ∈ commandResults i) : Exit i s (u.withResult .ok) :=
  .effects u hlisted (.inl rfl)

/-- IO_FAIL at a bus error, with what the command had done by then. -/
theorem Exit.busError {i : Instr} {s : State} (u : State) (hlisted : .ioFail ∈ commandResults i) :
    Exit i s (u.withResult .ioFail) := .effects u hlisted (.inr (.inl rfl))

/-! ### Every command ends so -/

theorem ctrTransform_exit {i : Instr} (s u : State) (hok : .ok ∈ commandResults i) (hio : .ioFail ∈ commandResults i) :
    ∃ t, ctrTransform u = .next t ∧ Exit i s t := by
  obtain ⟨c, q, _, e⟩ | ⟨c, q, _, e⟩ := ctrTransform_cases u
  · exact ⟨_, e, .done _ hok⟩
  · exact ⟨_, e, .busError _ hio⟩

/-- SA.DEC and SA.ENC: whatever they go on to ends with `saLeave` (R182, R184, R186). -/
theorem saEnter_exit {i : Instr} {already : Bool} {go : U32 × U32 → State → Result} (s : State)
    (hi : commandResults i = [.ioFail, .already, .ok]) (hgo : ∀ w u, ∃ k a, go w u = saLeave k u a) :
    ∃ t, saEnter already s go = .next t ∧ Exit i s t := by
  have hio : .ioFail ∈ commandResults i := by simp [hi]
  obtain ⟨_, e⟩ | ⟨q, _, _, e⟩ | ⟨B, q, _, hr, _, e⟩ | ⟨B, q, _, _, _, e⟩ := saEnter_cases already s go
  · exact ⟨_, e, .check hio nofun⟩
  · exact ⟨_, e, .busError _ hio⟩
  · exact ⟨_, e, .already _ (by simp [hi]) (memRead_ok hr).1⟩
  · obtain ⟨k, a, hleave⟩ := hgo (blockWords B) { s with port := q, saDec := !already }
    obtain ⟨q', _, e'⟩ | ⟨q', _, e'⟩ := saLeave_cases k { s with port := q, saDec := !already } a
    · exact ⟨_, (e.trans hleave).trans e', .done _ (by simp [hi])⟩
    · exact ⟨_, (e.trans hleave).trans e', .busError _ hio⟩

theorem execSaDec_exit (s : State) : ∃ t, execSaDec s = .next t ∧ Exit .saDec s t :=
  saEnter_exit s rfl fun _ _ => ⟨_, _, rfl⟩

theorem execSaEnc_exit (s : State) : ∃ t, execSaEnc s = .next t ∧ Exit .saEnc s t :=
  saEnter_exit s rfl fun _ _ => ⟨_, _, rfl⟩

theorem blockCommand_exit {i : Instr} (f : Table → U32 × U32 → U32 × U32) (s : State)
    (hi : commandResults i = [.tableNotInit, .ok]) : ∃ t, blockCommand f s = .next t ∧ Exit i s t := by
  obtain ⟨_, e⟩ | ⟨x, -, _, e⟩ := blockCommand_cases f s
  · exact ⟨_, e, .check (by simp [hi]) nofun⟩
  · exact ⟨_, e, .done _ (by simp [hi])⟩

theorem execKsInit_exit (ok : Bool) (s : State) : ∃ t, execKsInit ok s = .next t ∧ Exit (.ksInit ok) s t := by
  obtain ⟨_, e⟩ | ⟨_, _, e⟩ | ⟨_, _, _, e⟩ := execKsInit_cases ok s
  · exact ⟨_, e, .done _ (by simp [commandResults])⟩
  · exact ⟨_, e, .effects _ (by simp [commandResults]) (.inr (.inr ⟨rfl, ok, rfl⟩))⟩
  · exact ⟨_, e, .done _ (by simp [commandResults])⟩

theorem execPrXform_exit (tag : BitVec 2) (dev dir : Bool) (s : State) :
    ∃ t, execPrXform tag dev dir s = .next t ∧ Exit (.prXform tag dev dir) s t := by
  obtain ⟨rfl, e⟩ | ⟨r, _, ⟨_, e⟩ | ⟨_, _, e⟩ | ⟨k, _, _, ⟨_, e⟩ | ⟨_, e⟩⟩⟩ := execPrXform_cases tag dev dir s
  · exact ⟨_, e, .illegal rfl⟩
  · exact ⟨_, e, .check (by simp [commandResults]) nofun⟩
  · exact ⟨_, e, .check (by simp [commandResults]) nofun⟩
  · exact ⟨_, e, .check (by simp [commandResults]) nofun⟩
  · rw [e]
    exact ctrTransform_exit s _ (by simp [commandResults]) (by simp [commandResults])

/-- Every command ends, in one of these ways (R304, R305). -/
theorem exec_exit (i : Instr) (s : State) : ∃ t, exec i s = .next t ∧ Exit i s t := by
  cases i with
  | nop => exact ⟨_, finish_eq s, .done _ (by decide)⟩
  | ksInit ok => exact execKsInit_exit ok s
  | ktInit1 =>
    obtain ⟨k, -, e⟩ := execKtInit1_cases s
    exact ⟨_, e, .done _ (by decide)⟩
  | ktInit2 =>
    obtain ⟨k, -, ⟨_, e⟩ | ⟨_, e⟩⟩ := execKtInit2_cases s
    · exact ⟨_, e, .check (by decide) nofun⟩
    · exact ⟨_, e, .done _ (by decide)⟩
  | ktUpdate =>
    obtain ⟨T, -, ⟨_, e⟩ | ⟨_, e⟩⟩ := execKtUpdate_cases s
    · exact ⟨_, e, .check (by decide) nofun⟩
    · exact ⟨_, e, .done _ (by decide)⟩
  | ktAdvance =>
    obtain ⟨_, e⟩ | ⟨_, e⟩ := execKtAdvance_cases s
    · exact ⟨_, e, .check (by decide) nofun⟩
    · exact ⟨_, e, .done _ (by decide)⟩
  | blkEnc => exact blockCommand_exit blockE s rfl
  | blkDec => exact blockCommand_exit blockD s rfl
  | saDetect =>
    obtain ⟨_, e⟩ | ⟨q, _, _, e⟩ | ⟨B, q, _, _, e⟩ := execSaDetect_cases s
    · exact ⟨_, e, .check (by decide) nofun⟩
    · exact ⟨_, e, .busError _ (by decide)⟩
    · exact ⟨_, e, .done _ (by decide)⟩
  | saDec => exact execSaDec_exit s
  | saEnc => exact execSaEnc_exit s
  | aesKeysel dev =>
    obtain ⟨_, e⟩ | ⟨_, _, e⟩ | ⟨k, _, _, e⟩ := execAesKeysel_cases dev s
    · exact ⟨_, e, .check (by simp [commandResults]) nofun⟩
    · exact ⟨_, e, .check (by simp [commandResults]) nofun⟩
    · exact ⟨_, e, .done _ (by simp [commandResults])⟩
  | aesScramble =>
    obtain ⟨_, e⟩ | ⟨_, e⟩ := execAesScramble_cases s
    · exact ⟨_, e, .check (by decide) nofun⟩
    · exact ⟨_, e, .done _ (by decide)⟩
  | ctrInit tag =>
    obtain ⟨rfl, e⟩ | ⟨r, _, e⟩ := execCtrInit_cases tag s
    · exact ⟨_, e, .illegal rfl⟩
    · exact ⟨_, e, .done _ (by simp [commandResults])⟩
  | ctrStep => exact ⟨_, finish_eq _, .done _ (by decide)⟩
  | ctrXform =>
    obtain ⟨_, e⟩ | ⟨_, e⟩ := execCtrXform_cases s
    · exact ⟨_, e, .check (by decide) nofun⟩
    · obtain ⟨t, e', hexit⟩ := ctrTransform_exit (i := .ctrXform) s s (by decide) (by decide)
      exact ⟨t, e.trans e', hexit⟩
  | prXform tag dev dir => exact execPrXform_exit tag dev dir s

/-! ### What the way it ended says -/

section
variable {i : Instr} {s t : State}

theorem Exit.busy_eq_false (h : Exit i s t) : t.busy = false := by
  cases h <;> rfl

theorem Exit.result_mem (h : Exit i s t) (hi : i.wellFormed = true) : t.result ∈ commandResults i := by
  cases h with
  | illegal hill => simp [hi] at hill
  | check hlisted _ | already _ hlisted _ | effects _ hlisted _ => exact hlisted

/-- These errors come from failed checks only; KS.INIT's KEYSTORE_ERROR may have set KSSTATE (R121, R301). -/
theorem Exit.eq_withResult (h : Exit i s t)
    (hc : t.result = .illegalCmd ∨ t.result = .unknownKeyslot ∨ t.result = .tableNotInit ∨
      (t.result = .keystoreError ∧ ∀ ok, i ≠ .ksInit ok)) : t = s.withResult t.result := by
  cases h with
  | illegal _ | check _ _ => rfl
  | already v _ _ => simp at hc
  | effects u _ he =>
    obtain rfl | rfl | ⟨rfl, ok, rfl⟩ := he <;> simp at hc

/-- ALREADY is the exit after the peek (R182, R184, R301). -/
theorem Exit.eq_of_already (h : Exit i s t) (hc : t.result = .already) :
    t.port.image = s.port.image ∧ t = State.withResult .already { s with port := t.port, saDec := t.saDec } := by
  cases h with
  | illegal _ => simp at hc
  | check _ hne => exact absurd hc hne
  | already v _ hq => exact ⟨hq, rfl⟩
  | effects u _ he => obtain rfl | rfl | ⟨rfl, _⟩ := he <;> simp at hc

end

/-- Settles O6: every way to end answers a next state, with a listed result unless no word encodes the command. -/
theorem commandsEndWithAListedResult : Obligations.CommandsEndWithAListedResult := by
  intro i s hi
  obtain ⟨t, e, h⟩ := exec_exit i s
  exact ⟨t, e, h.result_mem hi, h.busy_eq_false⟩

/-! ### The bounds checks (R181, R182, R184, R256, R258) -/

theorem regionFits_eq_false_iff {s : State} :
    regionFits s = false ↔ s.port.image.len < s.regOff.val.toNat + s.regLen.val.toNat := by
  rw [← Bool.not_eq_true, regionFits_iff, Nat.not_le]

/-- The image is too short for the area SA.DETECT, SA.DEC and SA.ENC look at, or for the region of CTR.XFORM. -/
theorem exec_of_short {i : Instr} {s : State}
    (hl : (i = .saDetect ∧ s.port.image.len < 0x4008) ∨ ((i = .saDec ∨ i = .saEnc) ∧ s.port.image.len < 0x4800) ∨
      (i = .ctrXform ∧ s.port.image.len < s.regOff.val.toNat + s.regLen.val.toNat)) :
    exec i s = .next (s.withResult .ioFail) := by
  obtain ⟨rfl, hl⟩ | ⟨rfl | rfl, hl⟩ | ⟨rfl, hl⟩ := hl
  · exact (secureAreaEarlyFailures s .saDetect (by decide)).1 hl
  · exact (secureAreaEarlyFailures s .saDec (by decide)).1 hl
  · exact (secureAreaEarlyFailures s .saEnc (by decide)).1 hl
  · exact if_pos (regionFits_eq_false_iff.2 hl)

/-- PR.XFORM's bounds check comes last, so any of its four checks may be the one that fails (R303). -/
theorem execPrXform_of_short (tag : BitVec 2) (dev dir : Bool) {s : State}
    (hl : s.port.image.len < s.regOff.val.toNat + s.regLen.val.toNat) :
    ∃ c ∈ [Code.illegalCmd, .keystoreError, .unknownKeyslot, .ioFail],
      execPrXform tag dev dir s = .next (s.withResult c) := by
  obtain ⟨_, e⟩ | ⟨r, _, ⟨_, e⟩ | ⟨_, _, e⟩ | ⟨k, _, _, ⟨_, e⟩ | ⟨hf, _⟩⟩⟩ := execPrXform_cases tag dev dir s
  case inr.inr.inr.inr => simp [regionFits_eq_false_iff.2 hl] at hf
  all_goals exact ⟨_, by decide, e⟩

/-- Settles O14: the two clauses about results read them off the way the command ended; the other two are the bounds
checks. -/
theorem checkErrorsChangeOnlyTheResult : Obligations.CheckErrorsChangeOnlyTheResult := by
  intro i s t h
  obtain ⟨_, e, hexit⟩ := exec_exit i s
  cases e.symm.trans h
  refine ⟨hexit.eq_withResult, fun hl => ?_, ?_, hexit.eq_of_already⟩
  · cases h.symm.trans (exec_of_short hl)
    rfl
  · rintro ⟨tag, dev, dir, rfl⟩ hl
    obtain ⟨c, hc, e'⟩ := execPrXform_of_short tag dev dir hl
    cases h.symm.trans e'
    exact ⟨rfl, hc⟩

end Sys2Proof.Machine

/-! ## The host's replay of the secure-area head (R347)

Between KT.INIT1 and the last BLK.DEC a host sees three things: KT_VALID, the schedule in T and W, and the block in
(BLK_B, BLK_A). Each command of the replay is one step on them, and so the replay is a chain of such steps. -/

namespace Sys2Proof.Machine

/-! ### The commands of the replay, as steps on the schedule and the block -/

/-- With KT_VALID = 1, the schedule `k` stands in T and W, and the block `w` = (w0, w1) in (BLK_B, BLK_A) (R64). -/
structure State.HoldsBlock (k : Schedule) (w : U32 × U32) (s : State) : Prop where
  ktValid : s.ktValid = true
  schedule : s.schedule = k
  block : (s.blkB.val, s.blkA.val) = w

theorem execKtInit1_holdsBlock (s : State) : ∃ t, execKtInit1 s = .next t ∧
    t.HoldsBlock (init1 s.params.seed s.gamecode.val) (s.blkB.val, s.blkA.val) := by
  obtain ⟨k, hk, h⟩ := execKtInit1_cases s
  rw [← hk]
  exact ⟨_, h, rfl, rfl, rfl⟩

section
variable {s : State} {k : Schedule} {w : U32 × U32} (h : s.HoldsBlock k w)
include h

theorem execKtInit2_holdsBlock : ∃ t, execKtInit2 s = .next t ∧ t.HoldsBlock (init2 k) w := by
  obtain ⟨hv, rfl, hw⟩ := h
  have e := execKtInit2_of_ktValid hv
  generalize init2 s.schedule = k' at e ⊢
  exact ⟨_, e, hv, rfl, hw⟩

theorem execKtAdvance_holdsBlock : ∃ t, execKtAdvance s = .next t ∧ t.HoldsBlock (advance k) w := by
  obtain ⟨hv, rfl, hw⟩ := h
  exact ⟨_, execKtAdvance_of_ktValid hv, hv, rfl, hw⟩

theorem execBlkDec_holdsBlock : ∃ t, execBlkDec s = .next t ∧ t.HoldsBlock k (onWords (blockD k.table) w) := by
  obtain ⟨hv, rfl, rfl⟩ := h
  exact ⟨_, blockCommand_of_ktValid hv blockD, hv, rfl, rfl⟩

/-- The host loads another block. -/
theorem State.HoldsBlock.load (a b : U32) :
    State.HoldsBlock k (b, a) { s with blkA := ⟨a, false⟩, blkB := ⟨b, false⟩ } :=
  ⟨h.ktValid, h.schedule, rfl⟩

end

/-! ### The order of R347 -/

/-- Settles O47: the replay's five steps end with the level-3 schedule and the block decrypted under both levels,
which is what SA.DEC puts into block 0 before it substitutes MARKER; blocks 1 to 255 are one more BLK.DEC each. -/
theorem hostReplaysTheSecureAreaHead : Obligations.HostReplaysTheSecureAreaHead := by
  intro s k2 k3 hk2 hk3
  obtain ⟨t1, e1, h1⟩ := execKtInit1_holdsBlock s
  rw [← hk2] at h1
  obtain ⟨t2, e2, h2⟩ := execBlkDec_holdsBlock h1
  obtain ⟨t3, e3, h3⟩ := execKtAdvance_holdsBlock h2
  obtain ⟨t4, e4, h4⟩ := execKtInit2_holdsBlock h3
  rw [← primed, ← hk3] at h4
  obtain ⟨t5, e5, h5⟩ := execBlkDec_holdsBlock h4
  refine ⟨t1, t2, t3, t4, t5, e1, e2, e3, e4, e5, h5.schedule, h5.block, fun rest words hwords hwf hl ha hv hw => ?_⟩
  obtain rfl : words = Image.block := funext₂ hwords
  obtain ⟨img, e, harea⟩ := execSaDec_done hk2 hk3 hwf hl ha hv
  refine ⟨_, e, h5.schedule.symm, ?_, fun k a b hk1 hk255 hab => ?_⟩
  · rw [h5.block, hw]
    exact harea.head
  · obtain ⟨v, ev, hblock⟩ := execBlkDec_holdsBlock (h5.load a b)
    refine ⟨v, ev, (harea.bulk k hk1 (by omega)).trans ?_⟩
    rw [← hab, hblock.block]

end Sys2Proof.Machine

/-! ## Power-on reset and the host's access to the image (R61, R100, R340, R341)

A reset in the middle of a command differs from one between commands only in the image it leaves (`tornImage`), whose three
cases are said once: an illegal word, a command with no write range, and one whose range takes the draws. -/

namespace Sys2Proof.Machine

/-! ### Power-on reset (R340) -/

theorem State.status_reset : State.reset.status = 0 := by decide

@[simp] theorem State.status_powerOn (s : State) : s.powerOn.status = 0 := State.status_reset

/-- Settles O15: the step leaves `State.powerOn`, whose fields are those of `State.reset` or untouched. -/
theorem powerOnResetsCore : Obligations.PowerOnResetsCore := by
  intro s rest h
  refine ⟨(s.takeAction rest).powerOn, step_cons h, ?_⟩
  simp [State.reset]

/-! ### Power-on reset in the middle of a command (R341) -/

theorem step_resetDuring {s : State} {w : U32} {torn : List U8} {rest : List HostAction}
    (h : s.pending = .resetDuring w torn :: rest) :
    step s = .next { State.reset with
      params := s.params, pending := rest, pc := s.pc + 1, returned := s.returned
      port := { s.port with image := tornImage w torn s } } :=
  step_cons h

section
variable {w : U32} {i : Instr} {s : State} {a n : Nat} (torn : List U8)

theorem tornImage_of_illegal {r : Illegal} (hd : decode w = .error r) : tornImage w torn s = s.port.image := by
  rw [tornImage, hd]

theorem tornImage_of_no_writeRange (hd : decode w = .ok i) (hr : writeRange i s = none) :
    tornImage w torn s = s.port.image := by
  simp only [tornImage, hd, hr]

theorem tornImage_of_writeRange (hd : decode w = .ok i) (hr : writeRange i s = some (a, n)) :
    tornImage w torn s = s.port.image.writeBytes a (torn.take n) := by
  simp only [tornImage, hd, hr]

end

theorem tornImage_len (w : U32) (torn : List U8) (s : State) : (tornImage w torn s).len = s.port.image.len := by
  rcases hd : decode w with r | i
  · rw [tornImage_of_illegal torn hd]
  · rcases hr : writeRange i s with _ | ⟨a, n⟩
    · rw [tornImage_of_no_writeRange torn hd hr]
    · rw [tornImage_of_writeRange torn hd hr, Image.len_writeBytes]

theorem writeRange_of_saXform {i : Instr} {s : State} (hi : i = .saDec ∨ i = .saEnc) (hl : 0x4800 ≤ s.port.image.len) :
    writeRange i s = some (0x4000, 0x800) := by
  rcases hi with rfl | rfl <;> exact if_neg (Nat.not_lt.2 hl)

theorem writeRange_of_region {i : Instr} {s : State} (hi : i = .ctrXform ∨ ∃ tag dev dir, i = .prXform tag dev dir)
    (hf : s.regOff.val.toNat + s.regLen.val.toNat ≤ s.port.image.len) :
    writeRange i s = some (s.regOff.val.toNat, s.regLen.val.toNat) := by
  rcases hi with rfl | ⟨tag, dev, dir, rfl⟩ <;> exact if_pos (regionFits_iff.2 hf)

/-- A write range has passed the command's bounds check (R182, R184, R256, R258). -/
theorem writeRange_fits {i : Instr} {s : State} {a n : Nat} (h : writeRange i s = some (a, n)) :
    a + n ≤ s.port.image.len := by
  cases i with
  | saDec | saEnc =>
    rw [writeRange] at h
    split_ifs at h with hl
    cases h
    exact Nat.not_lt.1 hl
  | ctrXform | prXform _ _ _ =>
    rw [writeRange] at h
    split_ifs at h with hf
    cases h
    exact regionFits_iff.1 hf
  | _ => cases h

/-- The draws for the `n` bytes at `a`, read back. -/
theorem Image.byte_writeBytes_take {img : Image} {a n j : Nat} {torn : List U8} (hw : img.wf = true)
    (hl : a + n ≤ img.len) (hj : j < torn.length) (hn : j < n) :
    (img.writeBytes a (torn.take n)).byte (a + j) = torn[j] := by
  rw [Image.byte_writeBytes_self a (torn.take n) hw j (by simp; omega) (by omega), List.getElem_take]

/-- Settles O16: the image left is `tornImage`, and a write range lies inside the image. -/
theorem resetDuringACommand : Obligations.ResetDuringACommand := by
  refine ⟨fun s i torn rest hwf hi hp => ?_, fun s w r torn rest hd hp => ?_⟩
  · have hd := decode_encode hi
    refine ⟨tornImage (encode i) torn s, step_resetDuring hp, tornImage_len _ torn s, fun a n hr => ?_,
      tornImage_of_no_writeRange torn hd, writeRange_of_saXform, writeRange_of_region⟩
    rw [tornImage_of_writeRange torn hd hr]
    refine ⟨fun x hx => Image.byte_writeBytes_other a _ _ ?_,
      fun j hj hn => Image.byte_writeBytes_take hwf (writeRange_fits hr) hj hn⟩
    rw [List.length_take]
    omega
  · rw [step_resetDuring hp, tornImage_of_illegal torn hd]

/-! ### POKE and PEEK (R61, R100) -/

theorem hostAction_poke_inside {s : State} {off : Nat} {bs : List U8} (h : off + bs.length ≤ s.port.image.len) :
    hostAction (.poke off bs) s =
      .next { s with port := { s.port with image := s.port.image.writeBytes off bs } } := if_pos h

theorem hostAction_peek_inside {s : State} {off n : Nat} (h : off + n ≤ s.port.image.len) :
    hostAction (.peek off n) s = .next { s with returned := some (.bytes (s.port.image.bytes off n)) } := if_pos h

theorem hostAction_poke_outside {s : State} {off : Nat} {bs : List U8} (h : s.port.image.len < off + bs.length) :
    hostAction (.poke off bs) s = .fault .imageAddress := if_neg (Nat.not_le.2 h)

theorem hostAction_peek_outside {s : State} {off n : Nat} (h : s.port.image.len < off + n) :
    hostAction (.peek off n) s = .fault .imageAddress := if_neg (Nat.not_le.2 h)

/-- Settles O22: the POKE keeps the image's length, so the PEEK is inside too. -/
theorem pokeThenPeek : Obligations.PokeThenPeek := by
  refine fun s off bs hwf => ⟨fun hl => ?_, fun hl => ⟨hostAction_poke_outside hl, hostAction_peek_outside hl⟩⟩
  have hlen : (s.port.image.writeBytes off bs).len = s.port.image.len := Image.len_writeBytes off bs _
  refine ⟨_, _, hostAction_poke_inside hl, hostAction_peek_inside (hlen.symm ▸ hl), ?_, rfl, hlen,
    fun x => Image.byte_writeBytes_other off bs _⟩
  exact congrArg (some ∘ HostData.bytes) (Image.bytes_writeBytes hwf hl)

end Sys2Proof.Machine

/-! ## SA.DEC and SA.ENC: the schedule lost, and the plaintext restored (R186, R187)

Both commands end with `saLeave`, so with the peek completed IO_FAIL can only be its late bus error. The round trip mirrors
that of `encryptRestoresTheCiphertext`. -/

namespace Sys2Proof.Machine

/-! ### Late bus errors (R186) -/

/-- SA.XFORM's end with IO_FAIL is the one that loses the schedule. -/
theorem saLeave_ioFail {k : Schedule} {u t : State} {a : Access Unit} (h : saLeave k u a = .next t)
    (hr : t.result = .ioFail) : ∃ q, t = State.withResult .ioFail (State.loseSchedule { u with port := q }) := by
  obtain ⟨q, -, e⟩ | ⟨q, -, e⟩ := saLeave_cases k u a <;> cases h.symm.trans e
  · cases hr
  · exact ⟨q, rfl⟩

/-- The peek completed, IO_FAIL can only come from the end, and SA_DEC is the verdict (R186). -/
theorem saEnter_ioFail {already : Bool} {s t : State} {go : U32 × U32 → State → Result} {rest : List PortAnswer}
    (hgo : ∀ w u, ∃ k a, go w u = saLeave k u a) (hl : 0x4800 ≤ s.port.image.len)
    (ha : s.port.answers = .done :: rest) (h : saEnter already s go = .next t) (hr : t.result = .ioFail) :
    ∃ u : State, t = u.loseSchedule.withResult .ioFail ∧ u.saDec = isDec (s.port.image.block 0) := by
  rw [saEnter_eq_saPeek, saPeek_of_done _ hl ha] at h
  split_ifs at h
  · cases h
    cases hr
  · obtain ⟨k, a, hleave⟩ := hgo _ _
    obtain ⟨q, rfl⟩ := saLeave_ioFail (hleave.symm.trans h) hr
    exact ⟨_, rfl, rfl⟩

theorem exec_eq_saEnter {i : Instr} (hi : i = .saDec ∨ i = .saEnc) (s : State) :
    ∃ already go, exec i s = saEnter already s go ∧ ∀ w u, ∃ k a, go w u = saLeave k u a := by
  rcases hi with rfl | rfl
  · exact ⟨true, _, (rfl : execSaDec s = _), fun _ _ => ⟨_, _, rfl⟩⟩
  · exact ⟨false, _, (rfl : execSaEnc s = _), fun _ _ => ⟨_, _, rfl⟩⟩

/-- Settles O43: a lost schedule has KT_VALID = 0, which BLK.ENC and BLK.DEC refuse. -/
theorem lateBusErrorLosesTheSchedule : Obligations.LateBusErrorLosesTheSchedule := by
  intro s t i rest hi hl ha h hr
  obtain ⟨already, go, e, hgo⟩ := exec_eq_saEnter hi s
  obtain ⟨u, rfl, hv⟩ := saEnter_ioFail hgo hl ha (e.symm.trans h) hr
  exact ⟨rfl, rfl, rfl, rfl, hv, keyTableCommandsNeedTheTable _ .blkEnc rfl (by simp),
    keyTableCommandsNeedTheTable _ .blkDec rfl (by simp)⟩

/-! ### The round trip of R187 item 1 -/

/-- SA.DEC's substitution undoes SA.ENC's, whose MAGIC stands for MARKER. -/
theorem decryptHead_encryptHead (l2 l3 : Table) {w : U32 × U32} (hw : w = marker ∨ w = altMarker) :
    decryptHead l2 l3 (encryptHead l2 l3 w) = w := by
  rw [decryptHead, encryptHead, onWords_cancel (blockD_blockE l2), onWords_cancel (blockD_blockE l3)]
  rcases hw with rfl | rfl <;> decide

/-- Settles O46: SA.DEC finds block 0 encrypted, and each of its functions undoes SA.ENC's. -/
theorem decryptRestoresThePlaintext : Obligations.DecryptRestoresThePlaintext := by
  intro s rest k2 k3 w hk2 hk3 hwf hl ha hw hmark henc
  obtain rfl : w = s.port.image.block 0 := hw
  rw [show 1025 = 513 + 512 from rfl, ← List.replicate_append_replicate, List.append_assoc] at ha
  obtain ⟨img, e, h⟩ := execSaEnc_done hk2 hk3 hwf hl ha (isDec_iff.2 hmark)
  have hl' : 0x4800 ≤ img.len := h.len.symm ▸ hl
  have hv' : isDec (img.block 0) = false := h.head.symm ▸ henc
  obtain ⟨img', e', h'⟩ := execSaDec_done
    (s := s.saDone k2 true img (List.replicate 512 .done ++ rest)) hk2 hk3 h.wf hl' rfl hv'
  have hhead : decryptHead k2.table k3.table (img.block 0) = s.port.image.block 0 :=
    h.head.symm ▸ decryptHead_encryptHead k2.table k3.table hmark
  refine ⟨_, _, e, rfl, e', rfl, ?_⟩
  exact h.restores hwf (onWords_cancel (blockD_blockE k3.table)) (hhead ▸ h')

end Sys2Proof.Machine
